-- ==== Sys2Proof/Word.lean ====
section
/-! DEFINITION. Word types and the pixel of 00_scope.md R12 and R13. -/

namespace Sys2Proof

/-- `u8` (00_scope.md R12). -/
abbrev Byte := BitVec 8

/-- `u32`, the width of a host register (00_scope.md R10). -/
abbrev Word := BitVec 32

/-- `u64`, the width of an address or length register pair (00_scope.md R10). -/
abbrev Long := BitVec 64

/-- A pixel: four `u8` channels (00_scope.md R13). -/
structure Pixel where
  r : Byte
  g : Byte
  b : Byte
  a : Byte
  deriving DecidableEq, Repr

/-- `OPAQUE_BLACK` (00_scope.md R13). -/
def opaqueBlack : Pixel := ⟨0, 0, 0, 255⟩

/-- `ZERO_PIXEL` (00_scope.md R13). -/
def zeroPixel : Pixel := ⟨0, 0, 0, 0⟩

/-- The history table: exactly 64 pixel slots (10_state.md R27). -/
abbrev Table := Vector Pixel 64

end Sys2Proof
end

