-- ==== Sys2Proof/Config.lean ====
section
/-! DEFINITION. The parameters the spec leaves open (00_scope.md R9), as plain data, and the free values. -/

namespace Sys2Proof

/-- The kind of an engine byte access (00_scope.md R9, `BUS_FAULT(addr, kind)`). -/
inductive Access where
  | read
  | write
  deriving DecidableEq, Repr

/-- The accesses of one kind at addresses `lo ≤ a < hi` fail. -/
structure FaultRange where
  kind : Access
  lo : Nat
  hi : Nat
  deriving DecidableEq, Repr

/-- The platform parameters of 00_scope.md R9.  A list of failing ranges can say every predicate
`BUS_FAULT(addr, kind)` on a finite address space (log 3). -/
structure Config where
  /-- `REG_BASE`: byte address of the register block on the host bus. -/
  regBase : Nat
  /-- `ADDR_W`: width in bits of a memory-port address, 1 to 64. -/
  addrW : Nat
  /-- `BUS_FAULT`: which engine accesses fail. -/
  faults : List FaultRange
  deriving DecidableEq, Repr

/-- The legal values of the parameters (00_scope.md R9). -/
def Config.legal (c : Config) : Bool :=
  decide (1 ≤ c.addrW) && decide (c.addrW ≤ 64) && decide (c.regBase % 256 = 0)

/-- The parameter values of `State.reset`.  DESIGN CHOICE, unsafe (log 3): the spec fixes none of them. -/
def Config.platform : Config := { regBase := 0, addrW := 32, faults := [] }

/-- The k-th free value of the instance at a `REG_BASE`: a destination byte after a reset during an operation
(70_reset_and_hazards.md R231; log 8 and 9).  It has no body, so nothing can be proved of its value.  Instances of one
platform have different `REG_BASE` (00_scope.md R9), so nothing links the free values of one to those of another;
that one instance in one state draws one and the same value is the model's DESIGN CHOICE (log 9). -/
opaque Config.freeByte : Nat → Nat → Byte

end Sys2Proof
end

