-- ==== Sys2Proof/Syntax.lean ====
section
/-! DEFINITION. The instruction set: one constructor per row of spec/opcode_table.json (30_encoding.md R89). -/

namespace Sys2Proof

/-- The rows of the opcode table.  Deltas are the signed operands of 30_encoding.md R82; their ranges are
`wellFormed`'s. -/
inductive Instr where
  /-- `RGBA r, g, b, a` (30_encoding.md R78). -/
  | rgba (r g b a : Byte)
  /-- `RGB r, g, b` (30_encoding.md R77). -/
  | rgb (r g b : Byte)
  /-- `RUN count`, 1 to 62 (30_encoding.md R76). -/
  | run (count : Nat)
  /-- `LUMA dg, drg, dbg` (30_encoding.md R75). -/
  | luma (dg drg dbg : Int)
  /-- `DIFF dr, dg, db` (30_encoding.md R74). -/
  | diff (dr dg db : Int)
  /-- `INDEX slot` (30_encoding.md R73). -/
  | index (slot : BitVec 6)
  /-- `HEADER w, h, c, cs` (30_encoding.md R71). -/
  | header (w h : Word) (c cs : Byte)
  /-- `END`, the end marker (30_encoding.md R79). -/
  | endMarker
  /-- The host command ENCODE: a `CTRL` value with START = 1, MODE = 0; `rsv` is its reserved bits 31:3, which
  no rule reads (10_state.md R31; log 21). -/
  | encode (ie : Bool) (rsv : BitVec 29)
  /-- The host command DECODE: a `CTRL` value with START = 1, MODE = 1. -/
  | decode (ie : Bool) (rsv : BitVec 29)
  deriving DecidableEq, Repr

/-- The six chunk kinds (30_encoding.md R80). -/
def Instr.isChunk : Instr → Bool
  | .rgba .. | .rgb .. | .run .. | .luma .. | .diff .. | .index .. => true
  | .header .. | .endMarker | .encode .. | .decode .. => false

/-- The five chunk kinds other than RUN: those that make a new `prev` (41_pixel_history_cache.md R114). -/
def Instr.isPixelChunk : Instr → Bool
  | .rgba .. | .rgb .. | .luma .. | .diff .. | .index .. => true
  | .run .. | .header .. | .endMarker | .encode .. | .decode .. => false

/-- How many pixels a chunk produces (30_encoding.md R80). -/
def Instr.pixelsMade : Instr → Nat
  | .run count => count
  | .rgba .. | .rgb .. | .luma .. | .diff .. | .index .. => 1
  | .header .. | .endMarker | .encode .. | .decode .. => 0

/-- The pseudo-instruction `RUNS n` (30_encoding.md R87). -/
def runs (n : Nat) : List Instr :=
  List.replicate (n / 62) (.run 62) ++ if n % 62 = 0 then [] else [.run (n % 62)]

end Sys2Proof
end

