-- ==== Sys2Proof/WellFormed.lean ====
section
/-! DEFINITION. The operand ranges of the assembler syntax (30_encoding.md R82 and R86). -/

namespace Sys2Proof

/-- `lo ≤ d ≤ hi`. -/
def within (lo hi d : Int) : Bool := decide (lo ≤ d) && decide (d ≤ hi)

/-- The operands lie in the ranges of 30_encoding.md R82.  Operands given as bit vectors are in range by
their type; every header value is encodable (R86: `c` 0..255). -/
def wellFormed : Instr → Bool
  | .rgba _ _ _ _ => true
  | .rgb _ _ _ => true
  | .run count => decide (1 ≤ count) && decide (count ≤ 62)
  | .luma dg drg dbg => within (-32) 31 dg && within (-8) 7 drg && within (-8) 7 dbg
  | .diff dr dg db => within (-2) 1 dr && within (-2) 1 dg && within (-2) 1 db
  | .index _ => true
  | .header _ _ _ _ => true
  | .endMarker => true
  | .encode _ _ => true
  | .decode _ _ => true

end Sys2Proof
end

