-- ==== Sys2Proof/Decode.lean ====
section
/-! DEFINITION. Decoding and encoding of the stream and of the `CTRL` commands (30_encoding.md). -/

namespace Sys2Proof

/-- Why bits are no instruction. -/
inductive DecodeError where
  /-- No byte at all. -/
  | empty
  /-- A chunk with fewer payload bytes than its first byte asks for. -/
  | truncated
  /-- Bytes after the instruction. -/
  | trailing
  /-- A header of fewer than 14 bytes. -/
  | shortHeader
  /-- The first four header bytes are not the magic. -/
  | badMagic
  /-- An end marker of fewer than 8 bytes. -/
  | shortMarker
  /-- The eight bytes are not the end marker. -/
  | badMarker
  /-- A `CTRL` value with START = 0: no command. -/
  | noStart
  deriving DecidableEq, Repr

/-- The bits of an instruction, in the place that says how they are read: the stream's header, chunk stream
or last eight bytes, or a value written to `CTRL` (30_encoding.md R70 and R89). -/
inductive Code where
  | header (bytes : List Byte)
  | chunk (bytes : List Byte)
  | marker (bytes : List Byte)
  | ctrl (value : Word)
  deriving DecidableEq, Repr

/-! ### Bit fields -/

/-- `b[hi:lo]` as an exact number (00_scope.md R11), for `w = hi - lo + 1`. -/
def field (b : Byte) (lo w : Nat) : Nat := (b.extractLsb' lo w).toNat

/-- A biased field read back: exact subtraction (30_encoding.md R82). -/
def unbias (b : Byte) (lo w bias : Nat) : Int := (field b lo w : Int) - bias

/-- A biased field as the low bits of a byte: `d + bias` (30_encoding.md R82). -/
def bias (d : Int) (k : Int) : Byte := BitVec.ofInt 8 (d + k)

/-- A `u32` from its four big-endian bytes (20_memory.md R52). -/
def be32 (b3 b2 b1 b0 : Byte) : Word := b3 ++ b2 ++ b1 ++ b0

/-- The big-endian bytes of a `u32` (20_memory.md R52). -/
def be32Bytes (w : Word) : List Byte :=
  [w.extractLsb' 24 8, w.extractLsb' 16 8, w.extractLsb' 8 8, w.extractLsb' 0 8]

/-! ### Decoding -/

/-- The magic `"qoif"` (30_encoding.md R71; GK2, log 17). -/
def magic : List Byte := [0x71, 0x6F, 0x69, 0x66]

/-- The end marker (30_encoding.md R79). -/
def endMarkerBytes : List Byte := [0, 0, 0, 0, 0, 0, 0, 1]

/-- The length of a chunk from its first byte alone (30_encoding.md R80). -/
def chunkLength (b0 : Byte) : Nat :=
  if b0 = 0xFF then 5
  else if b0 = 0xFE then 4
  else if field b0 6 2 = 2 then 2
  else 1

/-- One chunk from the front of a byte list and the bytes after it: the dispatch of 30_encoding.md R72, in
its order, with the operands of R82. -/
def decodeChunk : List Byte → Except DecodeError (Instr × List Byte)
  | [] => .error .empty
  | b0 :: rest =>
    if b0 = 0xFF then
      match rest with
      | r :: g :: b :: a :: rest => .ok (.rgba r g b a, rest)
      | _ => .error .truncated
    else if b0 = 0xFE then
      match rest with
      | r :: g :: b :: rest => .ok (.rgb r g b, rest)
      | _ => .error .truncated
    else if field b0 6 2 = 3 then .ok (.run (field b0 0 6 + 1), rest)
    else if field b0 6 2 = 2 then
      match rest with
      | b1 :: rest => .ok (.luma (unbias b0 0 6 32) (unbias b1 4 4 8) (unbias b1 0 4 8), rest)
      | _ => .error .truncated
    else if field b0 6 2 = 1 then .ok (.diff (unbias b0 4 2 2) (unbias b0 2 2 2) (unbias b0 0 2 2), rest)
    else .ok (.index (b0.extractLsb' 0 6), rest)

/-- The header's ten field bytes after the magic (30_encoding.md R71). -/
def decodeFields : List Byte → Except DecodeError Instr
  | [w3, w2, w1, w0, h3, h2, h1, h0, c, cs] => .ok (.header (be32 w3 w2 w1 w0) (be32 h3 h2 h1 h0) c cs)
  | _ => .error .shortHeader

/-- The 14-byte header (30_encoding.md R71); the magic is exact (40_header_codec.md R102). -/
def decodeHeader (bytes : List Byte) : Except DecodeError Instr :=
  if bytes.length < 14 then .error .shortHeader
  else if 14 < bytes.length then .error .trailing
  else if bytes.take 4 = magic then decodeFields (bytes.drop 4)
  else .error .badMagic

/-- The end marker (30_encoding.md R85: any other eight bytes fail). -/
def decodeMarker (bytes : List Byte) : Except DecodeError Instr :=
  if bytes.length < 8 then .error .shortMarker
  else if 8 < bytes.length then .error .trailing
  else if bytes = endMarkerBytes then .ok .endMarker
  else .error .badMarker

/-- A value written to `CTRL`, as a command (10_state.md R31; opcode table rows ENCODE and DECODE). -/
def decodeCtrl (v : Word) : Except DecodeError Instr :=
  if v.getLsbD 0 then
    if v.getLsbD 1 then .ok (.decode (v.getLsbD 2) (v.extractLsb' 3 29))
    else .ok (.encode (v.getLsbD 2) (v.extractLsb' 3 29))
  else .error .noStart

/-- Decoding, total on any bits: exactly one instruction, or the reason why there is none. -/
def decode : Code → Except DecodeError Instr
  | .header bytes => decodeHeader bytes
  | .chunk bytes =>
    match decodeChunk bytes with
    | .ok (i, []) => .ok i
    | .ok (_, _ :: _) => .error .trailing
    | .error e => .error e
  | .marker bytes => decodeMarker bytes
  | .ctrl v => decodeCtrl v

/-! ### Encoding -/

/-- A `CTRL` value from its fields (10_state.md R31). -/
def ctrlValue (start mode ie : Bool) (rsv : BitVec 29) : Word :=
  rsv ++ BitVec.ofBool ie ++ BitVec.ofBool mode ++ BitVec.ofBool start

/-- The bytes the encoder writes for a stream instruction (42_chunk_encoder.md R122 to R129,
40_header_codec.md R100, 44_framing_and_commands.md R186); a command has none. -/
def encodeBytes : Instr → List Byte
  | .rgba r g b a => [0xFF, r, g, b, a]
  | .rgb r g b => [0xFE, r, g, b]
  | .run count => [0xC0 ||| BitVec.ofNat 8 (count - 1)]
  | .luma dg drg dbg => [0x80 ||| bias dg 32, bias drg 8 <<< 4 ||| bias dbg 8]
  | .diff dr dg db => [0x40 ||| bias dr 2 <<< 4 ||| bias dg 2 <<< 2 ||| bias db 2]
  | .index slot => [0x00 ||| slot.setWidth 8]
  | .header w h c cs => magic ++ be32Bytes w ++ be32Bytes h ++ [c, cs]
  | .endMarker => endMarkerBytes
  | .encode _ _ => []
  | .decode _ _ => []

/-- The bits of an instruction in its place. -/
def encode : Instr → Code
  | .rgba r g b a => .chunk (encodeBytes (.rgba r g b a))
  | .rgb r g b => .chunk (encodeBytes (.rgb r g b))
  | .run count => .chunk (encodeBytes (.run count))
  | .luma dg drg dbg => .chunk (encodeBytes (.luma dg drg dbg))
  | .diff dr dg db => .chunk (encodeBytes (.diff dr dg db))
  | .index slot => .chunk (encodeBytes (.index slot))
  | .header w h c cs => .header (encodeBytes (.header w h c cs))
  | .endMarker => .marker (encodeBytes .endMarker)
  | .encode ie rsv => .ctrl (ctrlValue true false ie rsv)
  | .decode ie rsv => .ctrl (ctrlValue true true ie rsv)

/-! ### The opcode table's numbering -/

/-- The first `k` bytes of a number, least significant first. -/
def leBytes : Nat → Nat → List Byte
  | 0, _ => []
  | k + 1, w => BitVec.ofNat 8 w :: leBytes k (w / 256)

/-- A header whose first three 32-bit words are numbered big-endian, as the table's HEADER row numbers the
magic (`match` 0x716F6966), and whose last two bytes count on from them. -/
def headerBytesOfTable (w : Nat) : List Byte :=
  be32Bytes (BitVec.ofNat 32 w) ++ be32Bytes (BitVec.ofNat 32 (w / 2 ^ 32)) ++
    be32Bytes (BitVec.ofNat 32 (w / 2 ^ 64)) ++ leBytes 2 (w / 2 ^ 96)

/-- The place and bits that a table word stands for (log 18).  The rows of the table are matched against
different things (`match_applies_to`), so a bare number does not say which: 64 bits are the end marker, a
number that begins with the magic is the header, an odd 32-bit number is a `CTRL` value (RGB's first byte is
even), and so are the 8-bit numbers 1 and 3, the very `match` values of ENCODE and DECODE; all else is a
chunk, first byte lowest. -/
def tableCode (nbits w : Nat) : Code :=
  if nbits = 64 then
    if w = 1 then .marker endMarkerBytes else .marker (leBytes 8 w)
  else if 32 ≤ nbits ∧ w % 2 ^ 32 = 0x716F6966 then .header (headerBytesOfTable w)
  else if nbits = 112 then .header (leBytes 14 w)
  else if nbits = 32 ∧ w % 2 = 1 then .ctrl (BitVec.ofNat 32 w)
  else if nbits = 8 ∧ (w = 1 ∨ w = 3) then .ctrl (BitVec.ofNat 32 w)
  else .chunk (leBytes (chunkLength (BitVec.ofNat 8 w)) w)

/-- The instruction the decoder reads from a word of the opcode table (log 18). -/
def decodeTableWord (nbits w : Nat) : Option Instr :=
  match decode (tableCode nbits w) with
  | .ok i => some i
  | .error _ => none

end Sys2Proof
end

