-- ==== Sys2Proof/Machine/State.lean ====
section
/-! DEFINITION. The state of the machine (10_state.md), as plain data, and its reset value. -/

namespace Sys2Proof.Machine

open Sys2Proof

/-- `CTRL.MODE` (10_state.md R31). -/
inductive Mode where
  | encode
  | decode
  deriving DecidableEq, Repr

/-- `phase`, the engine's control state (10_state.md R26). -/
inductive Phase where
  | idle
  | encoding
  | decoding
  deriving DecidableEq, Repr

/-- Where in the operation of `phase` the engine stands: the order of 44_framing_and_commands.md R181 and R182
made a register.  The model's own (log 6). -/
inductive Stage where
  /-- The start checks come next. -/
  | start
  /-- The header comes next. -/
  | header
  /-- The pixel or chunk loop, and what follows it. -/
  | body
  deriving DecidableEq, Repr

/-- The error codes 0 to 11 of 60_exceptions.md R200; 12 to 15 are never reported. -/
inductive ErrCode where
  | none
  | shortInput
  | badMagic
  | badEndMarker
  | truncatedChunk
  | dstOverflow
  | busError
  | badChannels
  | pixelCount
  | srcLen
  | size
  | overlap
  deriving DecidableEq, Repr

/-- One action of the host or the platform on the engine (70_reset_and_hazards.md R233). -/
inductive HostAction where
  /-- `HostRead(offset)` of `bytes` bytes (00_scope.md R15; only aligned 4-byte accesses are defined, 10_state.md R38). -/
  | readReg (offset : BitVec 8) (bytes : Nat)
  /-- `HostWrite(offset, v32)` of `bytes` bytes. -/
  | writeReg (offset : BitVec 8) (bytes : Nat) (v : Word)
  /-- A host read of one memory byte. -/
  | readMem (addr : Nat)
  /-- A host write of one memory byte. -/
  | writeMem (addr : Nat) (v : Byte)
  /-- The reset input is asserted and released (70_reset_and_hazards.md R230). -/
  | reset
  deriving DecidableEq, Repr

/-- Whose turn it is: host accesses land between engine transitions (70_reset_and_hazards.md R242; log 5). -/
inductive Turn where
  | engine
  | host (act : HostAction)
  deriving DecidableEq, Repr

/-- Engine memory: bytes by address, addresses strictly rising, no entry 0, which is what an unlisted byte
reads as (log 2). -/
abbrev Memory := List Host.Cell

/-- Everything the spec gives the machine, and the model's own bookkeeping. -/
structure State where
  /-- `REG_BASE`, `ADDR_W`, `BUS_FAULT` (00_scope.md R9); no step changes them. -/
  cfg : Config
  /-- `CTRL.MODE` (10_state.md R31). -/
  mode : Mode
  /-- `CTRL.IE` (10_state.md R31). -/
  ie : Bool
  /-- `STATUS.DONE` (10_state.md R32). -/
  done : Bool
  /-- `STATUS.ERR` (10_state.md R32). -/
  err : Bool
  /-- `STATUS.ALPHA3` (10_state.md R32). -/
  alpha3 : Bool
  /-- `STATUS.ERRCODE` (10_state.md R32). -/
  errcode : ErrCode
  /-- `WIDTH` (10_state.md R33). -/
  width : Word
  /-- `HEIGHT` (10_state.md R33). -/
  height : Word
  /-- `FORMAT.CHANNELS` (10_state.md R34). -/
  channels : Byte
  /-- `FORMAT.COLORSPACE` (10_state.md R34). -/
  colorspace : Byte
  /-- `SRC_ADDR` (10_state.md R35). -/
  srcAddr : Long
  /-- `SRC_LEN` (10_state.md R36). -/
  srcLen : Long
  /-- `DST_ADDR` (10_state.md R35). -/
  dstAddr : Long
  /-- `DST_CAP` (10_state.md R36). -/
  dstCap : Long
  /-- `OUT_LEN` (10_state.md R37). -/
  outLen : Long
  /-- `phase` (10_state.md R26); `STATUS.BUSY` is read from it. -/
  phase : Phase
  /-- `prev` (10_state.md R22). -/
  prev : Pixel
  /-- `px` (10_state.md R23). -/
  px : Pixel
  /-- `run`, 6 bits (10_state.md R24). -/
  run : BitVec 6
  /-- `i`, the next logical pixel to read (10_state.md R25). -/
  i : Nat
  /-- `q`, stream bytes written so far (10_state.md R25). -/
  q : Nat
  /-- `p`, offset of the next chunk's first byte (10_state.md R25). -/
  p : Nat
  /-- `n`, logical pixels written so far (10_state.md R25). -/
  n : Nat
  /-- `end`, where the chunk stream stops (10_state.md R25). -/
  endOff : Nat
  /-- The history table (10_state.md R27). -/
  table : Table
  /-- Engine memory space (10_state.md R42). -/
  mem : Memory
  /-- The model's own: the place in the operation (log 6). -/
  stage : Stage
  /-- The model's own: the turns still to be taken; when there is none, the engine moves (log 5). -/
  schedule : List Turn
  /-- The model's own: what the host's last read returned (log 10). -/
  hostData : Word
  /-- The model's own: which free value comes next (log 9). -/
  freeCount : Nat
  deriving DecidableEq, Repr

/-- Why the machine stops with a fault. -/
inductive Fault where
  /-- A host access to a memory address at or above `2^ADDR_W`, which does not exist (10_state.md R42).
  Raised by a host turn only; safe (log 11). -/
  | noSuchAddress
  deriving DecidableEq, Repr

/-- Why the model gives a step no meaning. -/
inductive Refusal where
  /-- The instruction has no meaning yet.  Raised by `exec` alone; safe. -/
  | notModelled (mnemonic : String)
  /-- A register access that is not an aligned 32-bit one (10_state.md R38: "a model refuses it").
  Raised by a host turn only; safe (log 13). -/
  | registerAccessShape
  /-- A host write to the source or destination range, or a host read of the destination range, while BUSY
  (70_reset_and_hazards.md R238, 93_implementation_defined.md U5).  Raised by a host turn only; safe (log 12). -/
  | bufferInUse
  deriving DecidableEq, Repr

/-- The engine as reset leaves it on a platform with the given parameters and memory (10_state.md R46).  The
internal registers and the table are unspecified there; zero is a DESIGN CHOICE, unsafe (log 1).  The model's own
fields take the values of logs 5, 6, 9 and 10. -/
def State.afterReset (cfg : Config) (mem : Memory) : State where
  cfg := cfg
  mode := .encode
  ie := false
  done := false
  err := false
  alpha3 := false
  errcode := .none
  width := 0
  height := 0
  channels := 0
  colorspace := 0
  srcAddr := 0
  srcLen := 0
  dstAddr := 0
  dstCap := 0
  outLen := 0
  phase := .idle
  prev := zeroPixel
  px := zeroPixel
  run := 0
  i := 0
  q := 0
  p := 0
  n := 0
  endOff := 0
  table := Vector.replicate 64 zeroPixel
  mem := mem
  stage := .start
  schedule := []
  hostData := 0
  freeCount := 0

/-- The machine right after reset, with nothing in memory and the parameter values of log 3. -/
def State.reset : State := State.afterReset Config.platform []

end Sys2Proof.Machine
end

