-- ==== Sys2Proof/Machine/Ops.lean ====
section
/-! DEFINITION. The shared operations: memory, the memory port, error entry, completion, the output primitives
and the start of an operation. -/

namespace Sys2Proof.Machine

open Sys2Proof

/-! ### Memory -/

/-- The byte at an address; an unlisted byte reads 0 (log 2). -/
def Memory.read : Memory → Nat → Byte
  | [], _ => 0
  | (b, w) :: m, a => if b = a then w else Memory.read m a

/-- Store one byte and keep the canonical form. -/
def Memory.write : Memory → Nat → Byte → Memory
  | [], a, v => if v = 0 then [] else [(a, v)]
  | (b, w) :: m, a, v =>
    if a < b then (if v = 0 then (b, w) :: m else (a, v) :: (b, w) :: m)
    else if a = b then (if v = 0 then m else (a, v) :: m)
    else (b, w) :: Memory.write m a v

/-- The canonical form: addresses strictly rising and no entry equal to what an unlisted byte reads as. -/
abbrev Memory.wf (m : Memory) : Prop :=
  m.Pairwise (fun x y => x.1 < y.1) ∧ ∀ c ∈ m, c.2 ≠ 0

/-- Consecutive bytes stored from an address on. -/
def Memory.writeList : Memory → Nat → List Byte → Memory
  | m, _, [] => m
  | m, a, b :: bs => Memory.writeList (m.write a b) (a + 1) bs

/-! ### Outcomes of the engine's own operations -/

/-- An operation step of the engine either goes on or has ended with an error (00_scope.md R14, `raise`). -/
inductive Flow where
  | go (s : State)
  | stop (s : State)
  deriving DecidableEq, Repr

/-- Go on with `f` unless the operation has ended. -/
def Flow.andThen (x : Flow) (f : State → Flow) : Flow :=
  match x with
  | .go s => f s
  | .stop s => .stop s

/-- The state reached; an error is a next state too (60_exceptions.md R204). -/
def Flow.state : Flow → State
  | .go s => s
  | .stop s => s

/-- As an outcome of a step. -/
def Flow.outcome (x : Flow) : Host.Outcome State Fault Refusal := .next x.state

/-- `raise Err(code)`, the state it leaves (60_exceptions.md R204).  There is no return from it (R212).  That `prev`,
`px`, `run`, the cursors and the table keep the abandoned operation's values, which the spec leaves unspecified between
operations (10_state.md R23, U4), is a DESIGN CHOICE, unsafe for claims about them (log 28). -/
def raise (code : ErrCode) (s : State) : State :=
  { s with errcode := code, outLen := 0, err := true, phase := .idle }

/-- `raise Err(code)` inside an operation: nothing after it is done. -/
def raiseFlow (code : ErrCode) (s : State) : Flow := .stop (raise code s)

/-- Successful completion (44_framing_and_commands.md R189).  That the internal registers and the table keep the
finished operation's values is a DESIGN CHOICE, unsafe for claims about them (10_state.md R23, U4; log 28). -/
def complete (len : Nat) (s : State) : State :=
  { s with outLen := BitVec.ofNat 64 len, done := true, phase := .idle }

/-! ### The memory port -/

/-- Whether an engine access fails: `BUS_FAULT(addr, kind)`, or an address the port does not have (log 4). -/
def portFault (c : Config) (k : Access) (a : Nat) : Bool :=
  decide (2 ^ c.addrW ≤ a) ||
    c.faults.any fun f => decide (f.kind = k) && decide (f.lo ≤ a) && decide (a < f.hi)

/-- `MemRead(addr, 1)`; none when the access fails (20_memory.md R50, R58). -/
def memRead (s : State) (a : Nat) : Option Byte :=
  if portFault s.cfg .read a then none else some (s.mem.read a)

/-- `k` reads at increasing addresses. -/
def memReadList (s : State) : Nat → Nat → Option (List Byte)
  | _, 0 => some []
  | a, k + 1 =>
    match memRead s a with
    | none => none
    | some b =>
      match memReadList s (a + 1) k with
      | none => none
      | some bs => some (b :: bs)

/-- `MemWrite(addr, 1, v)`; a failing access has no effect and ends the operation (20_memory.md R58). -/
def memWrite (a : Nat) (v : Byte) (s : State) : Flow :=
  if portFault s.cfg .write a then raiseFlow .busError s else .go { s with mem := s.mem.write a v }

/-- Writes at increasing addresses. -/
def memWriteList : Nat → List Byte → State → Flow
  | _, [], s => .go s
  | a, b :: bs, s => (memWrite a b s).andThen (memWriteList (a + 1) bs)

/-! ### Buffers -/

/-- `W·H`, exact. -/
def State.pixels (s : State) : Nat := s.width.toNat * s.height.toNat

/-- `C`, the channel count. -/
def State.chans (s : State) : Nat := s.channels.toNat

/-- `lo ≤ a < lo + len`. -/
def inRange (lo len a : Nat) : Bool := decide (lo ≤ a) && decide (a < lo + len)

/-- The address lies in the source range (10_state.md R43). -/
def State.inSrc (s : State) (a : Nat) : Bool := inRange s.srcAddr.toNat s.srcLen.toNat a

/-- The address lies in the destination range (10_state.md R43). -/
def State.inDst (s : State) (a : Nat) : Bool := inRange s.dstAddr.toNat s.dstCap.toNat a

/-- `BUSY` (10_state.md R26). -/
def State.busy (s : State) : Bool := decide (s.phase ≠ .idle)

/-! ### Output primitives -/

/-- `emit(b)` (44_framing_and_commands.md R184). -/
def emit (b : Byte) (s : State) : Flow :=
  if s.dstCap.toNat ≤ s.q then raiseFlow .dstOverflow s
  else (memWrite (s.dstAddr.toNat + s.q) b s).andThen fun s => .go { s with q := s.q + 1 }

/-- `emit` of each byte in turn. -/
def emitList : List Byte → State → Flow
  | [], s => .go s
  | b :: bs, s => (emit b s).andThen (emitList bs)

/-- The bytes of a pixel in the image buffer (20_memory.md R53, 43_chunk_decoder.md R162). -/
def pixelBytes (c : Byte) (P : Pixel) : List Byte :=
  if c = 4 then [P.r, P.g, P.b, P.a] else [P.r, P.g, P.b]

/-- `write_pixel(P)` (43_chunk_decoder.md R153). -/
def writePixel (P : Pixel) (s : State) : Flow :=
  (memWriteList (s.dstAddr.toNat + s.n * s.chans) (pixelBytes s.channels P) s).andThen
    fun s => .go { s with n := s.n + 1 }

/-- `write_pixel(P)` again and again (43_chunk_decoder.md R156). -/
def writePixels (P : Pixel) : Nat → State → Flow
  | 0, s => .go s
  | k + 1, s => (writePixel P s).andThen (writePixels P k)

/-! ### The start of an operation -/

/-- The per-operation initial state (10_state.md R47), except `end`, which waits for the length check.  R47 lists
neither `px` nor the other direction's cursors: that they keep what the operation before left is a DESIGN CHOICE,
unsafe for claims about them (10_state.md R23, U4; log 28). -/
def freshOperation (m : Mode) (s : State) : State :=
  match m with
  | .encode =>
    { s with prev := opaqueBlack, table := Vector.replicate 64 zeroPixel, run := 0, i := 0, q := 0 }
  | .decode => { s with prev := opaqueBlack, table := Vector.replicate 64 zeroPixel, p := 14, n := 0 }

/-- The phase a mode starts (44_framing_and_commands.md R180). -/
def Mode.phase : Mode → Phase
  | .encode => .encoding
  | .decode => .decoding

/-- A write of `CTRL` with START = 1 (44_framing_and_commands.md R180): only IE takes effect while BUSY. -/
def startOperation (m : Mode) (ie : Bool) (s : State) : State :=
  if s.busy then { s with ie := ie }
  else
    freshOperation m
      { s with
        ie := ie, mode := m, done := false, err := false, alpha3 := false, errcode := .none, outLen := 0,
        phase := m.phase, stage := .start }

/-- SIZE (60_exceptions.md R208). -/
def sizeFails (s : State) : Bool :=
  decide (2 ^ s.cfg.addrW < s.srcAddr.toNat + s.srcLen.toNat) ||
    decide (2 ^ s.cfg.addrW < s.dstAddr.toNat + s.dstCap.toNat)

/-- OVERLAP (60_exceptions.md R209). -/
def overlapFails (s : State) : Bool :=
  decide (0 < s.srcLen.toNat) && decide (0 < s.dstCap.toNat) &&
    decide (s.srcAddr.toNat < s.dstAddr.toNat + s.dstCap.toNat) &&
    decide (s.dstAddr.toNat < s.srcAddr.toNat + s.srcLen.toNat)

/-- The channel count is legal (60_exceptions.md R201). -/
def goodChannels (c : Byte) : Bool := decide (c = 3) || decide (c = 4)

/-- The ENCODE start checks in their order (60_exceptions.md R201). -/
def encodeCheck (s : State) : ErrCode :=
  if sizeFails s then .size
  else if overlapFails s then .overlap
  else if !goodChannels s.channels then .badChannels
  else if s.srcLen.toNat ≠ s.pixels * s.chans then .srcLen
  else .none

/-- The DECODE checks that read no memory, in their order (60_exceptions.md R202 items 1 to 3). -/
def decodeCheck (s : State) : ErrCode :=
  if sizeFails s then .size
  else if overlapFails s then .overlap
  else if s.srcLen.toNat < 22 then .shortInput
  else .none

/-! ### Hardware reset -/

/-- The addresses a reset during an operation leaves with any value: the destination bytes the port has, less
the source range, which is unchanged (70_reset_and_hazards.md R231; log 8). -/
def State.scrambled (s : State) (a : Nat) : Bool :=
  s.inDst a && !s.inSrc a && decide (a < 2 ^ s.cfg.addrW)

/-- Free values at the scrambled addresses among the first `k` of the destination range.  They are the instance's
own, picked by its `REG_BASE` and its counter (log 9): the bytes two instances' resets leave are unrelated
(70_reset_and_hazards.md R231, 60_exceptions.md R217). -/
def scramble (s : State) : Nat → Memory → Memory
  | 0, m => m
  | k + 1, m =>
    let a := s.dstAddr.toNat + k
    scramble s k (if s.scrambled a then m.write a (Config.freeByte s.cfg.regBase (s.freeCount + k)) else m)

/-- The reset input (70_reset_and_hazards.md R230 and R231).  The platform's parameters, the host's own record of
its last read and the turns to come are not the engine's and stay.  The destination bytes of a reset while BUSY are
free values of this instance alone (60_exceptions.md R217; log 8 and 9). -/
def hardReset (s : State) : State :=
  if s.busy then
    { State.afterReset s.cfg (scramble s s.dstCap.toNat s.mem) with
      schedule := s.schedule, hostData := s.hostData, freeCount := s.freeCount + s.dstCap.toNat }
  else
    { State.afterReset s.cfg s.mem with
      schedule := s.schedule, hostData := s.hostData, freeCount := s.freeCount }

end Sys2Proof.Machine
end

