-- ==== Sys2Proof/Machine/History.lean ====
section
/-! DEFINITION. The pixel history cache (41_pixel_history_cache.md). -/

namespace Sys2Proof.Machine

open Sys2Proof

/-- HASH (41_pixel_history_cache.md R110): 8-bit wraparound at every step, then the low six bits. -/
def pixelHash (P : Pixel) : BitVec 6 := (P.r * 3 + P.g * 5 + P.b * 7 + P.a * 11).extractLsb' 0 6

/-- LOOKUP (41_pixel_history_cache.md R112). -/
def lookup (t : Table) (slot : BitVec 6) : Pixel := t[slot.toNat]'slot.isLt

/-- UPDATE (41_pixel_history_cache.md R113). -/
def update (t : Table) (P : Pixel) : Table := t.set (pixelHash P).toNat P (pixelHash P).isLt

end Sys2Proof.Machine
end

