-- ==== Sys2Proof/Machine/Operands.lean ====
section
/-! DEFINITION. Operand forms: the encoder's pixel and deltas, the decoder's channel addition, the classifier. -/

namespace Sys2Proof.Machine

open Sys2Proof

/-- The pixel at an address of the image buffer (42_chunk_encoder.md R120); none when a read fails. -/
def readPixelAt (s : State) (base : Nat) : Option Pixel :=
  if s.channels = 4 then
    match memReadList s base 4 with
    | some [r, g, b, a] => some ⟨r, g, b, a⟩
    | _ => none
  else
    match memReadList s base 3 with
    | some [r, g, b] => some ⟨r, g, b, 255⟩
    | _ => none

/-- PIXEL READ at logical pixel `i` (42_chunk_encoder.md R120). -/
def readPixel (s : State) : Option Pixel := readPixelAt s (s.srcAddr.toNat + s.i * s.chans)

/-- `sext_8(x -8 y)` (00_scope.md R12). -/
def delta (x y : Byte) : Int := (x - y).toInt

/-- The deltas of 42_chunk_encoder.md R125; `alphaSame` says `da = 0`. -/
structure Deltas where
  dr : Int
  dg : Int
  db : Int
  alphaSame : Bool
  drg : Int
  dbg : Int
  deriving DecidableEq, Repr

/-- DELTAS (42_chunk_encoder.md R125). -/
def deltas (px prev : Pixel) : Deltas where
  dr := delta px.r prev.r
  dg := delta px.g prev.g
  db := delta px.b prev.b
  alphaSame := decide (px.a - prev.a = 0)
  drg := delta (px.r - prev.r) (px.g - prev.g)
  dbg := delta (px.b - prev.b) (px.g - prev.g)

/-- The classifier (42_chunk_encoder.md R132): `t` is the table's pixel at `hash px`. -/
def classify (px prev t : Pixel) : Instr :=
  let d := deltas px prev
  if t = px then .index (pixelHash px)
  else if d.alphaSame && within (-2) 1 d.dr && within (-2) 1 d.dg && within (-2) 1 d.db then
    .diff d.dr d.dg d.db
  else if d.alphaSame && within (-32) 31 d.dg && within (-8) 7 d.drg && within (-8) 7 d.dbg then
    .luma d.dg d.drg d.dbg
  else if d.alphaSame then .rgb px.r px.g px.b
  else .rgba px.r px.g px.b px.a

/-- `(c + d) mod 256` for a signed delta (43_chunk_decoder.md R159). -/
def addDelta (c : Byte) (d : Int) : Byte := c + BitVec.ofInt 8 d

/-- The pixel of a DIFF chunk (43_chunk_decoder.md R158). -/
def diffPixel (prev : Pixel) (dr dg db : Int) : Pixel :=
  ⟨addDelta prev.r dr, addDelta prev.g dg, addDelta prev.b db, prev.a⟩

/-- The pixel of a LUMA chunk (43_chunk_decoder.md R157). -/
def lumaPixel (prev : Pixel) (dg drg dbg : Int) : Pixel :=
  ⟨addDelta prev.r (drg + dg), addDelta prev.g dg, addDelta prev.b (dbg + dg), prev.a⟩

end Sys2Proof.Machine
end

