-- ==== Sys2Proof/Machine/Flags.lean ====
section
/-! DEFINITION. The flags: STATUS, CTRL, FORMAT as words, write-one-to-clear, ALPHA3 and irq. -/

namespace Sys2Proof.Machine

open Sys2Proof

/-- The value of an error code in `STATUS.ERRCODE` (60_exceptions.md R200). -/
def ErrCode.code : ErrCode → BitVec 4
  | .none => 0
  | .shortInput => 1
  | .badMagic => 2
  | .badEndMarker => 3
  | .truncatedChunk => 4
  | .dstOverflow => 5
  | .busError => 6
  | .badChannels => 7
  | .pixelCount => 8
  | .srcLen => 9
  | .size => 10
  | .overlap => 11

/-- `CTRL` as the host reads it: START reads 0, reserved bits read 0 (10_state.md R31). -/
def ctrlWord (s : State) : Word :=
  0#29 ++ BitVec.ofBool s.ie ++ BitVec.ofBool (decide (s.mode = .decode)) ++ 0#1

/-- `STATUS` as the host reads it (10_state.md R32). -/
def statusWord (s : State) : Word :=
  0#20 ++ s.errcode.code ++ 0#4 ++ BitVec.ofBool s.alpha3 ++ BitVec.ofBool s.err ++ BitVec.ofBool s.done ++
    BitVec.ofBool s.busy

/-- `FORMAT` as the host reads it (10_state.md R34). -/
def formatWord (s : State) : Word := 0#16 ++ s.colorspace ++ s.channels

/-- A host write to `STATUS`: writing 1 to DONE, ERR or ALPHA3 clears it (10_state.md R32). -/
def clearStatus (v : Word) (s : State) : State :=
  { s with
    done := s.done && !v.getLsbD 1, err := s.err && !v.getLsbD 2, alpha3 := s.alpha3 && !v.getLsbD 3 }

/-- A host write to `CTRL` with START = 0: IE at any time, MODE unless BUSY (44_framing_and_commands.md R180). -/
def storeCtrl (v : Word) (s : State) : State :=
  { s with
    ie := v.getLsbD 2
    mode := if s.busy then s.mode else if v.getLsbD 1 then .decode else .encode }

/-- The interrupt output (10_state.md R41). -/
def State.irq (s : State) : Bool := s.ie && (s.done || s.err)

/-- ALPHA3 for the new `prev` of a chunk other than RUN (43_chunk_decoder.md R163). -/
def noteAlpha (s : State) : State :=
  if s.channels = 3 ∧ s.prev.a ≠ 255 then { s with alpha3 := true } else s

end Sys2Proof.Machine
end

