-- ==== Sys2Proof/Machine/Chunks.lean ====
section
/-! DEFINITION. The meanings of the six chunk kinds.  Each has the decoder rule of 43_chunk_decoder.md in phase
DECODING and the encoder rule of 42_chunk_encoder.md in phase ENCODING; an idle engine does nothing
(60_exceptions.md R219; log 14). -/

namespace Sys2Proof.Machine

open Sys2Proof

/-! ### Shared parts -/

/-- The common tail of every chunk other than RUN (43_chunk_decoder.md R161). -/
def commonTail (s : State) : Flow :=
  if s.pixels < s.n + 1 then raiseFlow .pixelCount s
  else (writePixel s.prev (noteAlpha s)).andThen fun s => .go { s with table := update s.table s.prev }

/-- A chunk of `len` bytes that makes `P` the new `prev` (43_chunk_decoder.md R154 to R160). -/
def decodePixel (len : Nat) (P : Pixel) (s : State) : Flow :=
  commonTail { s with prev := P, p := s.p + len }

/-- UPDATE and the `prev` write after a differing pixel (42_chunk_encoder.md R130). -/
def recordPixel (s : State) : State := { s with table := update s.table s.px, prev := s.px }

/-- The encoder's side of a chunk other than RUN (42_chunk_encoder.md R124 to R130). -/
def emitPixelChunk (i : Instr) (s : State) : Flow :=
  (emitList (encodeBytes i) s).andThen fun s => .go (recordPixel s)

/-- The encoder's side of RUN (42_chunk_encoder.md R122, R123 and R131). -/
def emitRun (count : Nat) (s : State) : Flow :=
  (emitList (encodeBytes (.run count)) s).andThen fun s => .go { s with run := 0 }

/-- The decoder's side of RUN (43_chunk_decoder.md R156). -/
def decodeRun (count : Nat) (s : State) : Flow :=
  if s.pixels < s.n + count then raiseFlow .pixelCount s
  else (writePixels s.prev count s).andThen fun s => .go { s with p := s.p + 1 }

/-- The two sides of a stream instruction by phase. -/
def byPhase (enc dec : State → Flow) (s : State) : Host.Outcome State Fault Refusal :=
  match s.phase with
  | .idle => .next s
  | .encoding => (enc s).outcome
  | .decoding => (dec s).outcome

/-! ### One meaning per chunk kind -/

/-- RGBA (43_chunk_decoder.md R154; 42_chunk_encoder.md R129). -/
def execRgba (r g b a : Byte) (s : State) : Host.Outcome State Fault Refusal :=
  byPhase (emitPixelChunk (.rgba r g b a)) (decodePixel 5 ⟨r, g, b, a⟩) s

/-- RGB (43_chunk_decoder.md R155; 42_chunk_encoder.md R128). -/
def execRgb (r g b : Byte) (s : State) : Host.Outcome State Fault Refusal :=
  byPhase (emitPixelChunk (.rgb r g b)) (decodePixel 4 ⟨r, g, b, s.prev.a⟩) s

/-- RUN (43_chunk_decoder.md R156; 42_chunk_encoder.md R122). -/
def execRun (count : Nat) (s : State) : Host.Outcome State Fault Refusal :=
  byPhase (emitRun count) (decodeRun count) s

/-- LUMA (43_chunk_decoder.md R157; 42_chunk_encoder.md R127). -/
def execLuma (dg drg dbg : Int) (s : State) : Host.Outcome State Fault Refusal :=
  byPhase (emitPixelChunk (.luma dg drg dbg)) (decodePixel 2 (lumaPixel s.prev dg drg dbg)) s

/-- DIFF (43_chunk_decoder.md R158; 42_chunk_encoder.md R126). -/
def execDiff (dr dg db : Int) (s : State) : Host.Outcome State Fault Refusal :=
  byPhase (emitPixelChunk (.diff dr dg db)) (decodePixel 1 (diffPixel s.prev dr dg db)) s

/-- INDEX (43_chunk_decoder.md R160; 42_chunk_encoder.md R124). -/
def execIndex (slot : BitVec 6) (s : State) : Host.Outcome State Fault Refusal :=
  byPhase (emitPixelChunk (.index slot)) (decodePixel 1 (lookup s.table slot)) s

end Sys2Proof.Machine
end

