-- ==== Sys2Proof/Machine/Framing.lean ====
section
/-! DEFINITION. The meanings of HEADER and END (40_header_codec.md, 44_framing_and_commands.md). -/

namespace Sys2Proof.Machine

open Sys2Proof

/-- HEADER result latch (40_header_codec.md R104). -/
def latchHeader (w h : Word) (c cs : Byte) (s : State) : State :=
  { s with width := w, height := h, channels := c, colorspace := cs }

/-- The decoder enters the chunk loop (44_framing_and_commands.md R182). -/
def enterChunkLoop (s : State) : State :=
  { freshOperation .decode s with endOff := s.srcLen.toNat - 8, stage := .body }

/-- The decoder's side of HEADER once its fields are read: latch, channel check, capacity check
(40_header_codec.md R104, R105; 44_framing_and_commands.md R182). -/
def decodeHeaderFields (w h : Word) (c cs : Byte) (s : State) : Flow :=
  let s := latchHeader w h c cs s
  if !goodChannels s.channels then raiseFlow .badChannels s
  else if s.dstCap.toNat < s.pixels * s.chans then raiseFlow .dstOverflow s
  else .go (enterChunkLoop s)

/-- The encoder's side of HEADER (40_header_codec.md R100). -/
def emitHeader (w h : Word) (c cs : Byte) (s : State) : Flow :=
  (emitList (encodeBytes (.header w h c cs)) s).andThen fun s => .go { s with stage := .body }

/-- HEADER (40_header_codec.md R100 and R103 to R105). -/
def execHeader (w h : Word) (c cs : Byte) (s : State) : Host.Outcome State Fault Refusal :=
  byPhase (emitHeader w h c cs) (decodeHeaderFields w h c cs) s

/-- The encoder's side of END, and its completion (44_framing_and_commands.md R186, R187, R189). -/
def emitEndMarker (s : State) : Flow :=
  (emitList (encodeBytes .endMarker) s).andThen fun s => .go (complete s.q s)

/-- The decoder's completion once the marker has been found (44_framing_and_commands.md R182, R189, R190). -/
def finishDecode (s : State) : Flow := .go (complete (s.pixels * s.chans) s)

/-- END (44_framing_and_commands.md R186, R190 and R189). -/
def execEndMarker (s : State) : Host.Outcome State Fault Refusal := byPhase emitEndMarker finishDecode s

end Sys2Proof.Machine
end

