-- ==== Sys2Proof/Machine/Commands.lean ====
section
/-! DEFINITION. The meanings of the host commands ENCODE and DECODE: START is accepted (44_framing_and_commands.md
R180), and the operation then runs one transition at a time (Machine/Engine.lean). -/

namespace Sys2Proof.Machine

open Sys2Proof

/-- ENCODE (44_framing_and_commands.md R180, R181).  The reserved bits are ignored (10_state.md R31). -/
def execEncode (ie : Bool) (s : State) : Host.Outcome State Fault Refusal := .next (startOperation .encode ie s)

/-- DECODE (44_framing_and_commands.md R180, R182). -/
def execDecode (ie : Bool) (s : State) : Host.Outcome State Fault Refusal := .next (startOperation .decode ie s)

end Sys2Proof.Machine
end

