-- ==== Sys2Proof/Machine/Dispatch.lean ====
section
/-! DEFINITION. One arm per constructor of `Instr`. -/

namespace Sys2Proof.Machine

open Sys2Proof

-- The meaning of every instruction.
def exec (i : Instr) (s : State) : Host.Outcome State Fault Refusal :=
  match i with
  | .rgba r g b a => Sys2Proof.Machine.execRgba r g b a s
  | .rgb r g b => Sys2Proof.Machine.execRgb r g b s
  | .run count => Sys2Proof.Machine.execRun count s
  | .luma dg drg dbg => Sys2Proof.Machine.execLuma dg drg dbg s
  | .diff dr dg db => Sys2Proof.Machine.execDiff dr dg db s
  | .index slot => Sys2Proof.Machine.execIndex slot s
  | .header w h c cs => Sys2Proof.Machine.execHeader w h c cs s
  | .endMarker => Sys2Proof.Machine.execEndMarker s
  | .encode ie _ => Sys2Proof.Machine.execEncode ie s
  | .decode ie _ => Sys2Proof.Machine.execDecode ie s

end Sys2Proof.Machine
end

