-- ==== Sys2Proof/Machine/Registers.lean ====
section
/-! DEFINITION. The host register block (10_state.md R30 to R38). -/

namespace Sys2Proof.Machine

open Sys2Proof

/-- The registers of the map in 10_state.md R30. -/
inductive Reg where
  | ctrl
  | status
  | width
  | height
  | format
  | srcAddrLo
  | srcAddrHi
  | srcLenLo
  | srcLenHi
  | dstAddrLo
  | dstAddrHi
  | dstCapLo
  | dstCapHi
  | outLenLo
  | outLenHi
  | reserved
  deriving DecidableEq, Repr

/-- The register at an aligned offset (10_state.md R30). -/
def regAt (offset : BitVec 8) : Reg :=
  match offset.toNat with
  | 0x00 => .ctrl
  | 0x04 => .status
  | 0x08 => .width
  | 0x0C => .height
  | 0x10 => .format
  | 0x14 => .srcAddrLo
  | 0x18 => .srcAddrHi
  | 0x1C => .srcLenLo
  | 0x20 => .srcLenHi
  | 0x24 => .dstAddrLo
  | 0x28 => .dstAddrHi
  | 0x2C => .dstCapLo
  | 0x30 => .dstCapHi
  | 0x34 => .outLenLo
  | 0x38 => .outLenHi
  | _ => .reserved

/-- Bits 31:0 of a register pair (20_memory.md R55). -/
def loWord (x : Long) : Word := x.extractLsb' 0 32

/-- Bits 63:32 of a register pair (20_memory.md R55). -/
def hiWord (x : Long) : Word := x.extractLsb' 32 32

/-- A register pair with its low word replaced. -/
def withLo (x : Long) (v : Word) : Long := hiWord x ++ v

/-- A register pair with its high word replaced. -/
def withHi (x : Long) (v : Word) : Long := v ++ loWord x

/-- Only the low `ADDR_W` bits of an address pair are implemented (10_state.md R35). -/
def implemented (c : Config) (x : Long) : Long := x &&& BitVec.ofNat 64 (2 ^ c.addrW - 1)

/-- `HostRead` of a register (10_state.md R30 to R38). -/
def readReg (r : Reg) (s : State) : Word :=
  match r with
  | .ctrl => ctrlWord s
  | .status => statusWord s
  | .width => s.width
  | .height => s.height
  | .format => formatWord s
  | .srcAddrLo => loWord s.srcAddr
  | .srcAddrHi => hiWord s.srcAddr
  | .srcLenLo => loWord s.srcLen
  | .srcLenHi => hiWord s.srcLen
  | .dstAddrLo => loWord s.dstAddr
  | .dstAddrHi => hiWord s.dstAddr
  | .dstCapLo => loWord s.dstCap
  | .dstCapHi => hiWord s.dstCap
  | .outLenLo => loWord s.outLen
  | .outLenHi => hiWord s.outLen
  | .reserved => 0

/-- A configuration register takes a host write unless BUSY (70_reset_and_hazards.md R239). -/
def writeConfig (r : Reg) (v : Word) (s : State) : State :=
  match r with
  | .width => { s with width := v }
  | .height => { s with height := v }
  | .format => { s with channels := v.extractLsb' 0 8, colorspace := v.extractLsb' 8 8 }
  | .srcAddrLo => { s with srcAddr := implemented s.cfg (withLo s.srcAddr v) }
  | .srcAddrHi => { s with srcAddr := implemented s.cfg (withHi s.srcAddr v) }
  | .srcLenLo => { s with srcLen := withLo s.srcLen v }
  | .srcLenHi => { s with srcLen := withHi s.srcLen v }
  | .dstAddrLo => { s with dstAddr := implemented s.cfg (withLo s.dstAddr v) }
  | .dstAddrHi => { s with dstAddr := implemented s.cfg (withHi s.dstAddr v) }
  | .dstCapLo => { s with dstCap := withLo s.dstCap v }
  | .dstCapHi => { s with dstCap := withHi s.dstCap v }
  | .ctrl | .status | .outLenLo | .outLenHi | .reserved => s

/-- `HostWrite` of a register other than a `CTRL` write that starts an operation. -/
def writeReg (r : Reg) (v : Word) (s : State) : State :=
  match r with
  | .ctrl => storeCtrl v s
  | .status => clearStatus v s
  | .width | .height | .format | .srcAddrLo | .srcAddrHi | .srcLenLo | .srcLenHi | .dstAddrLo | .dstAddrHi
  | .dstCapLo | .dstCapHi => if s.busy then s else writeConfig r v s
  | .outLenLo | .outLenHi | .reserved => s

/-- The access is an aligned 32-bit one (10_state.md R38). -/
def alignedWord (offset : BitVec 8) (bytes : Nat) : Bool :=
  decide (bytes = 4) && decide (offset.toNat % 4 = 0)

end Sys2Proof.Machine
end

