-- ==== Sys2Proof/Machine/Engine.lean ====
section
/-! DEFINITION. The engine's transitions and the host's turns. -/

namespace Sys2Proof.Machine

open Sys2Proof

/-! ### ENCODE -/

/-- Emit the pending run, if there is one (42_chunk_encoder.md R123 and R131). -/
def flushRun (s : State) : Flow := if s.run = 0 then .go s else emitRun s.run.toNat s

/-- REPEAT, and RUN emission at the cap (42_chunk_encoder.md R121 and R122). -/
def countRepeat (s : State) : Host.Outcome State Fault Refusal :=
  if s.run + 1 = 62 then exec (.run 62) { s with run := s.run + 1 } else .next { s with run := s.run + 1 }

/-- The part of the encoder step after the pixel has been read into `px` (42_chunk_encoder.md R121 to R130). -/
def encodePixel (s : State) : Host.Outcome State Fault Refusal :=
  if s.px = s.prev then countRepeat s
  else
    match flushRun s with
    | .stop t => .next t
    | .go t => exec (classify t.px t.prev (lookup t.table (pixelHash t.px))) t

/-- ENCODER STEP (42_chunk_encoder.md R132).  A failed read leaves `px` and `i` (log 16). -/
def encoderStep (s : State) : Host.Outcome State Fault Refusal :=
  match readPixel s with
  | none => .next (raise .busError s)
  | some P => encodePixel { s with px := P, i := s.i + 1 }

/-- The end of ENCODE: run flush, end marker, completion (44_framing_and_commands.md R181). -/
def finishEncode (s : State) : Host.Outcome State Fault Refusal :=
  match flushRun s with
  | .stop t => .next t
  | .go t => exec .endMarker t

/-- One transition of ENCODE (44_framing_and_commands.md R181). -/
def encodeTransition (s : State) : Host.Outcome State Fault Refusal :=
  match s.stage with
  | .start =>
    match encodeCheck s with
    | .none => .next { freshOperation .encode s with stage := .header }
    | code => .next (raise code s)
  | .header => exec (.header s.width s.height s.channels s.colorspace) s
  | .body => if s.i < s.pixels then encoderStep s else finishEncode s

/-! ### DECODE: what the engine reads as its next instruction -/

/-- The header from the source buffer: magic check, then the fields (40_header_codec.md R102 and R103). -/
def fetchHeader (s : State) : Except ErrCode Instr :=
  match memReadList s s.srcAddr.toNat 4 with
  | none => .error .busError
  | some m =>
    if m ≠ magic then .error .badMagic
    else
      match memReadList s (s.srcAddr.toNat + 4) 10 with
      | none => .error .busError
      | some fields =>
        match decodeHeader (m ++ fields) with
        | .ok i => .ok i
        | .error _ => .error .badMagic

/-- The chunk at `p`: first byte, truncation check, payload (43_chunk_decoder.md R150 and R151). -/
def fetchChunk (s : State) : Except ErrCode Instr :=
  match memRead s (s.srcAddr.toNat + s.p) with
  | none => .error .busError
  | some b0 =>
    if 1 < chunkLength b0 ∧ s.endOff < s.p + chunkLength b0 then .error .truncatedChunk
    else
      match memReadList s (s.srcAddr.toNat + s.p + 1) (chunkLength b0 - 1) with
      | none => .error .busError
      | some payload =>
        match decodeChunk (b0 :: payload) with
        | .ok (i, _) => .ok i
        | .error _ => .error .truncatedChunk

/-- Bytes compared one at a time with the marker's, stopping at the first that differs
(44_framing_and_commands.md R190). -/
def checkMarkerBytes (s : State) : Nat → List Byte → ErrCode
  | _, [] => .none
  | a, b :: bs =>
    match memRead s a with
    | none => .busError
    | some v => if v = b then checkMarkerBytes s (a + 1) bs else .badEndMarker

/-- The end marker at `end` (44_framing_and_commands.md R190). -/
def fetchMarker (s : State) : Except ErrCode Instr :=
  match checkMarkerBytes s (s.srcAddr.toNat + s.endOff) endMarkerBytes with
  | .none => .ok .endMarker
  | code => .error code

/-- What follows the loop: pixel count, then the marker (43_chunk_decoder.md R164). -/
def fetchEnd (s : State) : Except ErrCode Instr :=
  if s.n ≠ s.pixels then .error .pixelCount else fetchMarker s

/-- The instruction after the header: a chunk while `p < end`, then the end marker (43_chunk_decoder.md R150, R164). -/
def fetchBody (s : State) : Except ErrCode Instr := if s.p < s.endOff then fetchChunk s else fetchEnd s

/-- Execute what was fetched, or raise the error met instead. -/
def runFetched (fetched : Except ErrCode Instr) (s : State) : Host.Outcome State Fault Refusal :=
  match fetched with
  | .ok i => exec i s
  | .error code => .next (raise code s)

/-- One transition of DECODE (44_framing_and_commands.md R182). -/
def decodeTransition (s : State) : Host.Outcome State Fault Refusal :=
  match s.stage with
  | .start =>
    match decodeCheck s with
    | .none => .next { s with stage := .header }
    | code => .next (raise code s)
  | .header => runFetched (fetchHeader s) s
  | .body => runFetched (fetchBody s) s

/-- One transition of the engine; an idle engine does nothing (60_exceptions.md R219). -/
def engineTurn (s : State) : Host.Outcome State Fault Refusal :=
  match s.phase with
  | .idle => .next s
  | .encoding => encodeTransition s
  | .decoding => decodeTransition s

/-! ### The host's turns -/

/-- A host write to `CTRL`: a command when START = 1 (44_framing_and_commands.md R180). -/
def writeCtrl (v : Word) (s : State) : Host.Outcome State Fault Refusal :=
  match decodeCtrl v with
  | .ok i => exec i s
  | .error _ => .next (writeReg .ctrl v s)

/-- The host may not write this byte now (70_reset_and_hazards.md R238; log 12).  That the bar is lifted as soon as
`phase` is IDLE, before the host has read `BUSY = 0` from STATUS (20_memory.md R62, R63), is a DESIGN CHOICE, unsafe
(log 29). -/
def State.forbidsWrite (s : State) (a : Nat) : Bool := s.busy && (s.inSrc a || s.inDst a)

/-- The host may not rely on reading this byte now (70_reset_and_hazards.md R238; log 12).  That the bar is lifted,
and the engine's byte returned, as soon as `phase` is IDLE, before the host has read `BUSY = 0` from STATUS
(20_memory.md R62, R63), is a DESIGN CHOICE, unsafe (log 29). -/
def State.forbidsRead (s : State) (a : Nat) : Bool := s.busy && s.inDst a

/-- One turn of the host or of the reset input.  Host and engine accesses take effect in the order of the turns: a
buffer byte is visible to the host once `phase` is IDLE, whether or not STATUS has been read since (20_memory.md R62
promises it only after that read; DESIGN CHOICE, unsafe, log 29). -/
def hostTurn (act : HostAction) (s : State) : Host.Outcome State Fault Refusal :=
  match act with
  | .readReg offset bytes =>
    if alignedWord offset bytes then .next { s with hostData := readReg (regAt offset) s }
    else .refused .registerAccessShape
  | .writeReg offset bytes v =>
    if alignedWord offset bytes then
      match regAt offset with
      | .ctrl => writeCtrl v s
      | r => .next (writeReg r v s)
    else .refused .registerAccessShape
  | .readMem a =>
    if 2 ^ s.cfg.addrW ≤ a then .fault .noSuchAddress
    else if s.forbidsRead a then .refused .bufferInUse
    else .next { s with hostData := (s.mem.read a).setWidth 32 }
  | .writeMem a v =>
    if 2 ^ s.cfg.addrW ≤ a then .fault .noSuchAddress
    else if s.forbidsWrite a then .refused .bufferInUse
    else .next { s with mem := s.mem.write a v }
  | .reset => .next (hardReset s)

/-- The turn at the head of the schedule; with none left the engine moves (log 5). -/
def takeTurn (s : State) : Host.Outcome State Fault Refusal :=
  match s.schedule with
  | [] => engineTurn s
  | .engine :: rest => engineTurn { s with schedule := rest }
  | .host act :: rest => hostTurn act { s with schedule := rest }

/-! ### A word placed where the engine fetches next (log 18) -/

/-- A DECODE in progress whose header has been read, about to read at stream offset 14, with room for 62 pixels
of four channels and no failing accesses. -/
def inChunkLoop (s : State) (chunkBytes pixels : Nat) : State :=
  { freshOperation .decode s with
    cfg := { s.cfg with addrW := 64, faults := [] }
    mode := .decode, phase := .decoding, stage := .body, schedule := []
    width := BitVec.ofNat 32 pixels, height := 1, channels := 4
    srcAddr := 0, srcLen := BitVec.ofNat 64 (14 + chunkBytes + 8), dstAddr := 4096, dstCap := 248
    endOff := 14 + chunkBytes }

/-- The state in which the very next step runs the instruction at that place. -/
def placeCode (c : Code) (s : State) : State :=
  match c with
  | .chunk bytes => { inChunkLoop s bytes.length 62 with mem := s.mem.writeList 14 bytes }
  | .marker bytes => { inChunkLoop s 0 0 with mem := s.mem.writeList 14 bytes }
  | .header bytes =>
    { s with
      cfg := { s.cfg with addrW := 64, faults := [] }
      mode := .decode, phase := .decoding, stage := .header, schedule := []
      srcAddr := 0, srcLen := 22, mem := s.mem.writeList 0 bytes }
  | .ctrl v => { s with phase := .idle, schedule := [.host (.writeReg 0 4 v)] }

end Sys2Proof.Machine
end

