-- ==== Sys2Proof/Machine/Step.lean ====
section
/-! DEFINITION. One step of the machine. -/

namespace Sys2Proof.Machine

open Sys2Proof

/-- One step: the next turn of the schedule, or the engine's (70_reset_and_hazards.md R242). -/
def step (s : State) : Host.Outcome State Fault Refusal := takeTurn s

/-- `s` with an instruction of the opcode table stored where the next step fetches it (log 18). -/
def State.withFetchWord (s : State) (nbits w : Nat) : State := placeCode (tableCode nbits w) s

end Sys2Proof.Machine
end

