-- ==== Sys2Proof/Machine/Platform.lean ====
section
/-! DEFINITION. Several engine instances over one memory (60_exceptions.md R217, 00_scope.md R9 `N_ENGINES`; log 20).
`Host.Core` is one instance; this file says what a platform of them does. -/

namespace Sys2Proof.Machine

open Sys2Proof

/-- The instances and the memory they all reach; an instance's own `mem` field is not used here. -/
structure Platform where
  engines : List State
  mem : Memory
  deriving DecidableEq, Repr

/-- At least one instance, legal parameters, and no two register blocks at one place (00_scope.md R9, R217). -/
def Platform.legal (P : Platform) : Bool :=
  decide (P.engines ≠ []) && P.engines.all (·.cfg.legal) && decide ((P.engines.map (·.cfg.regBase)).Nodup)

/-- Whether the next turn of an instance is a host access to a buffer that any instance has in use
(70_reset_and_hazards.md R238). -/
def Platform.forbids (P : Platform) (e : State) : Bool :=
  match e.schedule with
  | .host (.writeMem a _) :: _ => P.engines.any (·.forbidsWrite a)
  | .host (.readMem a) :: _ => P.engines.any (·.forbidsRead a)
  | _ => false

/-- One step of instance `k` over the shared memory; a number that is no instance does nothing.  The free values a
reset leaves are picked by the instance's own `REG_BASE` and counter, so those of two instances of a legal platform
are unrelated (60_exceptions.md R217, 70_reset_and_hazards.md R231; log 9 and 20). -/
def Platform.stepAt (k : Nat) (P : Platform) : Host.Outcome Platform Fault Refusal :=
  match P.engines[k]? with
  | none => .next P
  | some e =>
    if P.forbids e then .refused .bufferInUse
    else
      match step { e with mem := P.mem } with
      | .next t => .next { engines := P.engines.set k { t with mem := [] }, mem := t.mem }
      | .fault f => .fault f
      | .refused r => .refused r

/-- Steps of the instances in the order a list names them. -/
def Platform.run : List Nat → Platform → Host.Outcome Platform Fault Refusal
  | [], P => .next P
  | k :: ks, P =>
    match P.stepAt k with
    | .next Q => Platform.run ks Q
    | .fault f => .fault f
    | .refused r => .refused r

/-- The instance whose block `[REG_BASE, REG_BASE + 256)` holds a bus address, and the offset in it
(10_state.md R30, R42). -/
def Platform.route (P : Platform) (addr : Nat) : Option (Nat × BitVec 8) :=
  match P.engines.findIdx? fun e => inRange e.cfg.regBase 256 addr with
  | none => none
  | some k => some (k, BitVec.ofNat 8 (addr % 256))

/-- The host gives an instance an action as its next turn. -/
def Platform.post (k : Nat) (act : HostAction) (P : Platform) : Platform :=
  { P with engines := P.engines.modify k fun e => { e with schedule := .host act :: e.schedule } }

/-- A host register read at a bus address; an address in no block reaches no engine. -/
def Platform.hostRead (addr bytes : Nat) (P : Platform) : Platform :=
  match P.route addr with
  | none => P
  | some (k, offset) => P.post k (.readReg offset bytes)

/-- A host register write at a bus address. -/
def Platform.hostWrite (addr bytes : Nat) (v : Word) (P : Platform) : Platform :=
  match P.route addr with
  | none => P
  | some (k, offset) => P.post k (.writeReg offset bytes v)

end Sys2Proof.Machine
end

