-- ==== Sys2Proof/Safety.lean ====
section
/-! DEFINITION. The terms claims are stated in: access conditions, what a store leaves, and the invariants. -/

namespace Sys2Proof.Machine

open Sys2Proof

/-- No engine access of a kind fails at the `len` addresses from `a` on. -/
def noFault (s : State) (k : Access) (a len : Nat) : Prop := ∀ j < len, portFault s.cfg k (a + j) = false

/-- `bs` stands at `a` in memory. -/
def holdsAt (m : Memory) (a : Nat) (bs : List Byte) : Prop :=
  ∀ (j : Nat) (h : j < bs.length), m.read (a + j) = bs[j]

/-- `after` is `before` with `bs` stored at `a`: those bytes are there, and every other byte reads as before. -/
def Stored (after before : Memory) (a : Nat) (bs : List Byte) : Prop :=
  holdsAt after a bs ∧ ∀ x, x < a ∨ a + bs.length ≤ x → after.read x = before.read x

/-- Every byte reads as before. -/
def sameBytes (after before : Memory) : Prop := ∀ x, after.read x = before.read x

/-- The bytes of `k` copies of a pixel (43_chunk_decoder.md R156). -/
def pixelRun (c : Byte) (P : Pixel) : Nat → List Byte
  | 0 => []
  | k + 1 => pixelBytes c P ++ pixelRun c P k

/-- The pixel a chunk other than RUN makes the new `prev` (43_chunk_decoder.md R154 to R160). -/
def chunkPixel (i : Instr) (s : State) : Pixel :=
  match i with
  | .rgba r g b a => ⟨r, g, b, a⟩
  | .rgb r g b => ⟨r, g, b, s.prev.a⟩
  | .luma dg drg dbg => lumaPixel s.prev dg drg dbg
  | .diff dr dg db => diffPixel s.prev dr dg db
  | .index slot => lookup s.table slot
  | .run _ | .header _ _ _ _ | .endMarker | .encode _ _ | .decode _ _ => s.prev

/-- The RUN chunk that is pending, if any (42_chunk_encoder.md R123, R131). -/
def pendingRun (s : State) : List Byte := if s.run = 0 then [] else encodeBytes (.run s.run.toNat)

/-- Of `len` bytes to be emitted the first `j` can be written, each with room and no failing access, and the next one
cannot: no room for it (DST_OVERFLOW), or room and a failing write (BUS_ERROR) (44_framing_and_commands.md R184). -/
def emitFailsAt (s : State) (len j : Nat) (code : ErrCode) : Prop :=
  j < len ∧ (∀ k < j, s.q + k < s.dstCap.toNat) ∧ noFault s .write (s.dstAddr.toNat + s.q) j ∧
    ((code = .dstOverflow ∧ s.dstCap.toNat ≤ s.q + j) ∨
      (code = .busError ∧ s.q + j < s.dstCap.toNat ∧ portFault s.cfg .write (s.dstAddr.toNat + s.q + j) = true))

/-- A host read at a register offset returns `v` and does nothing else. -/
def regReads (s : State) (offset : BitVec 8) (v : Word) : Prop :=
  hostTurn (.readReg offset 4) s = .next { s with hostData := v }

/-- A host write of `v` at a register offset leaves `t`. -/
def regWrites (s : State) (offset : BitVec 8) (v : Word) (t : State) : Prop :=
  hostTurn (.writeReg offset 4 v) s = .next t

/-- The next turn is the engine's. -/
def engineMoves (s : State) : Prop := s.schedule.head? = none ∨ s.schedule.head? = some .engine

/-- The state with its next turn taken off the schedule. -/
def State.taken (s : State) : State := { s with schedule := s.schedule.tail }

/-- Two states agree on everything the host can see: registers, flags, memory and what it last read
(10_state.md R44, R48). -/
def hostAgree (s t : State) : Prop :=
  s.cfg = t.cfg ∧ s.mode = t.mode ∧ s.ie = t.ie ∧ s.done = t.done ∧ s.err = t.err ∧ s.alpha3 = t.alpha3 ∧
    s.errcode = t.errcode ∧ s.width = t.width ∧ s.height = t.height ∧ s.channels = t.channels ∧
    s.colorspace = t.colorspace ∧ s.srcAddr = t.srcAddr ∧ s.srcLen = t.srcLen ∧ s.dstAddr = t.dstAddr ∧
    s.dstCap = t.dstCap ∧ s.outLen = t.outLen ∧ s.busy = t.busy ∧ s.mem = t.mem ∧ s.hostData = t.hostData

/-- Two states agree on the state the host never reaches: `prev`, `px`, `run`, the cursors, the table, `phase`
(10_state.md R44, R48). -/
def internalAgree (s t : State) : Prop :=
  s.phase = t.phase ∧ s.stage = t.stage ∧ s.prev = t.prev ∧ s.px = t.px ∧ s.run = t.run ∧ s.i = t.i ∧ s.q = t.q ∧
    s.p = t.p ∧ s.n = t.n ∧ s.endOff = t.endOff ∧ s.table = t.table

/-- `t` is `s` but for memory bytes outside the source range and for which accesses fail elsewhere than at reads of the
source range and writes of the destination range (10_state.md R43). -/
def SameBuffers (s t : State) : Prop :=
  t = { s with mem := t.mem, cfg := { s.cfg with faults := t.cfg.faults } } ∧ s.mem.wf ∧ t.mem.wf ∧
    (∀ a, s.inSrc a = true → t.mem.read a = s.mem.read a ∧ portFault t.cfg .read a = portFault s.cfg .read a) ∧
    ∀ a, s.inDst a = true → portFault t.cfg .write a = portFault s.cfg .write a

/-- What led from `s` to `s'` and from `t` to `t'` is one and the same: the registers, the flags and the internal state
agree, and a byte reads alike in `s'` and `t'` or is in both what it was before. -/
def SameEffect (s t s' t' : State) : Prop :=
  s'.cfg = s.cfg ∧ t' = { s' with mem := t'.mem, cfg := t.cfg } ∧
    ∀ a, t'.mem.read a = s'.mem.read a ∨ (s'.mem.read a = s.mem.read a ∧ t'.mem.read a = t.mem.read a)

/-- Memory keeps its canonical form and lists no address the port does not have. -/
def MemoryInv (s : State) : Prop := s.mem.wf ∧ ∀ c ∈ s.mem, c.1 < 2 ^ s.cfg.addrW

/-- Every slot holds the initial pixel or a pixel that hashes to it (41_pixel_history_cache.md R116). -/
def SlotInv (s : State) : Prop :=
  ∀ k : BitVec 6, lookup s.table k = zeroPixel ∨ pixelHash (lookup s.table k) = k

/-- The address registers read 0 above `ADDR_W` (10_state.md R35). -/
def AddressInv (s : State) : Prop :=
  s.srcAddr.toNat < 2 ^ s.cfg.addrW ∧ s.dstAddr.toNat < 2 ^ s.cfg.addrW

/-- What STATUS and OUT_LEN can say together (60_exceptions.md R203, R204; 10_state.md R37). -/
def StatusInv (s : State) : Prop :=
  (s.busy = true → s.done = false ∧ s.err = false ∧ s.errcode = .none ∧ s.outLen = 0) ∧
    (s.err = true → s.done = false ∧ s.errcode ≠ .none ∧ s.outLen = 0) ∧
    (s.done = true → s.errcode = .none)

/-- The start checks have passed for the buffers. -/
def BuffersInv (s : State) : Prop := sizeFails s = false ∧ overlapFails s = false

/-- The registers of an ENCODE after its start checks (42_chunk_encoder.md; 10_state.md R24, R25). -/
def EncodeInv (s : State) : Prop :=
  s.phase = .encoding →
    s.mode = .encode ∧
      (s.stage ≠ .start →
        BuffersInv s ∧ goodChannels s.channels = true ∧ s.srcLen.toNat = s.pixels * s.chans ∧
          s.run.toNat ≤ 61 ∧ s.i ≤ s.pixels ∧ s.q ≤ s.dstCap.toNat ∧ (s.channels = 3 → s.prev.a = 255))

/-- The registers of a DECODE after its start checks, and in its chunk loop (43_chunk_decoder.md; 10_state.md R25). -/
def DecodeInv (s : State) : Prop :=
  s.phase = .decoding →
    s.mode = .decode ∧ (s.stage ≠ .start → BuffersInv s ∧ 22 ≤ s.srcLen.toNat) ∧
      (s.stage = .body →
        goodChannels s.channels = true ∧ s.pixels * s.chans ≤ s.dstCap.toNat ∧
          s.endOff = s.srcLen.toNat - 8 ∧ 14 ≤ s.p ∧ s.p ≤ s.endOff ∧ s.n ≤ s.pixels)

/-- The invariants of an operation together. -/
def OperationInv (s : State) : Prop := EncodeInv s ∧ DecodeInv s

/-- A run is safe when it never stops: every number of steps ends in a next state. -/
def SafeRun (s : State) : Prop := ∀ k, ∃ t, core.run k s = .next t

end Sys2Proof.Machine
end

