-- ==== Sys2Proof/Certificates/Slice0/Obligations.lean ====
section
/-! DEFINITION. The statements for the provers.  `engineTurn` is what a step does at a turn of the engine and
`hostTurn` what it does at a turn of the host: `Obligations.StepTakesTheTurn` says so. -/

open Sys2Proof Sys2Proof.Machine

/-! ### Encoding -/

/-- Decoding an encoded well-formed instruction gives it back, with every operand at every value: the chunks, the
header, the end marker, and the commands, whose reserved CTRL bits are kept as the operand `rsv` by the model's choice
(log 21; 10_state.md R31 says they are ignored). -/
def Obligations.DecodeEncodeRoundTrip : Prop := ∀ i : Instr, wellFormed i = true → decode (encode i) = .ok i

/-- Bits that decode are the encoding of the instruction they decode to, and it is well formed: each code has one
meaning and no bit of it is dropped.  For a CTRL value this rests on the operand `rsv`, which keeps the reserved bits
31:3 by the model's choice (log 21; 10_state.md R31 says they are ignored). -/
def Obligations.EncodeDecodeRoundTrip : Prop :=
  ∀ (c : Code) (i : Instr), decode c = .ok i → wellFormed i = true ∧ encode i = c

/-- The first byte alone gives a chunk's kind, length and number of pixels, for all 256 values
(30_encoding.md R72 and R80). -/
def Obligations.FirstByteGivesKindLengthAndPixels : Prop :=
  ∀ (b0 : Byte) (payload rest : List Byte), payload.length + 1 = chunkLength b0 →
    ∃ i, decodeChunk (b0 :: payload ++ rest) = .ok (i, rest) ∧
      (b0.toNat ≤ 0x3F → chunkLength b0 = 1 ∧ i.pixelsMade = 1 ∧ ∃ slot, i = .index slot) ∧
      (0x40 ≤ b0.toNat ∧ b0.toNat ≤ 0x7F →
        chunkLength b0 = 1 ∧ i.pixelsMade = 1 ∧ ∃ dr dg db, i = .diff dr dg db) ∧
      (0x80 ≤ b0.toNat ∧ b0.toNat ≤ 0xBF →
        chunkLength b0 = 2 ∧ i.pixelsMade = 1 ∧ ∃ dg drg dbg, i = .luma dg drg dbg) ∧
      (0xC0 ≤ b0.toNat ∧ b0.toNat ≤ 0xFD →
        chunkLength b0 = 1 ∧ i.pixelsMade = b0.toNat % 64 + 1 ∧ i = .run (b0.toNat % 64 + 1) ∧
          1 ≤ i.pixelsMade ∧ i.pixelsMade ≤ 62) ∧
      (b0.toNat = 0xFE → chunkLength b0 = 4 ∧ i.pixelsMade = 1 ∧ ∃ r g b, i = .rgb r g b) ∧
      (b0.toNat = 0xFF → chunkLength b0 = 5 ∧ i.pixelsMade = 1 ∧ ∃ r g b a, i = .rgba r g b a)

/-- One word of each row, written out from the formats of 30_encoding.md R71 to R79 and 10_state.md R31. -/
def Obligations.SpecWordsDecode : Prop :=
  decode (.chunk [0xFF, 0x14, 0x1E, 0x28, 0x80]) = .ok (.rgba 20 30 40 128) ∧
    decode (.chunk [0xFE, 0x0A, 0x14, 0x1E]) = .ok (.rgb 10 20 30) ∧
    decode (.chunk [0xFD]) = .ok (.run 62) ∧
    decode (.chunk [0xAC, 0x65]) = .ok (.luma 12 (-2) (-3)) ∧
    decode (.chunk [0x76]) = .ok (.diff 1 (-1) 0) ∧
    decode (.chunk [0x09]) = .ok (.index 9) ∧
    decode (.header [0x71, 0x6F, 0x69, 0x66, 0, 0, 0, 2, 0, 0, 0, 3, 4, 0]) = .ok (.header 2 3 4 0) ∧
    decode (.marker [0, 0, 0, 0, 0, 0, 0, 1]) = .ok .endMarker ∧
    decode (.ctrl 0x00000005) = .ok (.encode true 0) ∧
    decode (.ctrl 0x00000003) = .ok (.decode false 0)

/-! ### The history table and the classifier -/

/-- The 8-bit hash is the exact weighted sum modulo 64, and pixels that differ by a multiple of 64 in one channel
share a slot (41_pixel_history_cache.md R111). -/
def Obligations.HashIsWeightedSumModulo64 : Prop :=
  (∀ P : Pixel,
      (pixelHash P).toNat = (3 * P.r.toNat + 5 * P.g.toNat + 7 * P.b.toNat + 11 * P.a.toNat) % 64) ∧
    (∀ (P : Pixel) (k : Nat),
      pixelHash { P with r := P.r + BitVec.ofNat 8 (64 * k) } = pixelHash P ∧
        pixelHash { P with g := P.g + BitVec.ofNat 8 (64 * k) } = pixelHash P ∧
        pixelHash { P with b := P.b + BitVec.ofNat 8 (64 * k) } = pixelHash P ∧
        pixelHash { P with a := P.a + BitVec.ofNat 8 (64 * k) } = pixelHash P) ∧
    pixelHash ⟨10, 20, 30, 255⟩ = 9 ∧ pixelHash ⟨74, 20, 30, 255⟩ = 9

/-- UPDATE writes the one slot its pixel hashes to, whatever stood there, and does nothing when the pixel is
already there (41_pixel_history_cache.md R113). -/
def Obligations.UpdateWritesTheHashedSlot : Prop :=
  (∀ (t : Table) (P : Pixel) (k : BitVec 6),
      lookup (update t P) k = if k = pixelHash P then P else lookup t k) ∧
    (∀ (t : Table) (P : Pixel), lookup t (pixelHash P) = P → update t P = t) ∧
    ∀ t : Table, lookup (update t ⟨74, 20, 30, 255⟩) 9 = ⟨74, 20, 30, 255⟩

/-- Every pixel has a well-formed chunk, and which one is fixed by the order of the rules: INDEX on a table hit; else,
with alpha unchanged, DIFF exactly when the three deltas lie in [-2, 1], else LUMA exactly when the green delta lies in
[-32, 31] and the two relative deltas in [-8, 7], else RGB; with alpha changed, RGBA.  The operands are those deltas
(42_chunk_encoder.md R124 to R129, R132, R135). -/
def Obligations.ClassifierChoosesAWellFormedChunk : Prop :=
  ∀ px prev t : Pixel,
    let dr := (px.r - prev.r).toInt
    let dg := (px.g - prev.g).toInt
    let db := (px.b - prev.b).toInt
    let drg := ((px.r - prev.r) - (px.g - prev.g)).toInt
    let dbg := ((px.b - prev.b) - (px.g - prev.g)).toInt
    let small := (-2 ≤ dr ∧ dr ≤ 1) ∧ (-2 ≤ dg ∧ dg ≤ 1) ∧ (-2 ≤ db ∧ db ≤ 1)
    let near := (-32 ≤ dg ∧ dg ≤ 31) ∧ (-8 ≤ drg ∧ drg ≤ 7) ∧ (-8 ≤ dbg ∧ dbg ≤ 7)
    let i := classify px prev t
    (wellFormed i = true ∧ i.isPixelChunk = true) ∧
      (t = px → i = .index (pixelHash px)) ∧
      (t ≠ px → px.a = prev.a → small → i = .diff dr dg db) ∧
      (t ≠ px → px.a = prev.a → ¬ small → near → i = .luma dg drg dbg) ∧
      (t ≠ px → px.a = prev.a → ¬ small → ¬ near → i = .rgb px.r px.g px.b) ∧
      (t ≠ px → px.a ≠ prev.a → i = .rgba px.r px.g px.b px.a) ∧
      ((∃ slot, i = .index slot) ↔ t = px) ∧
      ((∃ x y z, i = .diff x y z) ↔ t ≠ px ∧ px.a = prev.a ∧ small) ∧
      ((∃ x y z, i = .luma x y z) ↔ t ≠ px ∧ px.a = prev.a ∧ ¬ small ∧ near) ∧
      ((∃ r g b, i = .rgb r g b) ↔ t ≠ px ∧ px.a = prev.a ∧ ¬ small ∧ ¬ near) ∧
      ((∃ r g b a, i = .rgba r g b a) ↔ t ≠ px ∧ px.a ≠ prev.a)

/-- Where the green delta fits, the wrapped relative deltas fit exactly when the exact differences do
(42_chunk_encoder.md R125). -/
def Obligations.RelativeDeltasWrapHarmlessly : Prop :=
  ∀ px prev : Pixel,
    within (-32) 31 (deltas px prev).dg = true →
      within (-8) 7 (deltas px prev).drg = within (-8) 7 ((deltas px prev).dr - (deltas px prev).dg) ∧
        within (-8) 7 (deltas px prev).dbg = within (-8) 7 ((deltas px prev).db - (deltas px prev).dg)

/-- Lockstep over one chunk: an encoder and a decoder with equal tables and equal `prev` that execute the chunk
the encoder chose for a differing pixel both end with that pixel in `prev` and equal tables again
(41_pixel_history_cache.md R115, 43_chunk_decoder.md R159). -/
def Obligations.LockstepOverOneChunk : Prop :=
  ∀ e d : State, e.phase = .encoding → d.phase = .decoding → e.table = d.table → e.prev = d.prev →
    e.px ≠ e.prev →
    let i := classify e.px e.prev (lookup e.table (pixelHash e.px))
    e.q + (encodeBytes i).length ≤ e.dstCap.toNat →
    noFault e .write (e.dstAddr.toNat + e.q) (encodeBytes i).length →
    d.n + 1 ≤ d.pixels →
    noFault d .write (d.dstAddr.toNat + d.n * d.chans) (pixelBytes d.channels e.px).length →
    ∃ e' d', exec i e = .next e' ∧ exec i d = .next d' ∧ e'.prev = e.px ∧ d'.prev = e.px ∧
      e'.table = d'.table ∧ e'.phase = .encoding ∧ d'.phase = .decoding ∧ d'.n = d.n + 1 ∧
      d'.p = d.p + (encodeBytes i).length ∧ e'.q = e.q + (encodeBytes i).length

/-! ### The decoder's chunks: what each leaves, and that it leaves all else -/

/-- RGBA and RGB in the decoder: the pixel is taken verbatim, RGB keeping alpha from `prev`
(43_chunk_decoder.md, section 2). -/
def Obligations.RgbaAndRgbDecode : Prop :=
  (∀ (r g b a : Byte) (s : State), s.phase = .decoding → s.mem.wf → s.n + 1 ≤ s.pixels →
      noFault s .write (s.dstAddr.toNat + s.n * s.chans) (pixelBytes s.channels ⟨r, g, b, a⟩).length →
      ∃ m, exec (.rgba r g b a) s =
          .next { s with
            prev := ⟨r, g, b, a⟩, p := s.p + 5, n := s.n + 1, table := update s.table ⟨r, g, b, a⟩, mem := m
            alpha3 := s.alpha3 || (decide (s.channels = 3) && decide (a ≠ 255)) } ∧
        Stored m s.mem (s.dstAddr.toNat + s.n * s.chans) (pixelBytes s.channels ⟨r, g, b, a⟩)) ∧
    (∀ P : Pixel, pixelBytes 4 P = [P.r, P.g, P.b, P.a] ∧ pixelBytes 3 P = [P.r, P.g, P.b]) ∧
    ∀ (r g b : Byte) (s : State), s.phase = .decoding → s.mem.wf → s.n + 1 ≤ s.pixels →
      noFault s .write (s.dstAddr.toNat + s.n * s.chans) (pixelBytes s.channels ⟨r, g, b, s.prev.a⟩).length →
      ∃ m, exec (.rgb r g b) s =
          .next { s with
            prev := ⟨r, g, b, s.prev.a⟩, p := s.p + 4, n := s.n + 1
            table := update s.table ⟨r, g, b, s.prev.a⟩, mem := m
            alpha3 := s.alpha3 || (decide (s.channels = 3) && decide (s.prev.a ≠ 255)) } ∧
        Stored m s.mem (s.dstAddr.toNat + s.n * s.chans) (pixelBytes s.channels ⟨r, g, b, s.prev.a⟩)

/-- LUMA and DIFF in the decoder: each channel is the exact sum modulo 256, alpha unchanged, for every operand value
(43_chunk_decoder.md, section 2). -/
def Obligations.LumaAndDiffDecode : Prop :=
  (∀ (dg drg dbg : Int) (s : State), s.phase = .decoding → s.mem.wf → s.n + 1 ≤ s.pixels →
      let P : Pixel :=
        ⟨BitVec.ofInt 8 (s.prev.r.toNat + drg + dg), BitVec.ofInt 8 (s.prev.g.toNat + dg),
          BitVec.ofInt 8 (s.prev.b.toNat + dbg + dg), s.prev.a⟩
      noFault s .write (s.dstAddr.toNat + s.n * s.chans) (pixelBytes s.channels P).length →
      ∃ m, exec (.luma dg drg dbg) s =
          .next { s with
            prev := P, p := s.p + 2, n := s.n + 1, table := update s.table P, mem := m
            alpha3 := s.alpha3 || (decide (s.channels = 3) && decide (s.prev.a ≠ 255)) } ∧
        Stored m s.mem (s.dstAddr.toNat + s.n * s.chans) (pixelBytes s.channels P)) ∧
    ∀ (dr dg db : Int) (s : State), s.phase = .decoding → s.mem.wf → s.n + 1 ≤ s.pixels →
      let P : Pixel :=
        ⟨BitVec.ofInt 8 (s.prev.r.toNat + dr), BitVec.ofInt 8 (s.prev.g.toNat + dg),
          BitVec.ofInt 8 (s.prev.b.toNat + db), s.prev.a⟩
      noFault s .write (s.dstAddr.toNat + s.n * s.chans) (pixelBytes s.channels P).length →
      ∃ m, exec (.diff dr dg db) s =
          .next { s with
            prev := P, p := s.p + 1, n := s.n + 1, table := update s.table P, mem := m
            alpha3 := s.alpha3 || (decide (s.channels = 3) && decide (s.prev.a ≠ 255)) } ∧
        Stored m s.mem (s.dstAddr.toNat + s.n * s.chans) (pixelBytes s.channels P)

/-- INDEX in the decoder: `prev` becomes the slot's pixel as it was before the UPDATE, which writes the slot that
pixel hashes to (70_reset_and_hazards.md R236, R237). -/
def Obligations.IndexDecodes : Prop :=
  ∀ (slot : BitVec 6) (s : State), s.phase = .decoding → s.mem.wf → s.n + 1 ≤ s.pixels →
    noFault s .write (s.dstAddr.toNat + s.n * s.chans) (pixelBytes s.channels (lookup s.table slot)).length →
    ∃ m, exec (.index slot) s =
        .next { s with
          prev := lookup s.table slot, p := s.p + 1, n := s.n + 1
          table := update s.table (lookup s.table slot), mem := m
          alpha3 := s.alpha3 || (decide (s.channels = 3) && decide ((lookup s.table slot).a ≠ 255)) } ∧
      Stored m s.mem (s.dstAddr.toNat + s.n * s.chans) (pixelBytes s.channels (lookup s.table slot))

/-- RUN in the decoder: `count` copies of `prev` are written; `prev`, the table and the flags stay.  The channel
count is legal in every chunk loop (`Obligations.OperationInvariantKept`). -/
def Obligations.RunDecodes : Prop :=
  ∀ (count : Nat) (s : State), s.phase = .decoding → s.mem.wf → goodChannels s.channels = true →
    s.n + count ≤ s.pixels →
    noFault s .write (s.dstAddr.toNat + s.n * s.chans) (count * s.chans) →
    ∃ m, exec (.run count) s = .next { s with p := s.p + 1, n := s.n + count, mem := m } ∧
      Stored m s.mem (s.dstAddr.toNat + s.n * s.chans) (pixelRun s.channels s.prev count)

/-- A chunk that would produce more pixels than the image has raises PIXEL_COUNT after its new `prev` is computed
and before any pixel is written and before UPDATE (43_chunk_decoder.md R152). -/
def Obligations.ExcessPixelsRaisePixelCount : Prop :=
  (∀ (i : Instr) (s : State), i.isPixelChunk = true → s.phase = .decoding → s.pixels < s.n + 1 →
      exec i s =
        .next { s with
          prev := chunkPixel i s, p := s.p + (encodeBytes i).length
          errcode := .pixelCount, outLen := 0, err := true, phase := .idle }) ∧
    ∀ (count : Nat) (s : State), s.phase = .decoding → s.pixels < s.n + count →
      exec (.run count) s =
        .next { s with errcode := .pixelCount, outLen := 0, err := true, phase := .idle }

/-- In a 3-channel stream a new `prev` whose alpha is not 255 sets ALPHA3; decoding goes on, the full alpha stays
in `prev` and in the table, only R, G, B are written; alpha 255 leaves the flag (43_chunk_decoder.md, section 3). -/
def Obligations.ThreeChannelAlphaSetsTheFlag : Prop :=
  ∀ (i : Instr) (s : State), i.isPixelChunk = true → s.phase = .decoding → s.mem.wf → s.channels = 3 →
    s.n + 1 ≤ s.pixels → noFault s .write (s.dstAddr.toNat + s.n * 3) 3 →
    ∃ t, exec i s = .next t ∧ t.phase = .decoding ∧ t.err = s.err ∧ t.done = s.done ∧ t.errcode = s.errcode ∧
      t.prev = chunkPixel i s ∧ lookup t.table (pixelHash t.prev) = t.prev ∧
      (t.prev.a ≠ 255 → t.alpha3 = true) ∧ (t.prev.a = 255 → t.alpha3 = s.alpha3) ∧
      Stored t.mem s.mem (s.dstAddr.toNat + s.n * 3) [t.prev.r, t.prev.g, t.prev.b]

/-- A pixel byte that cannot be written ends the operation with BUS_ERROR: the bytes before it are written, nothing else
of memory changes, the table keeps its slots and `n` counts the whole pixels written
(43_chunk_decoder.md, section 2; 60_exceptions.md, section 3). -/
def Obligations.FailingPixelWriteKeepsAPrefix : Prop :=
  (∀ (i : Instr) (s : State) (j : Nat), i.isPixelChunk = true → s.phase = .decoding → s.mem.wf →
      goodChannels s.channels = true → s.n + 1 ≤ s.pixels → j < s.chans →
      noFault s .write (s.dstAddr.toNat + s.n * s.chans) j →
      portFault s.cfg .write (s.dstAddr.toNat + s.n * s.chans + j) = true →
      ∃ m, exec i s =
          .next { s with
            prev := chunkPixel i s, p := s.p + (encodeBytes i).length, mem := m
            alpha3 := s.alpha3 || (decide (s.channels = 3) && decide ((chunkPixel i s).a ≠ 255))
            errcode := .busError, outLen := 0, err := true, phase := .idle } ∧
        Stored m s.mem (s.dstAddr.toNat + s.n * s.chans) ((pixelBytes s.channels (chunkPixel i s)).take j)) ∧
    ∀ (count : Nat) (s : State) (j : Nat), s.phase = .decoding → s.mem.wf → goodChannels s.channels = true →
      s.n + count ≤ s.pixels → j < count * s.chans →
      noFault s .write (s.dstAddr.toNat + s.n * s.chans) j →
      portFault s.cfg .write (s.dstAddr.toNat + s.n * s.chans + j) = true →
      ∃ m, exec (.run count) s =
          .next { s with
            n := s.n + j / s.chans, mem := m, errcode := .busError, outLen := 0, err := true, phase := .idle } ∧
        Stored m s.mem (s.dstAddr.toNat + s.n * s.chans) ((pixelRun s.channels s.prev count).take j)

/-! ### The encoder's chunks -/

/-- The encoder's side of INDEX, DIFF, LUMA, RGB and RGBA: the chunk's bytes go to the end of the stream so far, then
UPDATE and `prev` take `px`; of RUN: one byte, the counter returns to 0, no UPDATE.  All else stays
(42_chunk_encoder.md, sections 2 to 4). -/
def Obligations.ChunksEncode : Prop :=
  (∀ (i : Instr) (s : State), i.isPixelChunk = true → s.phase = .encoding → s.mem.wf →
      s.q + (encodeBytes i).length ≤ s.dstCap.toNat →
      noFault s .write (s.dstAddr.toNat + s.q) (encodeBytes i).length →
      ∃ m, exec i s =
          .next { s with
            q := s.q + (encodeBytes i).length, prev := s.px, table := update s.table s.px, mem := m } ∧
        Stored m s.mem (s.dstAddr.toNat + s.q) (encodeBytes i)) ∧
    ∀ (count : Nat) (s : State), s.phase = .encoding → s.mem.wf → s.q < s.dstCap.toNat →
      portFault s.cfg .write (s.dstAddr.toNat + s.q) = false → 1 ≤ count → count ≤ 62 →
      ∃ m, exec (.run count) s = .next { s with q := s.q + 1, run := 0, mem := m } ∧
        Stored m s.mem (s.dstAddr.toNat + s.q) [BitVec.ofNat 8 (0xC0 + (count - 1))]

/-- `emit`: no room raises DST_OVERFLOW, a failing write BUS_ERROR, each with no effect on memory; else the byte
is stored and `q` advances (44_framing_and_commands.md R184). -/
def Obligations.EmitChecksBeforeEachByte : Prop :=
  ∀ (b : Byte) (s : State),
    (s.dstCap.toNat ≤ s.q → emit b s = .stop (raise .dstOverflow s)) ∧
      (s.q < s.dstCap.toNat → portFault s.cfg .write (s.dstAddr.toNat + s.q) = true →
        emit b s = .stop (raise .busError s)) ∧
      (s.q < s.dstCap.toNat → portFault s.cfg .write (s.dstAddr.toNat + s.q) = false → s.mem.wf →
        ∃ m, emit b s = .go { s with mem := m, q := s.q + 1 } ∧
          Stored m s.mem (s.dstAddr.toNat + s.q) [b])

/-- A byte of the encoder's output that does not fit (DST_OVERFLOW) or cannot be written (BUS_ERROR) ends the operation:
the bytes before it are written and counted in `q`, nothing else of memory changes, and neither UPDATE nor the `prev`
write, nor the reset of `run`, nor completion happens.  So for every chunk, RUN, the HEADER and END alone; for a
differing pixel, whose output is the pending RUN chunk and then its own chunk; and for the end of ENCODE, whose output
is the pending RUN chunk and then the end marker (44_framing_and_commands.md, section 3; 60_exceptions.md, section 3). -/
def Obligations.EncoderOverflowKeepsAPrefix : Prop :=
  (∀ (i : Instr) (s : State) (j : Nat) (code : ErrCode), s.phase = .encoding → s.mem.wf →
      emitFailsAt s (encodeBytes i).length j code →
      ∃ m, exec i s =
          .next { s with
            q := s.q + j, mem := m, errcode := code, outLen := 0, err := true, phase := .idle } ∧
        Stored m s.mem (s.dstAddr.toNat + s.q) ((encodeBytes i).take j)) ∧
    (∀ (s : State) (P : Pixel) (j : Nat) (code : ErrCode), s.phase = .encoding → s.stage = .body →
      s.i < s.pixels → readPixel s = some P → P ≠ s.prev → s.mem.wf →
      let out := pendingRun s ++ encodeBytes (classify P s.prev (lookup s.table (pixelHash P)))
      emitFailsAt s out.length j code →
      ∃ m, engineTurn s =
          .next { s with
            px := P, i := s.i + 1, run := if j < (pendingRun s).length then s.run else 0, q := s.q + j, mem := m
            errcode := code, outLen := 0, err := true, phase := .idle } ∧
        Stored m s.mem (s.dstAddr.toNat + s.q) (out.take j)) ∧
    ∀ (s : State) (j : Nat) (code : ErrCode), s.phase = .encoding → s.stage = .body → s.pixels ≤ s.i →
      s.mem.wf →
      let out := pendingRun s ++ [0, 0, 0, 0, 0, 0, 0, 1]
      emitFailsAt s out.length j code →
      ∃ m, engineTurn s =
          .next { s with
            run := if j < (pendingRun s).length then s.run else 0, q := s.q + j, mem := m
            errcode := code, outLen := 0, err := true, phase := .idle } ∧
        Stored m s.mem (s.dstAddr.toNat + s.q) (out.take j)

/-- PIXEL READ: three or four bytes at `SRC_ADDR + i·C`, alpha 255 for three channels; a failing read ends the operation
with BUS_ERROR (42_chunk_encoder.md, section 1; 20_memory.md R53; that `px` and `i` stay is the model's choice,
log 16). -/
def Obligations.PixelReadTakesChannelsInOrder : Prop :=
  ∀ (s : State) (r g b a : Byte),
    (s.channels = 4 → noFault s .read (s.srcAddr.toNat + s.i * 4) 4 →
      holdsAt s.mem (s.srcAddr.toNat + s.i * 4) [r, g, b, a] → readPixel s = some ⟨r, g, b, a⟩) ∧
      (s.channels = 3 → noFault s .read (s.srcAddr.toNat + s.i * 3) 3 →
        holdsAt s.mem (s.srcAddr.toNat + s.i * 3) [r, g, b] → readPixel s = some ⟨r, g, b, 255⟩) ∧
      ∀ j < s.chans, goodChannels s.channels = true →
        portFault s.cfg .read (s.srcAddr.toNat + s.i * s.chans + j) = true →
        readPixel s = none ∧
          (s.phase = .encoding → s.stage = .body → s.i < s.pixels →
            engineTurn s = .next (raise .busError s))

/-- A pixel equal to `prev` is counted, before any other test; only the 62nd writes a byte, 0xFD, and starts the
counter again; the table and `prev` stay (42_chunk_encoder.md R121 and R122). -/
def Obligations.RepeatedPixelsAreCounted : Prop :=
  ∀ s : State, s.phase = .encoding → s.stage = .body → s.i < s.pixels → readPixel s = some s.prev →
    (s.run.toNat < 61 → engineTurn s = .next { s with px := s.prev, i := s.i + 1, run := s.run + 1 }) ∧
      (s.run.toNat = 61 → s.q < s.dstCap.toNat → s.mem.wf →
        portFault s.cfg .write (s.dstAddr.toNat + s.q) = false →
        ∃ m, engineTurn s =
            .next { s with px := s.prev, i := s.i + 1, run := 0, q := s.q + 1, mem := m } ∧
          Stored m s.mem (s.dstAddr.toNat + s.q) [0xFD]) ∧
      (s.run.toNat = 61 → s.dstCap.toNat ≤ s.q →
        engineTurn s = .next (raise .dstOverflow { s with px := s.prev, i := s.i + 1, run := 62 })) ∧
      (s.run.toNat = 61 → s.q < s.dstCap.toNat →
        portFault s.cfg .write (s.dstAddr.toNat + s.q) = true →
        engineTurn s = .next (raise .busError { s with px := s.prev, i := s.i + 1, run := 62 }))

/-- A pixel that differs from `prev` writes the pending RUN chunk, if any, then its own chunk, then UPDATE and
`prev` (42_chunk_encoder.md R123 and R132). -/
def Obligations.DifferingPixelFlushesThenEncodes : Prop :=
  ∀ (s : State) (P : Pixel), s.phase = .encoding → s.stage = .body → s.i < s.pixels →
    readPixel s = some P → P ≠ s.prev → s.mem.wf →
    let out := pendingRun s ++ encodeBytes (classify P s.prev (lookup s.table (pixelHash P)))
    s.q + out.length ≤ s.dstCap.toNat → noFault s .write (s.dstAddr.toNat + s.q) out.length →
    ∃ m, engineTurn s =
        .next { s with
          px := P, i := s.i + 1, run := 0, q := s.q + out.length, prev := P, table := update s.table P
          mem := m } ∧
      Stored m s.mem (s.dstAddr.toNat + s.q) out

/-- After the last pixel the pending RUN chunk and the end marker are written and the operation completes with
OUT_LEN the number of stream bytes (42_chunk_encoder.md R131; 44_framing_and_commands.md R186, R187, R189).  That `px`,
`prev`, the table and the cursors keep their values at DONE, where the spec leaves them any value (10_state.md R23, R28,
U4), is the model's choice (log 28). -/
def Obligations.EncodeEndsWithMarkerAndDone : Prop :=
  ∀ s : State, s.phase = .encoding → s.stage = .body → s.pixels ≤ s.i → s.mem.wf →
    let out := pendingRun s ++ [0, 0, 0, 0, 0, 0, 0, 1]
    s.q + out.length ≤ s.dstCap.toNat → noFault s .write (s.dstAddr.toNat + s.q) out.length →
    ∃ t m, engineTurn s = .next t ∧
      t = { s with
        run := 0, q := s.q + out.length, mem := m, outLen := BitVec.ofNat 64 (s.q + out.length), done := true
        phase := .idle } ∧
      t.outLen.toNat = s.q + out.length ∧ Stored m s.mem (s.dstAddr.toNat + s.q) out

/-! ### Header and end marker -/

/-- HEADER in the decoder, once read: the four fields are latched; when the image fits, the chunk loop starts from its
initial state (set here again after START, log 7), and when it does not, DST_OVERFLOW is raised before any write
(40_header_codec.md; 44_framing_and_commands.md, section 2). -/
def Obligations.HeaderDecodesWhenTheImageFits : Prop :=
  (∀ (w h : Word) (c cs : Byte) (s : State), s.phase = .decoding → c = 3 ∨ c = 4 →
      w.toNat * h.toNat * c.toNat ≤ s.dstCap.toNat →
      exec (.header w h c cs) s =
        .next { s with
          width := w, height := h, channels := c, colorspace := cs
          prev := ⟨0, 0, 0, 255⟩, table := Vector.replicate 64 ⟨0, 0, 0, 0⟩
          p := 14, n := 0, endOff := s.srcLen.toNat - 8, stage := .body }) ∧
    ∀ (w h : Word) (c cs : Byte) (s : State), s.phase = .decoding → c = 3 ∨ c = 4 →
      s.dstCap.toNat < w.toNat * h.toNat * c.toNat →
      exec (.header w h c cs) s =
        .next { s with
          width := w, height := h, channels := c, colorspace := cs
          errcode := .dstOverflow, outLen := 0, err := true, phase := .idle }

/-- A channel count other than 3 or 4 raises BAD_CHANNELS, with the header's fields already in the registers
(40_header_codec.md R105). -/
def Obligations.BadChannelsAfterTheLatch : Prop :=
  ∀ (w h : Word) (c cs : Byte) (s : State), s.phase = .decoding → c ≠ 3 → c ≠ 4 →
    exec (.header w h c cs) s =
      .next { s with
        width := w, height := h, channels := c, colorspace := cs
        errcode := .badChannels, outLen := 0, err := true, phase := .idle }

/-- The magic is compared exactly after its four reads: a different one raises BAD_MAGIC, a failing read
BUS_ERROR (40_header_codec.md R102).  With the magic there, a failing read of one of the bytes 4 to 13 raises BUS_ERROR
too, before the latch: WIDTH, HEIGHT and FORMAT, with all but ERRCODE, OUT_LEN, ERR and the phase, keep their values
(exceptions of R103; last sentences of R104). -/
def Obligations.MagicIsChecked : Prop :=
  ∀ s : State, s.phase = .decoding → s.stage = .header →
    (noFault s .read s.srcAddr.toNat 4 → ¬ holdsAt s.mem s.srcAddr.toNat [0x71, 0x6F, 0x69, 0x66] →
        engineTurn s = .next (raise .badMagic s)) ∧
      (∀ j < 4, portFault s.cfg .read (s.srcAddr.toNat + j) = true → engineTurn s = .next (raise .busError s)) ∧
      (noFault s .read s.srcAddr.toNat 4 → holdsAt s.mem s.srcAddr.toNat [0x71, 0x6F, 0x69, 0x66] →
        engineTurn s ≠ .next (raise .badMagic s)) ∧
      ∀ j, 4 ≤ j → j < 14 → noFault s .read s.srcAddr.toNat 4 →
        holdsAt s.mem s.srcAddr.toNat [0x71, 0x6F, 0x69, 0x66] →
        portFault s.cfg .read (s.srcAddr.toNat + j) = true →
        engineTurn s = .next { s with errcode := .busError, outLen := 0, err := true, phase := .idle }

/-- HEADER in the encoder: the fourteen bytes, from the registers when ENCODE writes them
(40_header_codec.md, HEADER write). -/
def Obligations.HeaderEncodes : Prop :=
  (∀ (w h : Word) (c cs : Byte) (s : State), s.phase = .encoding → s.mem.wf →
      s.q + 14 ≤ s.dstCap.toNat → noFault s .write (s.dstAddr.toNat + s.q) 14 →
      ∃ m, exec (.header w h c cs) s = .next { s with q := s.q + 14, stage := .body, mem := m } ∧
        Stored m s.mem (s.dstAddr.toNat + s.q)
          [0x71, 0x6F, 0x69, 0x66,
            w.extractLsb' 24 8, w.extractLsb' 16 8, w.extractLsb' 8 8, w.extractLsb' 0 8,
            h.extractLsb' 24 8, h.extractLsb' 16 8, h.extractLsb' 8 8, h.extractLsb' 0 8, c, cs]) ∧
    ∀ s : State, s.phase = .encoding → s.stage = .header →
      engineTurn s = exec (.header s.width s.height s.channels s.colorspace) s

/-- END completes the operation: in the decoder with OUT_LEN = W·H·C; in the encoder after seven 0x00 and one 0x01, with
OUT_LEN the bytes written (44_framing_and_commands.md, section 4).  That `px`, `prev`, `run`, the cursors and the table
keep their values at DONE, where the spec leaves them any value (10_state.md R23, R28, U4), is the model's choice
(log 28). -/
def Obligations.EndCompletesTheOperation : Prop :=
  (∀ s : State, s.phase = .decoding → s.pixels * s.chans ≤ s.dstCap.toNat →
      ∃ t, exec .endMarker s = .next t ∧
        t = { s with outLen := BitVec.ofNat 64 (s.pixels * s.chans), done := true, phase := .idle } ∧
        t.outLen.toNat = s.width.toNat * s.height.toNat * s.channels.toNat ∧ t.busy = false) ∧
    ∀ s : State, s.phase = .encoding → s.mem.wf → s.q + 8 ≤ s.dstCap.toNat →
      noFault s .write (s.dstAddr.toNat + s.q) 8 →
      ∃ m, exec .endMarker s =
          .next { s with
            q := s.q + 8, mem := m, outLen := BitVec.ofNat 64 (s.q + 8), done := true, phase := .idle } ∧
        Stored m s.mem (s.dstAddr.toNat + s.q) [0, 0, 0, 0, 0, 0, 0, 1]

/-- The end of the chunk stream: too few pixels raise PIXEL_COUNT before the marker is read; then the marker is
compared byte by byte, the first that differs raises BAD_END_MARKER and the first that cannot be read BUS_ERROR,
whatever comes after it (43_chunk_decoder.md, section 4; 44_framing_and_commands.md R190). -/
def Obligations.EndMarkerIsChecked : Prop :=
  ∀ s : State, s.phase = .decoding → s.stage = .body → s.endOff ≤ s.p →
    (s.n ≠ s.pixels → engineTurn s = .next (raise .pixelCount s)) ∧
      (s.n = s.pixels → ∀ j < 8,
        noFault s .read (s.srcAddr.toNat + s.endOff) j →
        holdsAt s.mem (s.srcAddr.toNat + s.endOff) (([0, 0, 0, 0, 0, 0, 0, 1] : List Byte).take j) →
        (portFault s.cfg .read (s.srcAddr.toNat + s.endOff + j) = true →
            engineTurn s = .next (raise .busError s)) ∧
          (portFault s.cfg .read (s.srcAddr.toNat + s.endOff + j) = false →
            s.mem.read (s.srcAddr.toNat + s.endOff + j) ≠ (if j = 7 then 1 else 0) →
            engineTurn s = .next (raise .badEndMarker s)))

/-- A chunk of more than one byte that would reach past `end` raises TRUNCATED_CHUNK before any of its payload is
read; a chunk that is fetched lies before `end` (43_chunk_decoder.md R151).  A failing read of the first byte, or of a
payload byte of a chunk that does not reach past `end`, raises BUS_ERROR at that access, before the chunk has any effect
(20_memory.md R58; last line of 60_exceptions.md R202). -/
def Obligations.TruncatedChunkRaised : Prop :=
  (∀ (s : State) (b0 : Byte), s.phase = .decoding → s.stage = .body → s.p < s.endOff →
      memRead s (s.srcAddr.toNat + s.p) = some b0 → 1 < chunkLength b0 → s.endOff < s.p + chunkLength b0 →
      engineTurn s = .next (raise .truncatedChunk s)) ∧
    (∀ (s : State) (i : Instr), s.p < s.endOff → fetchChunk s = .ok i →
      s.p + (encodeBytes i).length ≤ s.endOff) ∧
    (∀ s : State, s.phase = .decoding → s.stage = .body → s.p < s.endOff →
      portFault s.cfg .read (s.srcAddr.toNat + s.p) = true → engineTurn s = .next (raise .busError s)) ∧
    ∀ (s : State) (b0 : Byte) (j : Nat), s.phase = .decoding → s.stage = .body → s.p < s.endOff →
      memRead s (s.srcAddr.toNat + s.p) = some b0 → s.p + chunkLength b0 ≤ s.endOff →
      1 ≤ j → j < chunkLength b0 → portFault s.cfg .read (s.srcAddr.toNat + s.p + j) = true →
      engineTurn s = .next (raise .busError s)

/-! ### Commands -/

/-- ENCODE and DECODE while idle: IE and MODE are stored, the flags, ERRCODE and OUT_LEN cleared, the phase set and the
operation's state made fresh (10_state.md R47; that this happens at START and again after the checks is the model's
reading, log 7); all else stays (44_framing_and_commands.md, section 1), `px` and the other direction's cursors by the
model's choice (log 28). -/
def Obligations.CommandsStartWhenIdle : Prop :=
  (∀ (ie : Bool) (rsv : BitVec 29) (s : State), s.busy = false →
      exec (.encode ie rsv) s =
        .next { s with
          ie := ie, mode := .encode, done := false, err := false, alpha3 := false, errcode := .none, outLen := 0
          phase := .encoding, stage := .start, prev := ⟨0, 0, 0, 255⟩
          table := Vector.replicate 64 ⟨0, 0, 0, 0⟩, run := 0, i := 0, q := 0 }) ∧
    ∀ (ie : Bool) (rsv : BitVec 29) (s : State), s.busy = false →
      exec (.decode ie rsv) s =
        .next { s with
          ie := ie, mode := .decode, done := false, err := false, alpha3 := false, errcode := .none, outLen := 0
          phase := .decoding, stage := .start, prev := ⟨0, 0, 0, 255⟩
          table := Vector.replicate 64 ⟨0, 0, 0, 0⟩, p := 14, n := 0 }

/-- A START while BUSY changes IE alone; IE enabled during an operation makes irq rise at its completion or error,
and enabled after it raises irq at once (70_reset_and_hazards.md R240). -/
def Obligations.StartWhileBusyOnlyStoresEnable : Prop :=
  (∀ (ie : Bool) (rsv : BitVec 29) (s : State), s.busy = true →
      exec (.encode ie rsv) s = .next { s with ie := ie } ∧
        exec (.decode ie rsv) s = .next { s with ie := ie }) ∧
    (∀ (len : Nat) (code : ErrCode) (s : State), s.ie = true →
      (complete len s).irq = true ∧ (raise code s).irq = true) ∧
    ∀ s : State, s.busy = false → s.done = true ∨ s.err = true →
      ∃ t, hostTurn (.writeReg 0 4 4) s = .next t ∧ t.irq = true ∧ t.phase = .idle

/-- The ENCODE start checks in their order, the first failing one reported and none reading memory
(60_exceptions.md R201, items 1 to 4, and R208).  When all pass, `prev`, the table, `run`, `i` and `q` take their initial
values (44_framing_and_commands.md R181), here again after START (log 7), and the header comes next, one transition
later (log 6). -/
def Obligations.EncodeChecksInOrder : Prop :=
  ∀ s : State, s.phase = .encoding → s.stage = .start →
    let size := 2 ^ s.cfg.addrW < s.srcAddr.toNat + s.srcLen.toNat ∨
      2 ^ s.cfg.addrW < s.dstAddr.toNat + s.dstCap.toNat
    let shared := ∃ a, s.inSrc a = true ∧ s.inDst a = true
    let bad := s.channels ≠ 3 ∧ s.channels ≠ 4
    let len := s.srcLen.toNat ≠ s.width.toNat * s.height.toNat * s.channels.toNat
    (size → engineTurn s = .next (raise .size s)) ∧
      (¬ size → shared → engineTurn s = .next (raise .overlap s)) ∧
      (¬ size → ¬ shared → bad → engineTurn s = .next (raise .badChannels s)) ∧
      (¬ size → ¬ shared → ¬ bad → len → engineTurn s = .next (raise .srcLen s)) ∧
      (¬ size → ¬ shared → ¬ bad → ¬ len →
        engineTurn s =
          .next { s with
            stage := .header, prev := ⟨0, 0, 0, 255⟩, table := Vector.replicate 64 ⟨0, 0, 0, 0⟩
            run := 0, i := 0, q := 0 })

/-- The DECODE checks before the header, in their order (60_exceptions.md R202, items 1 to 3;
40_header_codec.md R101). -/
def Obligations.DecodeChecksInOrder : Prop :=
  ∀ s : State, s.phase = .decoding → s.stage = .start →
    let size := 2 ^ s.cfg.addrW < s.srcAddr.toNat + s.srcLen.toNat ∨
      2 ^ s.cfg.addrW < s.dstAddr.toNat + s.dstCap.toNat
    let shared := ∃ a, s.inSrc a = true ∧ s.inDst a = true
    (size → engineTurn s = .next (raise .size s)) ∧
      (¬ size → shared → engineTurn s = .next (raise .overlap s)) ∧
      (¬ size → ¬ shared → s.srcLen.toNat < 22 → engineTurn s = .next (raise .shortInput s)) ∧
      (¬ size → ¬ shared → 22 ≤ s.srcLen.toNat → engineTurn s = .next { s with stage := .header })

/-- OVERLAP is reported exactly when both ranges are non-empty and share a byte (60_exceptions.md R209). -/
def Obligations.OverlapMeansASharedByte : Prop :=
  ∀ s : State,
    (overlapFails s = true ↔
        0 < s.srcLen.toNat ∧ 0 < s.dstCap.toNat ∧ ∃ a, s.inSrc a = true ∧ s.inDst a = true) ∧
      (overlapFails s = true ↔
        0 < s.srcLen.toNat ∧ 0 < s.dstCap.toNat ∧
          s.srcAddr.toNat < s.dstAddr.toNat + s.dstCap.toNat ∧
          s.dstAddr.toNat < s.srcAddr.toNat + s.srcLen.toNat) ∧
      (s.stage = .start → s.phase = .encoding ∨ s.phase = .decoding → sizeFails s = false →
        (engineTurn s = .next (raise .overlap s) ↔ overlapFails s = true))

/-- `raise Err(code)` changes STATUS, OUT_LEN and phase alone; the host then reads BUSY 0, ERR 1 and the code
(60_exceptions.md R204 and R206). -/
def Obligations.ErrorEntryChangesOnlyStatus : Prop :=
  ∀ (code : ErrCode) (s : State),
    raise code s = { s with errcode := code, outLen := 0, err := true, phase := .idle } ∧
      (statusWord (raise code s)).extractLsb' 0 1 = 0#1 ∧
      (statusWord (raise code s)).extractLsb' 2 1 = 1#1 ∧
      (statusWord (raise code s)).extractLsb' 8 4 = code.code ∧
      (raise code s).irq = s.ie

/-! ### Steps -/

/-- A step takes the turn at the head of the schedule; with no turn left the engine moves.  Host turns land between
engine transitions (70_reset_and_hazards.md R242); the schedule is the model's choice (log 5). -/
def Obligations.StepTakesTheTurn : Prop :=
  ∀ s : State,
    (engineMoves s → step s = engineTurn s.taken) ∧
      ∀ act, s.schedule.head? = some (.host act) → step s = hostTurn act s.taken

/-- A step runs the instruction that stands where it fetches: a chunk at `p`, the header at the start of the
source buffer, the end marker at `end`, a command in a CTRL write; in each case with the turn taken off the schedule. -/
def Obligations.StepRunsTheDecodedInstruction : Prop :=
  (∀ (i : Instr) (s : State), engineMoves s → s.phase = .decoding → s.stage = .body →
      i.isChunk = true → wellFormed i = true → s.p + (encodeBytes i).length ≤ s.endOff →
      noFault s .read (s.srcAddr.toNat + s.p) (encodeBytes i).length →
      holdsAt s.mem (s.srcAddr.toNat + s.p) (encodeBytes i) → step s = exec i s.taken) ∧
    (∀ (w h : Word) (c cs : Byte) (s : State), engineMoves s → s.phase = .decoding → s.stage = .header →
      noFault s .read s.srcAddr.toNat 14 →
      holdsAt s.mem s.srcAddr.toNat (encodeBytes (.header w h c cs)) →
      step s = exec (.header w h c cs) s.taken) ∧
    (∀ s : State, engineMoves s → s.phase = .decoding → s.stage = .body → s.endOff ≤ s.p → s.n = s.pixels →
      noFault s .read (s.srcAddr.toNat + s.endOff) 8 →
      holdsAt s.mem (s.srcAddr.toNat + s.endOff) (encodeBytes .endMarker) → step s = exec .endMarker s.taken) ∧
    ∀ (v : Word) (i : Instr) (s : State), s.schedule.head? = some (.host (.writeReg 0 4 v)) →
      decode (.ctrl v) = .ok i → step s = exec i s.taken

/-- Reset leaves what the spec says (10_state.md R46): the registers 0, the phase IDLE, irq 0; and the reset state
meets every invariant stated below.  Of these the slot invariant rests on the table's zero, which R46 leaves unspecified
(the model's choice, log 1), and the memory invariant on the empty memory (the model's choice, log 2). -/
def Obligations.ResetStateIsIdleAndMeetsTheInvariants : Prop :=
  (State.reset.phase = .idle ∧ ctrlWord State.reset = 0 ∧ statusWord State.reset = 0 ∧
      State.reset.width = 0 ∧ State.reset.height = 0 ∧ formatWord State.reset = 0 ∧
      State.reset.srcAddr = 0 ∧ State.reset.srcLen = 0 ∧ State.reset.dstAddr = 0 ∧ State.reset.dstCap = 0 ∧
      State.reset.outLen = 0 ∧ State.reset.irq = false) ∧
    MemoryInv State.reset ∧ SlotInv State.reset ∧ AddressInv State.reset ∧ StatusInv State.reset ∧
      OperationInv State.reset

/-- START right after reset runs ENCODE into BAD_CHANNELS with no memory access: so on every platform, one whose every
access fails among them, and memory stays (70_reset_and_hazards.md R234). -/
def Obligations.StartAfterResetFailsOnChannels : Prop :=
  ∀ (cfg : Config) (mem : Memory),
    ∃ t, core.run 2 { State.afterReset cfg mem with schedule := [.host (.writeReg 0 4 0x00000001)] } = .next t ∧
      t.err = true ∧ t.errcode = .badChannels ∧ t.errcode.code = 7 ∧ t.outLen = 0 ∧ t.mem = mem ∧ t.phase = .idle

/-! ### Invariants that every step keeps -/

/-- Memory keeps its canonical form and stays inside the address space.  The canonical form, a list without the bytes
that read 0, is the model's choice (log 2). -/
def Obligations.MemoryInvariantKept : Prop := ∀ s t : State, MemoryInv s → step s = .next t → MemoryInv t

/-- Every slot that an UPDATE has written holds a pixel that hashes to it, for every stream
(41_pixel_history_cache.md R116, which speaks of the points of an operation).  After a reset turn, where 10_state.md R46
leaves the table unspecified, it holds because the model resets the table to zero (the model's choice, log 1). -/
def Obligations.SlotInvariantKept : Prop := ∀ s t : State, SlotInv s → step s = .next t → SlotInv t

/-- The address registers stay inside `ADDR_W`, DONE and ERR are never both set, and while BUSY neither is set and
OUT_LEN reads 0 (10_state.md R35, R37; 60_exceptions.md R203; 70_reset_and_hazards.md R239). -/
def Obligations.StatusAndAddressInvariantKept : Prop :=
  ∀ s t : State, AddressInv s → StatusInv s → step s = .next t → AddressInv t ∧ StatusInv t

/-- The cursors stay in their ranges, `run` never exceeds 61 between steps, the buffers keep passing their start
checks, MODE agrees with the phase, and a 3-channel ENCODE keeps alpha 255 in `prev`
(10_state.md R24, R25; 42_chunk_encoder.md R133; 43_chunk_decoder.md R164). -/
def Obligations.OperationInvariantKept : Prop := ∀ s t : State, OperationInv s → step s = .next t → OperationInv t

/-! ### The whole machine -/

/-- The engine writes only the destination range, so the source range is unchanged: every byte outside the destination,
and every byte of the source, reads after a turn of the engine as before (10_state.md R43). -/
def Obligations.EngineWritesOnlyTheDestination : Prop :=
  ∀ s t : State, OperationInv s → engineTurn s = .next t →
    (∀ a, s.inDst a = false → t.mem.read a = s.mem.read a) ∧ ∀ a, s.inSrc a = true → t.mem.read a = s.mem.read a

/-- The engine reads only the source range and writes only the destination range (10_state.md R43).  First the
arithmetic of 60_exceptions.md R208: after the start checks every address of 20_memory.md R51 lies below `2^ADDR_W`
and in its range: of ENCODE the bytes of pixel `i` and every byte `emit` has room for; of DECODE the header, every byte
of a chunk that does not reach past `end`, the end marker and every pixel of the image.  Then the accesses themselves:
in two states that differ only in memory bytes outside the source range, and in which accesses fail elsewhere than at
reads of the source and writes of the destination, a turn of the engine has one and the same effect and leaves two such
states again.  Turn by turn, then, what an operation does depends on nothing else of memory than its source bytes
(70_reset_and_hazards.md R235). -/
def Obligations.EngineAddressesFitThePort : Prop :=
  (∀ s : State, OperationInv s → s.stage ≠ .start →
      let reads := fun a => a < 2 ^ s.cfg.addrW ∧ s.inSrc a = true
      let writes := fun a => a < 2 ^ s.cfg.addrW ∧ s.inDst a = true
      (s.phase = .encoding → s.i < s.pixels → ∀ j < s.chans, reads (s.srcAddr.toNat + s.i * s.chans + j)) ∧
        (s.phase = .encoding → ∀ q < s.dstCap.toNat, writes (s.dstAddr.toNat + q)) ∧
        (s.phase = .decoding → ∀ j < 14, reads (s.srcAddr.toNat + j)) ∧
        (s.phase = .decoding → s.stage = .body → ∀ j, s.p + j < s.endOff → reads (s.srcAddr.toNat + s.p + j)) ∧
        (s.phase = .decoding → s.stage = .body → ∀ j < 8, reads (s.srcAddr.toNat + s.endOff + j)) ∧
        (s.phase = .decoding → s.stage = .body → ∀ n < s.pixels, ∀ j < s.chans,
          writes (s.dstAddr.toNat + n * s.chans + j))) ∧
    ∀ s t : State, OperationInv s → SameBuffers s t →
      ∃ s' t', engineTurn s = .next s' ∧ engineTurn t = .next t' ∧ SameEffect s t s' t' ∧ SameBuffers s' t'

/-- Left to itself the engine never stops with a fault or a refusal: every error is a next state, no chunk is
illegal (30_encoding.md R83).  Every instruction completes in every state; a stream instruction executed by an idle
engine does nothing (60_exceptions.md R219; the model's reading of it, log 14). -/
def Obligations.EngineNeverStops : Prop :=
  (∀ s : State, s.schedule = [] → SafeRun s) ∧ (∀ (i : Instr) (s : State), ∃ t, exec i s = .next t) ∧
    ∀ (i : Instr) (s : State), s.phase = .idle →
      i.isChunk = true ∨ (∃ w h c cs, i = .header w h c cs) ∨ i = .endMarker → exec i s = .next s

/-- Every operation ends: a busy engine is idle again after a bounded number of steps, with DONE or ERR
(44_framing_and_commands.md R194; 70_reset_and_hazards.md R243).  The bound counts one step each for the start checks,
the header and the end, the grain the model chose (log 6). -/
def Obligations.EveryOperationEnds : Prop :=
  ∀ s : State, s.schedule = [] → s.busy = true →
    ∃ k t, k ≤ s.pixels + s.srcLen.toNat + s.endOff + 4 ∧ core.run k s = .next t ∧ t.phase = .idle ∧
      (t.done = true ∨ t.err = true)

/-- A completed ENCODE of a legal image into a large enough destination: DONE, and OUT_LEN between the bounds of
42_chunk_encoder.md R134.  It takes at most W·H + 3 steps: one for each pixel (44_framing_and_commands.md R194), and one
each for the start checks, the header and the end, the grain the model chose (log 6). -/
def Obligations.EncodeCompletesWithinLengthBounds : Prop :=
  ∀ s : State, s.schedule = [] → s.phase = .encoding → s.stage = .start → encodeCheck s = .none →
    22 + s.pixels * (s.chans + 1) ≤ s.dstCap.toNat →
    noFault s .read s.srcAddr.toNat s.srcLen.toNat → noFault s .write s.dstAddr.toNat s.dstCap.toNat →
    ∃ t, core.run (s.pixels + 3) s = .next t ∧ t.phase = .idle ∧ t.done = true ∧ t.err = s.err ∧
      22 + (s.pixels + 61) / 62 ≤ t.outLen.toNat ∧ t.outLen.toNat ≤ 22 + s.pixels * (s.chans + 1)

/-- When phase is IDLE the engine makes no memory access and changes no register (60_exceptions.md R219). -/
def Obligations.IdleEngineDoesNothing : Prop :=
  ∀ s : State, s.phase = .idle → engineTurn s = .next s ∧ (s.schedule = [] → step s = .next s)

/-- What an operation does depends only on its registers and the memory: whatever the previous operation left in
`prev`, `px`, `run`, the cursors and the table, the host sees the same after every number of steps
(70_reset_and_hazards.md R235). -/
def Obligations.LeftoverStateDoesNotMatter : Prop :=
  ∀ (s : State) (prev px : Pixel) (run : BitVec 6) (i q p n endOff : Nat) (table : Table) (stage : Stage)
    (ie : Bool) (rsv : BitVec 29) (c : Instr),
    s.phase = .idle → s.schedule = [] → c = .encode ie rsv ∨ c = .decode ie rsv →
    let s' := { s with
      prev := prev, px := px, run := run, i := i, q := q, p := p, n := n, endOff := endOff, table := table
      stage := stage }
    ∃ t t', exec c s = .next t ∧ exec c s' = .next t' ∧
      ∀ k, ∃ u u', core.run k t = .next u ∧ core.run k t' = .next u' ∧ hostAgree u u'

/-- No host access reads or writes the internal state: an access that starts no operation and is no reset leaves
it alone, and what it does depends only on what the host can see (10_state.md R48). -/
def Obligations.HostNeverReachesInternalState : Prop :=
  (∀ (act : HostAction) (s t : State), act ≠ .reset →
      (∀ bytes v, act = .writeReg 0 bytes v → v.getLsbD 0 = false ∨ s.busy = true) →
      hostTurn act s = .next t → internalAgree t s) ∧
    ∀ (act : HostAction) (s s' t : State), hostAgree s s' → hostTurn act s = .next t → act ≠ .reset →
      ∃ t', hostTurn act s' = .next t' ∧ hostAgree t t'

/-! ### The register block -/

/-- While BUSY, host register writes change IE, and DONE, ERR, ALPHA3 by write-one-to-clear, and nothing else
(70_reset_and_hazards.md R239). -/
def Obligations.ConfigurationIsLockedWhileBusy : Prop :=
  ∀ (offset : BitVec 8) (v : Word) (s : State), s.busy = true → offset.toNat % 4 = 0 →
    hostTurn (.writeReg offset 4 v) s =
      .next (if offset = 0 then { s with ie := v.getLsbD 2 }
        else if offset = 4 then
          { s with
            done := s.done && !v.getLsbD 1, err := s.err && !v.getLsbD 2, alpha3 := s.alpha3 && !v.getLsbD 3 }
        else s)

/-- The register map of 10_state.md R30, offset by offset, through the host's own reads and writes.  In every state each
offset from 0x00 to 0x38 reads its register, the low word of a pair at the lower offset.  While idle a write to one
changes that register alone: CTRL with START = 0 stores IE and MODE, an address only in the low `ADDR_W` bits, OUT_LEN not
at all.  What was written to the implemented bits then reads back (10_state.md R31 to R37; 20_memory.md R55). -/
def Obligations.ConfigurationReadsBack : Prop :=
  (∀ s : State,
      (∃ v, regReads s 0x00 v ∧
        ∀ k < 32, v.getLsbD k = ((decide (k = 1) && decide (s.mode = .decode)) || (decide (k = 2) && s.ie))) ∧
      (∃ v, regReads s 0x04 v ∧ v.getLsbD 0 = s.busy ∧ v.getLsbD 1 = s.done ∧ v.getLsbD 2 = s.err ∧
        v.getLsbD 3 = s.alpha3 ∧ v.extractLsb' 4 4 = 0 ∧ v.extractLsb' 8 4 = s.errcode.code ∧
        v.extractLsb' 12 20 = 0) ∧
      regReads s 0x08 s.width ∧ regReads s 0x0C s.height ∧ regReads s 0x10 (0#16 ++ s.colorspace ++ s.channels) ∧
      (regReads s 0x14 (s.srcAddr.extractLsb' 0 32) ∧ regReads s 0x18 (s.srcAddr.extractLsb' 32 32)) ∧
      (regReads s 0x1C (s.srcLen.extractLsb' 0 32) ∧ regReads s 0x20 (s.srcLen.extractLsb' 32 32)) ∧
      (regReads s 0x24 (s.dstAddr.extractLsb' 0 32) ∧ regReads s 0x28 (s.dstAddr.extractLsb' 32 32)) ∧
      (regReads s 0x2C (s.dstCap.extractLsb' 0 32) ∧ regReads s 0x30 (s.dstCap.extractLsb' 32 32)) ∧
      regReads s 0x34 (s.outLen.extractLsb' 0 32) ∧ regReads s 0x38 (s.outLen.extractLsb' 32 32)) ∧
    (∀ (v : Word) (s : State), s.busy = false →
      (v.getLsbD 0 = false →
        regWrites s 0x00 v { s with ie := v.getLsbD 2, mode := if v.getLsbD 1 then .decode else .encode }) ∧
      regWrites s 0x08 v { s with width := v } ∧ regWrites s 0x0C v { s with height := v } ∧
      regWrites s 0x10 v { s with channels := v.extractLsb' 0 8, colorspace := v.extractLsb' 8 8 } ∧
      (∃ x, regWrites s 0x14 v { s with srcAddr := x } ∧ ∀ k, x.getLsbD k =
        (decide (k < s.cfg.addrW) && if k < 32 then v.getLsbD k else s.srcAddr.getLsbD k)) ∧
      (∃ x, regWrites s 0x18 v { s with srcAddr := x } ∧ ∀ k, x.getLsbD k =
        (decide (k < s.cfg.addrW) && if k < 32 then s.srcAddr.getLsbD k else v.getLsbD (k - 32))) ∧
      regWrites s 0x1C v { s with srcLen := s.srcLen.extractLsb' 32 32 ++ v } ∧
      regWrites s 0x20 v { s with srcLen := v ++ s.srcLen.extractLsb' 0 32 } ∧
      (∃ x, regWrites s 0x24 v { s with dstAddr := x } ∧ ∀ k, x.getLsbD k =
        (decide (k < s.cfg.addrW) && if k < 32 then v.getLsbD k else s.dstAddr.getLsbD k)) ∧
      (∃ x, regWrites s 0x28 v { s with dstAddr := x } ∧ ∀ k, x.getLsbD k =
        (decide (k < s.cfg.addrW) && if k < 32 then s.dstAddr.getLsbD k else v.getLsbD (k - 32))) ∧
      regWrites s 0x2C v { s with dstCap := s.dstCap.extractLsb' 32 32 ++ v } ∧
      regWrites s 0x30 v { s with dstCap := v ++ s.dstCap.extractLsb' 0 32 } ∧
      regWrites s 0x34 v s ∧ regWrites s 0x38 v s) ∧
    ∀ (v w : Word) (s : State), s.busy = false →
      (v.getLsbD 0 = false → ∃ t, regWrites s 0x00 v t ∧ regReads t 0x00 (v &&& 0x00000006#32)) ∧
      (∃ t, regWrites s 0x08 v t ∧ regReads t 0x08 v) ∧ (∃ t, regWrites s 0x0C v t ∧ regReads t 0x0C v) ∧
      (∃ t, regWrites s 0x10 v t ∧ regReads t 0x10 (v &&& 0x0000FFFF#32)) ∧
      (∃ t u a b, regWrites s 0x14 v t ∧ regWrites t 0x18 w u ∧ regReads u 0x14 a ∧ regReads u 0x18 b ∧
        ∀ k < 32, a.getLsbD k = (decide (k < s.cfg.addrW) && v.getLsbD k) ∧
          b.getLsbD k = (decide (k + 32 < s.cfg.addrW) && w.getLsbD k)) ∧
      (∃ t u, regWrites s 0x1C v t ∧ regWrites t 0x20 w u ∧ regReads u 0x1C v ∧ regReads u 0x20 w) ∧
      (∃ t u a b, regWrites s 0x24 v t ∧ regWrites t 0x28 w u ∧ regReads u 0x24 a ∧ regReads u 0x28 b ∧
        ∀ k < 32, a.getLsbD k = (decide (k < s.cfg.addrW) && v.getLsbD k) ∧
          b.getLsbD k = (decide (k + 32 < s.cfg.addrW) && w.getLsbD k)) ∧
      ∃ t u, regWrites s 0x2C v t ∧ regWrites t 0x30 w u ∧ regReads u 0x2C v ∧ regReads u 0x30 w

/-- A host write to STATUS clears the flags written with 1 and leaves the rest; what the host then reads says so
bit by bit (10_state.md R32). -/
def Obligations.StatusIsWriteOneToClear : Prop :=
  ∀ (v : Word) (s : State),
    ∃ t, hostTurn (.writeReg 4 4 v) s = .next t ∧
      t = { s with
        done := s.done && !v.getLsbD 1, err := s.err && !v.getLsbD 2, alpha3 := s.alpha3 && !v.getLsbD 3 } ∧
      ∀ k < 32, (statusWord t).getLsbD k =
        ((statusWord s).getLsbD k && !(v.getLsbD k && (decide (k = 1) || decide (k = 2) || decide (k = 3))))

/-- Reserved offsets and fields read 0 and ignore writes, and an access that is not an aligned 32-bit one is
refused (10_state.md R38). -/
def Obligations.ReservedSpaceReadsZero : Prop :=
  (∀ (offset : BitVec 8) (v : Word) (s : State), 0x3C ≤ offset.toNat → offset.toNat % 4 = 0 →
      hostTurn (.readReg offset 4) s = .next { s with hostData := 0 } ∧
        hostTurn (.writeReg offset 4 v) s = .next s) ∧
    (∀ s : State,
      (ctrlWord s) &&& 0xFFFFFFF9#32 = 0 ∧ (statusWord s) &&& 0xFFFFF0F0#32 = 0 ∧
        (formatWord s) &&& 0xFFFF0000#32 = 0) ∧
    (∀ (v v' : Word) (s : State),
      (v &&& 0x00000007#32 = v' &&& 0x00000007#32 → hostTurn (.writeReg 0 4 v) s = hostTurn (.writeReg 0 4 v') s) ∧
        (v &&& 0x0000000E#32 = v' &&& 0x0000000E#32 →
          hostTurn (.writeReg 4 4 v) s = hostTurn (.writeReg 4 4 v') s) ∧
        (v &&& 0x0000FFFF#32 = v' &&& 0x0000FFFF#32 →
          hostTurn (.writeReg 0x10 4 v) s = hostTurn (.writeReg 0x10 4 v') s)) ∧
    ∀ (offset : BitVec 8) (bytes : Nat) (v : Word) (s : State), bytes ≠ 4 ∨ offset.toNat % 4 ≠ 0 →
      hostTurn (.readReg offset bytes) s = .refused .registerAccessShape ∧
        hostTurn (.writeReg offset bytes v) s = .refused .registerAccessShape

/-- `irq = CTRL.IE and (STATUS.DONE or STATUS.ERR)`, in the bits the host reads (10_state.md R41). -/
def Obligations.IrqIsEnableAndDoneOrErr : Prop :=
  ∀ s : State,
    s.irq = ((ctrlWord s).getLsbD 2 && ((statusWord s).getLsbD 1 || (statusWord s).getLsbD 2))

/-- While BUSY the host may not write the buffers nor rely on the destination: the model refuses
(70_reset_and_hazards.md R238, log 12); elsewhere, and while idle, a host access to a byte that exists reads or writes
that byte alone, and one to a byte that does not exist faults (the model's choice, log 11).  That this holds as soon as
the engine is idle, before the host has read STATUS with BUSY 0, is the model's choice (log 29). -/
def Obligations.HostMemoryAccesses : Prop :=
  ∀ (a : Nat) (v : Byte) (s : State),
    (2 ^ s.cfg.addrW ≤ a →
        hostTurn (.writeMem a v) s = .fault .noSuchAddress ∧ hostTurn (.readMem a) s = .fault .noSuchAddress) ∧
      (a < 2 ^ s.cfg.addrW → s.busy = true → s.inSrc a = true ∨ s.inDst a = true →
        hostTurn (.writeMem a v) s = .refused .bufferInUse) ∧
      (a < 2 ^ s.cfg.addrW → s.busy = true → s.inDst a = true →
        hostTurn (.readMem a) s = .refused .bufferInUse) ∧
      (a < 2 ^ s.cfg.addrW → s.mem.wf → s.busy = false ∨ (s.inSrc a = false ∧ s.inDst a = false) →
        ∃ m, hostTurn (.writeMem a v) s = .next { s with mem := m } ∧ Stored m s.mem a [v]) ∧
      (a < 2 ^ s.cfg.addrW → s.busy = false ∨ s.inDst a = false →
        hostTurn (.readMem a) s = .next { s with hostData := (s.mem.read a).setWidth 32 })

/-- The reset turn, from any state: idle, STATUS, CTRL, WIDTH, HEIGHT, FORMAT, SRC_ADDR, SRC_LEN, DST_ADDR, DST_CAP and
OUT_LEN read 0 and irq is 0 (70_reset_and_hazards.md R230); every byte outside the destination range, the source range
among them, as before (R231).  Reset is one turn, and the destination bytes of a reset while BUSY are free values
(log 8). -/
def Obligations.ResetAbandonsTheOperation : Prop :=
  ∀ s : State,
    ∃ t, hostTurn .reset s = .next t ∧ t.phase = .idle ∧ t.done = false ∧ t.err = false ∧ t.irq = false ∧
      statusWord t = 0 ∧ ctrlWord t = 0 ∧ t.width = 0 ∧ t.height = 0 ∧ formatWord t = 0 ∧ t.srcAddr = 0 ∧
      t.srcLen = 0 ∧ t.dstAddr = 0 ∧ t.dstCap = 0 ∧ t.outLen = 0 ∧ t.cfg = s.cfg ∧
      (∀ a, s.inDst a = false ∨ s.inSrc a = true → t.mem.read a = s.mem.read a) ∧
      (s.busy = false → t.mem = s.mem)

/-- A step of one engine instance leaves every other as it was: instances share nothing (60_exceptions.md R217).  The
memory they all reach, and that they step one at a time, are the model's choice (`Platform`, log 20).  A bus address in
one's register block reaches that one. -/
def Obligations.InstancesShareNothing : Prop :=
  (∀ (P Q : Platform) (k : Nat), P.stepAt k = .next Q →
      Q.engines.length = P.engines.length ∧ ∀ j ≠ k, Q.engines[j]? = P.engines[j]?) ∧
    ∀ (P : Platform) (k : Nat) (e : State) (offset : BitVec 8), P.legal = true → P.engines[k]? = some e →
      P.route (e.cfg.regBase + offset.toNat) = some (k, offset)
end

