-- ==== Sys2Proof/Laws/Codec.lean ====
section
/-! SUPPORT. The bit fields of the encodings, read back both ways, and the encoder's bytes by length. -/

namespace Sys2Proof

set_option maxRecDepth 8000

/-! ### Fields written, then read -/

theorem run_byte_fields (count : Nat) (h1 : 1 ≤ count) (h2 : count ≤ 62) :
    let b : Byte := 0xC0 ||| BitVec.ofNat 8 (count - 1)
    b ≠ 0xFF ∧ b ≠ 0xFE ∧ field b 6 2 = 3 ∧ field b 0 6 + 1 = count := by
  interval_cases count <;> decide

theorem luma_byte0_fields (dg : Int) (h : within (-32) 31 dg = true) :
    let b : Byte := 0x80 ||| bias dg 32
    b ≠ 0xFF ∧ b ≠ 0xFE ∧ field b 6 2 = 2 ∧ unbias b 0 6 32 = dg := by
  simp only [within, Bool.and_eq_true, decide_eq_true_eq] at h
  obtain ⟨h1, h2⟩ := h
  interval_cases dg <;> decide

theorem luma_byte1_fields (drg dbg : Int) (hr : within (-8) 7 drg = true) (hb : within (-8) 7 dbg = true) :
    let b : Byte := bias drg 8 <<< 4 ||| bias dbg 8
    unbias b 4 4 8 = drg ∧ unbias b 0 4 8 = dbg := by
  simp only [within, Bool.and_eq_true, decide_eq_true_eq] at hr hb
  obtain ⟨h1, h2⟩ := hr
  obtain ⟨h3, h4⟩ := hb
  interval_cases drg <;> interval_cases dbg <;> decide

theorem diff_byte_fields (dr dg db : Int) (hr : within (-2) 1 dr = true) (hg : within (-2) 1 dg = true)
    (hb : within (-2) 1 db = true) :
    let b : Byte := 0x40 ||| bias dr 2 <<< 4 ||| bias dg 2 <<< 2 ||| bias db 2
    b ≠ 0xFF ∧ b ≠ 0xFE ∧ field b 6 2 = 1 ∧ unbias b 4 2 2 = dr ∧ unbias b 2 2 2 = dg ∧ unbias b 0 2 2 = db := by
  simp only [within, Bool.and_eq_true, decide_eq_true_eq] at hr hg hb
  obtain ⟨h1, h2⟩ := hr
  obtain ⟨h3, h4⟩ := hg
  obtain ⟨h5, h6⟩ := hb
  interval_cases dr <;> interval_cases dg <;> interval_cases db <;> decide

theorem index_byte_fields (slot : BitVec 6) :
    let b : Byte := 0x00 ||| slot.setWidth 8
    b ≠ 0xFF ∧ b ≠ 0xFE ∧ field b 6 2 = 0 ∧ b.extractLsb' 0 6 = slot := by
  revert slot
  decide

theorem be32_be32Bytes (w : Word) :
    be32 (w.extractLsb' 24 8) (w.extractLsb' 16 8) (w.extractLsb' 8 8) (w.extractLsb' 0 8) = w := by
  apply BitVec.eq_of_getLsbD_eq
  intro i hi
  simp only [be32, BitVec.getLsbD_append, BitVec.getLsbD_extractLsb']
  interval_cases i <;> simp

theorem ctrlValue_fields (start mode ie : Bool) (rsv : BitVec 29) :
    (ctrlValue start mode ie rsv).getLsbD 0 = start ∧ (ctrlValue start mode ie rsv).getLsbD 1 = mode ∧
      (ctrlValue start mode ie rsv).getLsbD 2 = ie ∧ (ctrlValue start mode ie rsv).extractLsb' 3 29 = rsv := by
  refine ⟨?_, ?_, ?_, ?_⟩
  · cases start <;> simp only [ctrlValue, BitVec.getLsbD_append] <;> rfl
  · cases mode <;> simp only [ctrlValue, BitVec.getLsbD_append] <;> rfl
  · cases ie <;> simp only [ctrlValue, BitVec.getLsbD_append] <;> rfl
  · apply BitVec.eq_of_getLsbD_eq
    intro i hi
    have e1 : ¬ 3 + i < 1 := by omega
    have e2 : ¬ 3 + i - 1 < 1 := by omega
    have e3 : ¬ 3 + i - 1 - 1 < 1 := by omega
    have e4 : 3 + i - 1 - 1 - 1 = i := by omega
    simp only [ctrlValue, BitVec.getLsbD_append, BitVec.getLsbD_extractLsb', e1, e2, e3, e4, hi, decide_true,
      if_false, Bool.true_and]

/-! ### Fields read, then written -/

/-- The numeric ranges of the first byte. -/
theorem first_byte_ranges (b : Byte) :
    (b = 0xFF ↔ b.toNat = 0xFF) ∧ (b = 0xFE ↔ b.toNat = 0xFE) ∧ field b 6 2 = b.toNat / 64 ∧
      field b 0 6 = b.toNat % 64 := by
  revert b
  decide

theorem run_byte_back (b : Byte) (h1 : b ≠ 0xFF) (h2 : b ≠ 0xFE) (h3 : field b 6 2 = 3) :
    (0xC0 ||| BitVec.ofNat 8 (field b 0 6 + 1 - 1) : Byte) = b ∧ field b 0 6 + 1 ≤ 62 := by
  revert b
  decide

theorem luma_byte0_back (b : Byte) (h : field b 6 2 = 2) :
    (0x80 ||| bias (unbias b 0 6 32) 32 : Byte) = b ∧ within (-32) 31 (unbias b 0 6 32) = true := by
  revert b
  decide

theorem luma_byte1_back (b : Byte) :
    (bias (unbias b 4 4 8) 8 <<< 4 ||| bias (unbias b 0 4 8) 8 : Byte) = b ∧
      within (-8) 7 (unbias b 4 4 8) = true ∧ within (-8) 7 (unbias b 0 4 8) = true := by
  revert b
  decide

theorem diff_byte_back (b : Byte) (h : field b 6 2 = 1) :
    (0x40 ||| bias (unbias b 4 2 2) 2 <<< 4 ||| bias (unbias b 2 2 2) 2 <<< 2 ||| bias (unbias b 0 2 2) 2 : Byte) = b ∧
      within (-2) 1 (unbias b 4 2 2) = true ∧ within (-2) 1 (unbias b 2 2 2) = true ∧
      within (-2) 1 (unbias b 0 2 2) = true := by
  revert b
  decide

theorem index_byte_back (b : Byte) (h : field b 6 2 = 0) :
    (0x00 ||| (b.extractLsb' 0 6).setWidth 8 : Byte) = b := by
  revert b
  decide

theorem be32Bytes_be32 (b3 b2 b1 b0 : Byte) : be32Bytes (be32 b3 b2 b1 b0) = [b3, b2, b1, b0] := by
  have e : ∀ (k : Nat) (x : Byte), (∀ i < 8, (be32 b3 b2 b1 b0).getLsbD (k + i) = x.getLsbD i) →
      (be32 b3 b2 b1 b0).extractLsb' k 8 = x := by
    intro k x h
    apply BitVec.eq_of_getLsbD_eq
    intro i hi
    rw [BitVec.getLsbD_extractLsb', h i hi]
    simp [hi]
  rw [be32Bytes, e 24 b3, e 16 b2, e 8 b1, e 0 b0] <;> intro i hi <;>
    simp only [be32, BitVec.getLsbD_append] <;> interval_cases i <;> rfl

theorem ctrlValue_back (v : Word) :
    ctrlValue (v.getLsbD 0) (v.getLsbD 1) (v.getLsbD 2) (v.extractLsb' 3 29) = v := by
  apply BitVec.eq_of_getLsbD_eq
  intro i hi
  obtain ⟨h0, h1, h2, h3⟩ := ctrlValue_fields (v.getLsbD 0) (v.getLsbD 1) (v.getLsbD 2) (v.extractLsb' 3 29)
  match i, hi with
  | 0, _ => exact h0
  | 1, _ => exact h1
  | 2, _ => exact h2
  | j + 3, hi =>
    have h := congrArg (fun x : BitVec 29 => x.getLsbD j) h3
    simp only [BitVec.getLsbD_extractLsb', show j < 29 by omega, decide_true, Bool.true_and] at h
    rwa [Nat.add_comm j 3]

/-! ### Lengths -/

@[simp] theorem endMarkerBytes_length : endMarkerBytes.length = 8 := rfl

theorem encodeBytes_length_le (i : Instr) (h : i.isPixelChunk = true) :
    1 ≤ (encodeBytes i).length ∧ (encodeBytes i).length ≤ 5 := by
  cases i <;> simp_all [encodeBytes, Instr.isPixelChunk]

theorem chunkLength_cases (b0 : Byte) :
    chunkLength b0 = 1 ∨ chunkLength b0 = 2 ∨ chunkLength b0 = 4 ∨ chunkLength b0 = 5 := by
  unfold chunkLength
  repeat' split
  all_goals simp

end Sys2Proof
end

