-- ==== Sys2Proof/Laws/Memory.lean ====
section
/-! SUPPORT. The laws of memory: read after write, the other bytes, and the canonical form. -/

namespace Sys2Proof.Machine

open Sys2Proof

/-! ### One byte -/

@[simp] theorem Memory.read_nil (a : Nat) : Memory.read [] a = 0 := rfl

theorem Memory.read_cons (c : Host.Cell) (m : Memory) (a : Nat) :
    Memory.read (c :: m) a = if c.1 = a then c.2 else Memory.read m a := rfl

/-- An address below every listed one reads 0. -/
theorem Memory.read_of_all_above (m : Memory) (a : Nat) (h : ∀ c ∈ m, a < c.1) : Memory.read m a = 0 := by
  induction m with
  | nil => rfl
  | cons c m ih =>
    have hc : c.1 ≠ a := by have := h c (by simp); omega
    rw [Memory.read_cons, if_neg hc]
    exact ih fun d hd => h d (by simp [hd])

theorem Memory.read_write_other (m : Memory) (a x : Nat) (v : Byte) (h : x ≠ a) :
    (Memory.write m a v).read x = m.read x := by
  induction m with
  | nil =>
    simp only [Memory.write]
    split <;> simp [Memory.read_cons, Ne.symm h]
  | cons c m ih =>
    obtain ⟨b, w⟩ := c
    simp only [Memory.write]
    split
    · split <;> simp [Memory.read_cons, Ne.symm h]
    · split
      · subst a
        split <;> simp [Memory.read_cons, Ne.symm h]
      · simp [Memory.read_cons, ih]

theorem Memory.wf_cons {c : Host.Cell} {m : Memory} (h : Memory.wf (c :: m)) :
    Memory.wf m ∧ (∀ d ∈ m, c.1 < d.1) ∧ c.2 ≠ 0 := by
  obtain ⟨hp, hv⟩ := h
  rw [List.pairwise_cons] at hp
  exact ⟨⟨hp.2, fun d hd => hv d (by simp [hd])⟩, hp.1, hv c (by simp)⟩

theorem Memory.read_write_same (m : Memory) (a : Nat) (v : Byte) (h : Memory.wf m) :
    (Memory.write m a v).read a = v := by
  induction m with
  | nil =>
    simp only [Memory.write]
    split <;> simp_all [Memory.read_cons]
  | cons c m ih =>
    obtain ⟨hm, habove, _⟩ := Memory.wf_cons h
    obtain ⟨b, w⟩ := c
    simp only [Memory.write]
    split
    · rename_i hab
      split
      · rename_i hv
        rw [hv]
        refine Memory.read_of_all_above _ _ fun d hd => ?_
        rcases List.mem_cons.1 hd with rfl | hd
        · exact hab
        · exact Nat.lt_trans hab (habove d hd)
      · simp [Memory.read_cons]
    · split
      · subst a
        split
        · rename_i hv
          rw [hv]
          exact Memory.read_of_all_above _ _ habove
        · simp [Memory.read_cons]
      · rename_i h1 h2
        simp [Memory.read_cons, Ne.symm h2, ih hm]

/-- The addresses a write can leave listed. -/
theorem Memory.mem_write {m : Memory} {a : Nat} {v : Byte} {c : Host.Cell} (h : c ∈ Memory.write m a v) :
    c ∈ m ∨ (c = (a, v) ∧ v ≠ 0) := by
  induction m with
  | nil =>
    by_cases hv : v = 0
    · simp [Memory.write, hv] at h
    · simp only [Memory.write, hv, if_false, List.mem_singleton] at h
      exact .inr ⟨h, hv⟩
  | cons d m ih =>
    obtain ⟨b, w⟩ := d
    simp only [Memory.write] at h
    split at h
    · split at h
      · exact .inl h
      · rename_i hv
        rcases List.mem_cons.1 h with rfl | h
        · exact .inr ⟨rfl, hv⟩
        · exact .inl h
    · split at h
      · split at h
        · exact .inl (List.mem_cons_of_mem _ h)
        · rename_i hv
          rcases List.mem_cons.1 h with rfl | h
          · exact .inr ⟨rfl, hv⟩
          · exact .inl (List.mem_cons_of_mem _ h)
      · rcases List.mem_cons.1 h with rfl | h
        · exact .inl (by simp)
        · rcases ih h with h | h
          · exact .inl (List.mem_cons_of_mem _ h)
          · exact .inr h

/-- A write keeps the canonical form. -/
theorem Memory.wf_write {m : Memory} (a : Nat) (v : Byte) (h : Memory.wf m) : Memory.wf (Memory.write m a v) := by
  refine ⟨?_, fun c hc => ?_⟩
  · induction m with
    | nil =>
      simp only [Memory.write]
      split <;> simp
    | cons d m ih =>
      obtain ⟨hm, habove, _⟩ := Memory.wf_cons h
      obtain ⟨b, w⟩ := d
      simp only [Memory.write]
      split
      · rename_i hab
        split
        · exact h.1
        · refine List.pairwise_cons.2 ⟨fun c hc => ?_, h.1⟩
          rcases List.mem_cons.1 hc with rfl | hc
          · exact hab
          · exact Nat.lt_trans hab (habove c hc)
      · split
        · subst a
          split
          · exact hm.1
          · exact List.pairwise_cons.2 ⟨habove, hm.1⟩
        · refine List.pairwise_cons.2 ⟨fun c hc => ?_, ih hm⟩
          rcases Memory.mem_write hc with hc | ⟨rfl, _⟩
          · exact habove c hc
          · simp only
            omega
  · rcases Memory.mem_write hc with hc | ⟨rfl, hv⟩
    · exact h.2 c hc
    · exact hv

/-- A write below a bound keeps every listed address below it. -/
theorem Memory.write_below {m : Memory} {a : Nat} (v : Byte) {bound : Nat} (h : ∀ c ∈ m, c.1 < bound)
    (ha : a < bound) : ∀ c ∈ Memory.write m a v, c.1 < bound := by
  intro c hc
  rcases Memory.mem_write hc with hc | ⟨rfl, _⟩
  · exact h c hc
  · exact ha

/-! ### Consecutive bytes -/

theorem Memory.read_writeList_outside (bs : List Byte) (m : Memory) (a x : Nat)
    (h : x < a ∨ a + bs.length ≤ x) : (Memory.writeList m a bs).read x = m.read x := by
  induction bs generalizing m a with
  | nil => rfl
  | cons b bs ih =>
    simp only [List.length_cons] at h
    rw [Memory.writeList, ih _ _ (by omega), Memory.read_write_other _ _ _ _ (by omega)]

theorem Memory.wf_writeList (bs : List Byte) (m : Memory) (a : Nat) (h : Memory.wf m) :
    Memory.wf (Memory.writeList m a bs) := by
  induction bs generalizing m a with
  | nil => exact h
  | cons b bs ih => exact ih _ _ (Memory.wf_write _ _ h)

theorem Memory.read_writeList_inside (bs : List Byte) (m : Memory) (a : Nat) (hm : Memory.wf m) :
    holdsAt (Memory.writeList m a bs) a bs := by
  induction bs generalizing m a with
  | nil => intro j h; simp at h
  | cons b bs ih =>
    intro j h
    cases j with
    | zero =>
      rw [Memory.writeList, Memory.read_writeList_outside _ _ _ _ (by omega)]
      exact Memory.read_write_same _ _ _ hm
    | succ j =>
      have := ih (m.write a b) (a + 1) (Memory.wf_write _ _ hm) j (by simpa using h)
      rw [Memory.writeList, show a + (j + 1) = a + 1 + j by omega]
      exact this

/-- Storing a list stores it. -/
theorem Memory.stored_writeList (bs : List Byte) (m : Memory) (a : Nat) (hm : Memory.wf m) :
    Stored (Memory.writeList m a bs) m a bs :=
  ⟨Memory.read_writeList_inside bs m a hm, fun x hx => Memory.read_writeList_outside bs m a x hx⟩

theorem Memory.writeList_append (bs cs : List Byte) (m : Memory) (a : Nat) :
    Memory.writeList m a (bs ++ cs) = Memory.writeList (Memory.writeList m a bs) (a + bs.length) cs := by
  induction bs generalizing m a with
  | nil => rfl
  | cons b bs ih =>
    simp only [List.cons_append, Memory.writeList, ih, List.length_cons]
    congr 1
    omega

theorem Memory.writeList_below (bs : List Byte) {m : Memory} {a bound : Nat} (h : ∀ c ∈ m, c.1 < bound)
    (ha : bs = [] ∨ a + bs.length ≤ bound) : ∀ c ∈ Memory.writeList m a bs, c.1 < bound := by
  induction bs generalizing m a with
  | nil => exact h
  | cons b bs ih =>
    have ha : a + (bs.length + 1) ≤ bound := by simpa using ha
    exact ih (Memory.write_below b h (by omega)) (.inr (by omega))

/-! ### Reset during an operation -/

theorem read_scramble_outside (s : State) (k : Nat) (m : Memory) (x : Nat) (h : s.scrambled x = false) :
    (scramble s k m).read x = m.read x := by
  induction k generalizing m with
  | zero => rfl
  | succ k ih =>
    simp only [scramble]
    rw [ih]
    split
    · rename_i hk
      refine Memory.read_write_other _ _ _ _ fun hx => ?_
      subst hx
      simp [h] at hk
    · rfl

theorem wf_scramble (s : State) (k : Nat) (m : Memory) (h : Memory.wf m) : Memory.wf (scramble s k m) := by
  induction k generalizing m with
  | zero => exact h
  | succ k ih =>
    refine ih _ ?_
    split
    · exact Memory.wf_write _ _ h
    · exact h

theorem scramble_below (s : State) (k : Nat) (m : Memory) (h : ∀ c ∈ m, c.1 < 2 ^ s.cfg.addrW) :
    ∀ c ∈ scramble s k m, c.1 < 2 ^ s.cfg.addrW := by
  induction k generalizing m with
  | zero => exact h
  | succ k ih =>
    refine ih _ ?_
    split
    · rename_i hk
      simp only [State.scrambled, Bool.and_eq_true, decide_eq_true_eq] at hk
      exact Memory.write_below _ h hk.2
    · exact h

end Sys2Proof.Machine
end

