-- ==== Sys2Proof/Laws/State.lean ====
section
/-! SUPPORT. What each field is after each named update of the state. -/

namespace Sys2Proof.Machine

open Sys2Proof

/-! ### `raise Err(code)` -/

@[simp] theorem raise_cfg (code : ErrCode) (s : State) : (raise code s).cfg = s.cfg := rfl
@[simp] theorem raise_mode (code : ErrCode) (s : State) : (raise code s).mode = s.mode := rfl
@[simp] theorem raise_ie (code : ErrCode) (s : State) : (raise code s).ie = s.ie := rfl
@[simp] theorem raise_done (code : ErrCode) (s : State) : (raise code s).done = s.done := rfl
@[simp] theorem raise_err (code : ErrCode) (s : State) : (raise code s).err = true := rfl
@[simp] theorem raise_alpha3 (code : ErrCode) (s : State) : (raise code s).alpha3 = s.alpha3 := rfl
@[simp] theorem raise_errcode (code : ErrCode) (s : State) : (raise code s).errcode = code := rfl
@[simp] theorem raise_width (code : ErrCode) (s : State) : (raise code s).width = s.width := rfl
@[simp] theorem raise_height (code : ErrCode) (s : State) : (raise code s).height = s.height := rfl
@[simp] theorem raise_channels (code : ErrCode) (s : State) : (raise code s).channels = s.channels := rfl
@[simp] theorem raise_colorspace (code : ErrCode) (s : State) : (raise code s).colorspace = s.colorspace := rfl
@[simp] theorem raise_srcAddr (code : ErrCode) (s : State) : (raise code s).srcAddr = s.srcAddr := rfl
@[simp] theorem raise_srcLen (code : ErrCode) (s : State) : (raise code s).srcLen = s.srcLen := rfl
@[simp] theorem raise_dstAddr (code : ErrCode) (s : State) : (raise code s).dstAddr = s.dstAddr := rfl
@[simp] theorem raise_dstCap (code : ErrCode) (s : State) : (raise code s).dstCap = s.dstCap := rfl
@[simp] theorem raise_outLen (code : ErrCode) (s : State) : (raise code s).outLen = 0 := rfl
@[simp] theorem raise_phase (code : ErrCode) (s : State) : (raise code s).phase = .idle := rfl
@[simp] theorem raise_prev (code : ErrCode) (s : State) : (raise code s).prev = s.prev := rfl
@[simp] theorem raise_px (code : ErrCode) (s : State) : (raise code s).px = s.px := rfl
@[simp] theorem raise_run (code : ErrCode) (s : State) : (raise code s).run = s.run := rfl
@[simp] theorem raise_i (code : ErrCode) (s : State) : (raise code s).i = s.i := rfl
@[simp] theorem raise_q (code : ErrCode) (s : State) : (raise code s).q = s.q := rfl
@[simp] theorem raise_p (code : ErrCode) (s : State) : (raise code s).p = s.p := rfl
@[simp] theorem raise_n (code : ErrCode) (s : State) : (raise code s).n = s.n := rfl
@[simp] theorem raise_endOff (code : ErrCode) (s : State) : (raise code s).endOff = s.endOff := rfl
@[simp] theorem raise_table (code : ErrCode) (s : State) : (raise code s).table = s.table := rfl
@[simp] theorem raise_mem (code : ErrCode) (s : State) : (raise code s).mem = s.mem := rfl
@[simp] theorem raise_stage (code : ErrCode) (s : State) : (raise code s).stage = s.stage := rfl
@[simp] theorem raise_schedule (code : ErrCode) (s : State) : (raise code s).schedule = s.schedule := rfl
@[simp] theorem raise_hostData (code : ErrCode) (s : State) : (raise code s).hostData = s.hostData := rfl
@[simp] theorem raise_freeCount (code : ErrCode) (s : State) : (raise code s).freeCount = s.freeCount := rfl

/-! ### Successful completion -/

@[simp] theorem complete_cfg (len : Nat) (s : State) : (complete len s).cfg = s.cfg := rfl
@[simp] theorem complete_mode (len : Nat) (s : State) : (complete len s).mode = s.mode := rfl
@[simp] theorem complete_ie (len : Nat) (s : State) : (complete len s).ie = s.ie := rfl
@[simp] theorem complete_done (len : Nat) (s : State) : (complete len s).done = true := rfl
@[simp] theorem complete_err (len : Nat) (s : State) : (complete len s).err = s.err := rfl
@[simp] theorem complete_alpha3 (len : Nat) (s : State) : (complete len s).alpha3 = s.alpha3 := rfl
@[simp] theorem complete_errcode (len : Nat) (s : State) : (complete len s).errcode = s.errcode := rfl
@[simp] theorem complete_width (len : Nat) (s : State) : (complete len s).width = s.width := rfl
@[simp] theorem complete_height (len : Nat) (s : State) : (complete len s).height = s.height := rfl
@[simp] theorem complete_channels (len : Nat) (s : State) : (complete len s).channels = s.channels := rfl
@[simp] theorem complete_colorspace (len : Nat) (s : State) : (complete len s).colorspace = s.colorspace := rfl
@[simp] theorem complete_srcAddr (len : Nat) (s : State) : (complete len s).srcAddr = s.srcAddr := rfl
@[simp] theorem complete_srcLen (len : Nat) (s : State) : (complete len s).srcLen = s.srcLen := rfl
@[simp] theorem complete_dstAddr (len : Nat) (s : State) : (complete len s).dstAddr = s.dstAddr := rfl
@[simp] theorem complete_dstCap (len : Nat) (s : State) : (complete len s).dstCap = s.dstCap := rfl
@[simp] theorem complete_outLen (len : Nat) (s : State) : (complete len s).outLen = BitVec.ofNat 64 len := rfl
@[simp] theorem complete_phase (len : Nat) (s : State) : (complete len s).phase = .idle := rfl
@[simp] theorem complete_prev (len : Nat) (s : State) : (complete len s).prev = s.prev := rfl
@[simp] theorem complete_px (len : Nat) (s : State) : (complete len s).px = s.px := rfl
@[simp] theorem complete_run (len : Nat) (s : State) : (complete len s).run = s.run := rfl
@[simp] theorem complete_i (len : Nat) (s : State) : (complete len s).i = s.i := rfl
@[simp] theorem complete_q (len : Nat) (s : State) : (complete len s).q = s.q := rfl
@[simp] theorem complete_p (len : Nat) (s : State) : (complete len s).p = s.p := rfl
@[simp] theorem complete_n (len : Nat) (s : State) : (complete len s).n = s.n := rfl
@[simp] theorem complete_endOff (len : Nat) (s : State) : (complete len s).endOff = s.endOff := rfl
@[simp] theorem complete_table (len : Nat) (s : State) : (complete len s).table = s.table := rfl
@[simp] theorem complete_mem (len : Nat) (s : State) : (complete len s).mem = s.mem := rfl
@[simp] theorem complete_stage (len : Nat) (s : State) : (complete len s).stage = s.stage := rfl
@[simp] theorem complete_schedule (len : Nat) (s : State) : (complete len s).schedule = s.schedule := rfl
@[simp] theorem complete_hostData (len : Nat) (s : State) : (complete len s).hostData = s.hostData := rfl
@[simp] theorem complete_freeCount (len : Nat) (s : State) : (complete len s).freeCount = s.freeCount := rfl

/-! ### UPDATE and the `prev` write of the encoder -/

@[simp] theorem recordPixel_cfg (s : State) : (recordPixel s).cfg = s.cfg := rfl
@[simp] theorem recordPixel_mode (s : State) : (recordPixel s).mode = s.mode := rfl
@[simp] theorem recordPixel_ie (s : State) : (recordPixel s).ie = s.ie := rfl
@[simp] theorem recordPixel_done (s : State) : (recordPixel s).done = s.done := rfl
@[simp] theorem recordPixel_err (s : State) : (recordPixel s).err = s.err := rfl
@[simp] theorem recordPixel_alpha3 (s : State) : (recordPixel s).alpha3 = s.alpha3 := rfl
@[simp] theorem recordPixel_errcode (s : State) : (recordPixel s).errcode = s.errcode := rfl
@[simp] theorem recordPixel_width (s : State) : (recordPixel s).width = s.width := rfl
@[simp] theorem recordPixel_height (s : State) : (recordPixel s).height = s.height := rfl
@[simp] theorem recordPixel_channels (s : State) : (recordPixel s).channels = s.channels := rfl
@[simp] theorem recordPixel_colorspace (s : State) : (recordPixel s).colorspace = s.colorspace := rfl
@[simp] theorem recordPixel_srcAddr (s : State) : (recordPixel s).srcAddr = s.srcAddr := rfl
@[simp] theorem recordPixel_srcLen (s : State) : (recordPixel s).srcLen = s.srcLen := rfl
@[simp] theorem recordPixel_dstAddr (s : State) : (recordPixel s).dstAddr = s.dstAddr := rfl
@[simp] theorem recordPixel_dstCap (s : State) : (recordPixel s).dstCap = s.dstCap := rfl
@[simp] theorem recordPixel_outLen (s : State) : (recordPixel s).outLen = s.outLen := rfl
@[simp] theorem recordPixel_phase (s : State) : (recordPixel s).phase = s.phase := rfl
@[simp] theorem recordPixel_prev (s : State) : (recordPixel s).prev = s.px := rfl
@[simp] theorem recordPixel_px (s : State) : (recordPixel s).px = s.px := rfl
@[simp] theorem recordPixel_run (s : State) : (recordPixel s).run = s.run := rfl
@[simp] theorem recordPixel_i (s : State) : (recordPixel s).i = s.i := rfl
@[simp] theorem recordPixel_q (s : State) : (recordPixel s).q = s.q := rfl
@[simp] theorem recordPixel_p (s : State) : (recordPixel s).p = s.p := rfl
@[simp] theorem recordPixel_n (s : State) : (recordPixel s).n = s.n := rfl
@[simp] theorem recordPixel_endOff (s : State) : (recordPixel s).endOff = s.endOff := rfl
@[simp] theorem recordPixel_table (s : State) : (recordPixel s).table = update s.table s.px := rfl
@[simp] theorem recordPixel_mem (s : State) : (recordPixel s).mem = s.mem := rfl
@[simp] theorem recordPixel_stage (s : State) : (recordPixel s).stage = s.stage := rfl
@[simp] theorem recordPixel_schedule (s : State) : (recordPixel s).schedule = s.schedule := rfl
@[simp] theorem recordPixel_hostData (s : State) : (recordPixel s).hostData = s.hostData := rfl
@[simp] theorem recordPixel_freeCount (s : State) : (recordPixel s).freeCount = s.freeCount := rfl

/-! ### The header's result latch -/

@[simp] theorem latchHeader_cfg (w h : Word) (c cs : Byte) (s : State) : (latchHeader w h c cs s).cfg = s.cfg := rfl
@[simp] theorem latchHeader_mode (w h : Word) (c cs : Byte) (s : State) : (latchHeader w h c cs s).mode = s.mode := rfl
@[simp] theorem latchHeader_ie (w h : Word) (c cs : Byte) (s : State) : (latchHeader w h c cs s).ie = s.ie := rfl
@[simp] theorem latchHeader_done (w h : Word) (c cs : Byte) (s : State) : (latchHeader w h c cs s).done = s.done := rfl
@[simp] theorem latchHeader_err (w h : Word) (c cs : Byte) (s : State) : (latchHeader w h c cs s).err = s.err := rfl
@[simp] theorem latchHeader_alpha3 (w h : Word) (c cs : Byte) (s : State) : (latchHeader w h c cs s).alpha3 = s.alpha3 := rfl
@[simp] theorem latchHeader_errcode (w h : Word) (c cs : Byte) (s : State) : (latchHeader w h c cs s).errcode = s.errcode := rfl
@[simp] theorem latchHeader_width (w h : Word) (c cs : Byte) (s : State) : (latchHeader w h c cs s).width = w := rfl
@[simp] theorem latchHeader_height (w h : Word) (c cs : Byte) (s : State) : (latchHeader w h c cs s).height = h := rfl
@[simp] theorem latchHeader_channels (w h : Word) (c cs : Byte) (s : State) : (latchHeader w h c cs s).channels = c := rfl
@[simp] theorem latchHeader_colorspace (w h : Word) (c cs : Byte) (s : State) : (latchHeader w h c cs s).colorspace = cs := rfl
@[simp] theorem latchHeader_srcAddr (w h : Word) (c cs : Byte) (s : State) : (latchHeader w h c cs s).srcAddr = s.srcAddr := rfl
@[simp] theorem latchHeader_srcLen (w h : Word) (c cs : Byte) (s : State) : (latchHeader w h c cs s).srcLen = s.srcLen := rfl
@[simp] theorem latchHeader_dstAddr (w h : Word) (c cs : Byte) (s : State) : (latchHeader w h c cs s).dstAddr = s.dstAddr := rfl
@[simp] theorem latchHeader_dstCap (w h : Word) (c cs : Byte) (s : State) : (latchHeader w h c cs s).dstCap = s.dstCap := rfl
@[simp] theorem latchHeader_outLen (w h : Word) (c cs : Byte) (s : State) : (latchHeader w h c cs s).outLen = s.outLen := rfl
@[simp] theorem latchHeader_phase (w h : Word) (c cs : Byte) (s : State) : (latchHeader w h c cs s).phase = s.phase := rfl
@[simp] theorem latchHeader_prev (w h : Word) (c cs : Byte) (s : State) : (latchHeader w h c cs s).prev = s.prev := rfl
@[simp] theorem latchHeader_px (w h : Word) (c cs : Byte) (s : State) : (latchHeader w h c cs s).px = s.px := rfl
@[simp] theorem latchHeader_run (w h : Word) (c cs : Byte) (s : State) : (latchHeader w h c cs s).run = s.run := rfl
@[simp] theorem latchHeader_i (w h : Word) (c cs : Byte) (s : State) : (latchHeader w h c cs s).i = s.i := rfl
@[simp] theorem latchHeader_q (w h : Word) (c cs : Byte) (s : State) : (latchHeader w h c cs s).q = s.q := rfl
@[simp] theorem latchHeader_p (w h : Word) (c cs : Byte) (s : State) : (latchHeader w h c cs s).p = s.p := rfl
@[simp] theorem latchHeader_n (w h : Word) (c cs : Byte) (s : State) : (latchHeader w h c cs s).n = s.n := rfl
@[simp] theorem latchHeader_endOff (w h : Word) (c cs : Byte) (s : State) : (latchHeader w h c cs s).endOff = s.endOff := rfl
@[simp] theorem latchHeader_table (w h : Word) (c cs : Byte) (s : State) : (latchHeader w h c cs s).table = s.table := rfl
@[simp] theorem latchHeader_mem (w h : Word) (c cs : Byte) (s : State) : (latchHeader w h c cs s).mem = s.mem := rfl
@[simp] theorem latchHeader_stage (w h : Word) (c cs : Byte) (s : State) : (latchHeader w h c cs s).stage = s.stage := rfl
@[simp] theorem latchHeader_schedule (w h : Word) (c cs : Byte) (s : State) : (latchHeader w h c cs s).schedule = s.schedule := rfl
@[simp] theorem latchHeader_hostData (w h : Word) (c cs : Byte) (s : State) : (latchHeader w h c cs s).hostData = s.hostData := rfl
@[simp] theorem latchHeader_freeCount (w h : Word) (c cs : Byte) (s : State) : (latchHeader w h c cs s).freeCount = s.freeCount := rfl

/-! ### The ALPHA3 flag -/

@[simp] theorem noteAlpha_cfg (s : State) : (noteAlpha s).cfg = s.cfg := by
  unfold noteAlpha; split <;> simp_all
@[simp] theorem noteAlpha_mode (s : State) : (noteAlpha s).mode = s.mode := by
  unfold noteAlpha; split <;> simp_all
@[simp] theorem noteAlpha_ie (s : State) : (noteAlpha s).ie = s.ie := by
  unfold noteAlpha; split <;> simp_all
@[simp] theorem noteAlpha_done (s : State) : (noteAlpha s).done = s.done := by
  unfold noteAlpha; split <;> simp_all
@[simp] theorem noteAlpha_err (s : State) : (noteAlpha s).err = s.err := by
  unfold noteAlpha; split <;> simp_all
@[simp] theorem noteAlpha_alpha3 (s : State) : (noteAlpha s).alpha3 = (s.alpha3 || (decide (s.channels = 3) && decide (s.prev.a ≠ 255))) := by
  unfold noteAlpha; split <;> simp_all
@[simp] theorem noteAlpha_errcode (s : State) : (noteAlpha s).errcode = s.errcode := by
  unfold noteAlpha; split <;> simp_all
@[simp] theorem noteAlpha_width (s : State) : (noteAlpha s).width = s.width := by
  unfold noteAlpha; split <;> simp_all
@[simp] theorem noteAlpha_height (s : State) : (noteAlpha s).height = s.height := by
  unfold noteAlpha; split <;> simp_all
@[simp] theorem noteAlpha_channels (s : State) : (noteAlpha s).channels = s.channels := by
  unfold noteAlpha; split <;> simp_all
@[simp] theorem noteAlpha_colorspace (s : State) : (noteAlpha s).colorspace = s.colorspace := by
  unfold noteAlpha; split <;> simp_all
@[simp] theorem noteAlpha_srcAddr (s : State) : (noteAlpha s).srcAddr = s.srcAddr := by
  unfold noteAlpha; split <;> simp_all
@[simp] theorem noteAlpha_srcLen (s : State) : (noteAlpha s).srcLen = s.srcLen := by
  unfold noteAlpha; split <;> simp_all
@[simp] theorem noteAlpha_dstAddr (s : State) : (noteAlpha s).dstAddr = s.dstAddr := by
  unfold noteAlpha; split <;> simp_all
@[simp] theorem noteAlpha_dstCap (s : State) : (noteAlpha s).dstCap = s.dstCap := by
  unfold noteAlpha; split <;> simp_all
@[simp] theorem noteAlpha_outLen (s : State) : (noteAlpha s).outLen = s.outLen := by
  unfold noteAlpha; split <;> simp_all
@[simp] theorem noteAlpha_phase (s : State) : (noteAlpha s).phase = s.phase := by
  unfold noteAlpha; split <;> simp_all
@[simp] theorem noteAlpha_prev (s : State) : (noteAlpha s).prev = s.prev := by
  unfold noteAlpha; split <;> simp_all
@[simp] theorem noteAlpha_px (s : State) : (noteAlpha s).px = s.px := by
  unfold noteAlpha; split <;> simp_all
@[simp] theorem noteAlpha_run (s : State) : (noteAlpha s).run = s.run := by
  unfold noteAlpha; split <;> simp_all
@[simp] theorem noteAlpha_i (s : State) : (noteAlpha s).i = s.i := by
  unfold noteAlpha; split <;> simp_all
@[simp] theorem noteAlpha_q (s : State) : (noteAlpha s).q = s.q := by
  unfold noteAlpha; split <;> simp_all
@[simp] theorem noteAlpha_p (s : State) : (noteAlpha s).p = s.p := by
  unfold noteAlpha; split <;> simp_all
@[simp] theorem noteAlpha_n (s : State) : (noteAlpha s).n = s.n := by
  unfold noteAlpha; split <;> simp_all
@[simp] theorem noteAlpha_endOff (s : State) : (noteAlpha s).endOff = s.endOff := by
  unfold noteAlpha; split <;> simp_all
@[simp] theorem noteAlpha_table (s : State) : (noteAlpha s).table = s.table := by
  unfold noteAlpha; split <;> simp_all
@[simp] theorem noteAlpha_mem (s : State) : (noteAlpha s).mem = s.mem := by
  unfold noteAlpha; split <;> simp_all
@[simp] theorem noteAlpha_stage (s : State) : (noteAlpha s).stage = s.stage := by
  unfold noteAlpha; split <;> simp_all
@[simp] theorem noteAlpha_schedule (s : State) : (noteAlpha s).schedule = s.schedule := by
  unfold noteAlpha; split <;> simp_all
@[simp] theorem noteAlpha_hostData (s : State) : (noteAlpha s).hostData = s.hostData := by
  unfold noteAlpha; split <;> simp_all
@[simp] theorem noteAlpha_freeCount (s : State) : (noteAlpha s).freeCount = s.freeCount := by
  unfold noteAlpha; split <;> simp_all

/-! ### A host write to STATUS -/

@[simp] theorem clearStatus_cfg (v : Word) (s : State) : (clearStatus v s).cfg = s.cfg := rfl
@[simp] theorem clearStatus_mode (v : Word) (s : State) : (clearStatus v s).mode = s.mode := rfl
@[simp] theorem clearStatus_ie (v : Word) (s : State) : (clearStatus v s).ie = s.ie := rfl
@[simp] theorem clearStatus_done (v : Word) (s : State) : (clearStatus v s).done = (s.done && !v.getLsbD 1) := rfl
@[simp] theorem clearStatus_err (v : Word) (s : State) : (clearStatus v s).err = (s.err && !v.getLsbD 2) := rfl
@[simp] theorem clearStatus_alpha3 (v : Word) (s : State) : (clearStatus v s).alpha3 = (s.alpha3 && !v.getLsbD 3) := rfl
@[simp] theorem clearStatus_errcode (v : Word) (s : State) : (clearStatus v s).errcode = s.errcode := rfl
@[simp] theorem clearStatus_width (v : Word) (s : State) : (clearStatus v s).width = s.width := rfl
@[simp] theorem clearStatus_height (v : Word) (s : State) : (clearStatus v s).height = s.height := rfl
@[simp] theorem clearStatus_channels (v : Word) (s : State) : (clearStatus v s).channels = s.channels := rfl
@[simp] theorem clearStatus_colorspace (v : Word) (s : State) : (clearStatus v s).colorspace = s.colorspace := rfl
@[simp] theorem clearStatus_srcAddr (v : Word) (s : State) : (clearStatus v s).srcAddr = s.srcAddr := rfl
@[simp] theorem clearStatus_srcLen (v : Word) (s : State) : (clearStatus v s).srcLen = s.srcLen := rfl
@[simp] theorem clearStatus_dstAddr (v : Word) (s : State) : (clearStatus v s).dstAddr = s.dstAddr := rfl
@[simp] theorem clearStatus_dstCap (v : Word) (s : State) : (clearStatus v s).dstCap = s.dstCap := rfl
@[simp] theorem clearStatus_outLen (v : Word) (s : State) : (clearStatus v s).outLen = s.outLen := rfl
@[simp] theorem clearStatus_phase (v : Word) (s : State) : (clearStatus v s).phase = s.phase := rfl
@[simp] theorem clearStatus_prev (v : Word) (s : State) : (clearStatus v s).prev = s.prev := rfl
@[simp] theorem clearStatus_px (v : Word) (s : State) : (clearStatus v s).px = s.px := rfl
@[simp] theorem clearStatus_run (v : Word) (s : State) : (clearStatus v s).run = s.run := rfl
@[simp] theorem clearStatus_i (v : Word) (s : State) : (clearStatus v s).i = s.i := rfl
@[simp] theorem clearStatus_q (v : Word) (s : State) : (clearStatus v s).q = s.q := rfl
@[simp] theorem clearStatus_p (v : Word) (s : State) : (clearStatus v s).p = s.p := rfl
@[simp] theorem clearStatus_n (v : Word) (s : State) : (clearStatus v s).n = s.n := rfl
@[simp] theorem clearStatus_endOff (v : Word) (s : State) : (clearStatus v s).endOff = s.endOff := rfl
@[simp] theorem clearStatus_table (v : Word) (s : State) : (clearStatus v s).table = s.table := rfl
@[simp] theorem clearStatus_mem (v : Word) (s : State) : (clearStatus v s).mem = s.mem := rfl
@[simp] theorem clearStatus_stage (v : Word) (s : State) : (clearStatus v s).stage = s.stage := rfl
@[simp] theorem clearStatus_schedule (v : Word) (s : State) : (clearStatus v s).schedule = s.schedule := rfl
@[simp] theorem clearStatus_hostData (v : Word) (s : State) : (clearStatus v s).hostData = s.hostData := rfl
@[simp] theorem clearStatus_freeCount (v : Word) (s : State) : (clearStatus v s).freeCount = s.freeCount := rfl

/-! ### A host write to CTRL without START -/

@[simp] theorem storeCtrl_cfg (v : Word) (s : State) : (storeCtrl v s).cfg = s.cfg := rfl
@[simp] theorem storeCtrl_mode (v : Word) (s : State) : (storeCtrl v s).mode = if s.busy then s.mode else if v.getLsbD 1 then .decode else .encode := rfl
@[simp] theorem storeCtrl_ie (v : Word) (s : State) : (storeCtrl v s).ie = v.getLsbD 2 := rfl
@[simp] theorem storeCtrl_done (v : Word) (s : State) : (storeCtrl v s).done = s.done := rfl
@[simp] theorem storeCtrl_err (v : Word) (s : State) : (storeCtrl v s).err = s.err := rfl
@[simp] theorem storeCtrl_alpha3 (v : Word) (s : State) : (storeCtrl v s).alpha3 = s.alpha3 := rfl
@[simp] theorem storeCtrl_errcode (v : Word) (s : State) : (storeCtrl v s).errcode = s.errcode := rfl
@[simp] theorem storeCtrl_width (v : Word) (s : State) : (storeCtrl v s).width = s.width := rfl
@[simp] theorem storeCtrl_height (v : Word) (s : State) : (storeCtrl v s).height = s.height := rfl
@[simp] theorem storeCtrl_channels (v : Word) (s : State) : (storeCtrl v s).channels = s.channels := rfl
@[simp] theorem storeCtrl_colorspace (v : Word) (s : State) : (storeCtrl v s).colorspace = s.colorspace := rfl
@[simp] theorem storeCtrl_srcAddr (v : Word) (s : State) : (storeCtrl v s).srcAddr = s.srcAddr := rfl
@[simp] theorem storeCtrl_srcLen (v : Word) (s : State) : (storeCtrl v s).srcLen = s.srcLen := rfl
@[simp] theorem storeCtrl_dstAddr (v : Word) (s : State) : (storeCtrl v s).dstAddr = s.dstAddr := rfl
@[simp] theorem storeCtrl_dstCap (v : Word) (s : State) : (storeCtrl v s).dstCap = s.dstCap := rfl
@[simp] theorem storeCtrl_outLen (v : Word) (s : State) : (storeCtrl v s).outLen = s.outLen := rfl
@[simp] theorem storeCtrl_phase (v : Word) (s : State) : (storeCtrl v s).phase = s.phase := rfl
@[simp] theorem storeCtrl_prev (v : Word) (s : State) : (storeCtrl v s).prev = s.prev := rfl
@[simp] theorem storeCtrl_px (v : Word) (s : State) : (storeCtrl v s).px = s.px := rfl
@[simp] theorem storeCtrl_run (v : Word) (s : State) : (storeCtrl v s).run = s.run := rfl
@[simp] theorem storeCtrl_i (v : Word) (s : State) : (storeCtrl v s).i = s.i := rfl
@[simp] theorem storeCtrl_q (v : Word) (s : State) : (storeCtrl v s).q = s.q := rfl
@[simp] theorem storeCtrl_p (v : Word) (s : State) : (storeCtrl v s).p = s.p := rfl
@[simp] theorem storeCtrl_n (v : Word) (s : State) : (storeCtrl v s).n = s.n := rfl
@[simp] theorem storeCtrl_endOff (v : Word) (s : State) : (storeCtrl v s).endOff = s.endOff := rfl
@[simp] theorem storeCtrl_table (v : Word) (s : State) : (storeCtrl v s).table = s.table := rfl
@[simp] theorem storeCtrl_mem (v : Word) (s : State) : (storeCtrl v s).mem = s.mem := rfl
@[simp] theorem storeCtrl_stage (v : Word) (s : State) : (storeCtrl v s).stage = s.stage := rfl
@[simp] theorem storeCtrl_schedule (v : Word) (s : State) : (storeCtrl v s).schedule = s.schedule := rfl
@[simp] theorem storeCtrl_hostData (v : Word) (s : State) : (storeCtrl v s).hostData = s.hostData := rfl
@[simp] theorem storeCtrl_freeCount (v : Word) (s : State) : (storeCtrl v s).freeCount = s.freeCount := rfl

/-! ### The initial state of an operation -/

@[simp] theorem freshOperation_encode_cfg (s : State) : (freshOperation .encode s).cfg = s.cfg := rfl
@[simp] theorem freshOperation_encode_mode (s : State) : (freshOperation .encode s).mode = s.mode := rfl
@[simp] theorem freshOperation_encode_ie (s : State) : (freshOperation .encode s).ie = s.ie := rfl
@[simp] theorem freshOperation_encode_done (s : State) : (freshOperation .encode s).done = s.done := rfl
@[simp] theorem freshOperation_encode_err (s : State) : (freshOperation .encode s).err = s.err := rfl
@[simp] theorem freshOperation_encode_alpha3 (s : State) : (freshOperation .encode s).alpha3 = s.alpha3 := rfl
@[simp] theorem freshOperation_encode_errcode (s : State) : (freshOperation .encode s).errcode = s.errcode := rfl
@[simp] theorem freshOperation_encode_width (s : State) : (freshOperation .encode s).width = s.width := rfl
@[simp] theorem freshOperation_encode_height (s : State) : (freshOperation .encode s).height = s.height := rfl
@[simp] theorem freshOperation_encode_channels (s : State) : (freshOperation .encode s).channels = s.channels := rfl
@[simp] theorem freshOperation_encode_colorspace (s : State) : (freshOperation .encode s).colorspace = s.colorspace := rfl
@[simp] theorem freshOperation_encode_srcAddr (s : State) : (freshOperation .encode s).srcAddr = s.srcAddr := rfl
@[simp] theorem freshOperation_encode_srcLen (s : State) : (freshOperation .encode s).srcLen = s.srcLen := rfl
@[simp] theorem freshOperation_encode_dstAddr (s : State) : (freshOperation .encode s).dstAddr = s.dstAddr := rfl
@[simp] theorem freshOperation_encode_dstCap (s : State) : (freshOperation .encode s).dstCap = s.dstCap := rfl
@[simp] theorem freshOperation_encode_outLen (s : State) : (freshOperation .encode s).outLen = s.outLen := rfl
@[simp] theorem freshOperation_encode_phase (s : State) : (freshOperation .encode s).phase = s.phase := rfl
@[simp] theorem freshOperation_encode_prev (s : State) : (freshOperation .encode s).prev = opaqueBlack := rfl
@[simp] theorem freshOperation_encode_px (s : State) : (freshOperation .encode s).px = s.px := rfl
@[simp] theorem freshOperation_encode_run (s : State) : (freshOperation .encode s).run = 0 := rfl
@[simp] theorem freshOperation_encode_i (s : State) : (freshOperation .encode s).i = 0 := rfl
@[simp] theorem freshOperation_encode_q (s : State) : (freshOperation .encode s).q = 0 := rfl
@[simp] theorem freshOperation_encode_p (s : State) : (freshOperation .encode s).p = s.p := rfl
@[simp] theorem freshOperation_encode_n (s : State) : (freshOperation .encode s).n = s.n := rfl
@[simp] theorem freshOperation_encode_endOff (s : State) : (freshOperation .encode s).endOff = s.endOff := rfl
@[simp] theorem freshOperation_encode_table (s : State) : (freshOperation .encode s).table = Vector.replicate 64 zeroPixel := rfl
@[simp] theorem freshOperation_encode_mem (s : State) : (freshOperation .encode s).mem = s.mem := rfl
@[simp] theorem freshOperation_encode_stage (s : State) : (freshOperation .encode s).stage = s.stage := rfl
@[simp] theorem freshOperation_encode_schedule (s : State) : (freshOperation .encode s).schedule = s.schedule := rfl
@[simp] theorem freshOperation_encode_hostData (s : State) : (freshOperation .encode s).hostData = s.hostData := rfl
@[simp] theorem freshOperation_encode_freeCount (s : State) : (freshOperation .encode s).freeCount = s.freeCount := rfl

@[simp] theorem freshOperation_decode_cfg (s : State) : (freshOperation .decode s).cfg = s.cfg := rfl
@[simp] theorem freshOperation_decode_mode (s : State) : (freshOperation .decode s).mode = s.mode := rfl
@[simp] theorem freshOperation_decode_ie (s : State) : (freshOperation .decode s).ie = s.ie := rfl
@[simp] theorem freshOperation_decode_done (s : State) : (freshOperation .decode s).done = s.done := rfl
@[simp] theorem freshOperation_decode_err (s : State) : (freshOperation .decode s).err = s.err := rfl
@[simp] theorem freshOperation_decode_alpha3 (s : State) : (freshOperation .decode s).alpha3 = s.alpha3 := rfl
@[simp] theorem freshOperation_decode_errcode (s : State) : (freshOperation .decode s).errcode = s.errcode := rfl
@[simp] theorem freshOperation_decode_width (s : State) : (freshOperation .decode s).width = s.width := rfl
@[simp] theorem freshOperation_decode_height (s : State) : (freshOperation .decode s).height = s.height := rfl
@[simp] theorem freshOperation_decode_channels (s : State) : (freshOperation .decode s).channels = s.channels := rfl
@[simp] theorem freshOperation_decode_colorspace (s : State) : (freshOperation .decode s).colorspace = s.colorspace := rfl
@[simp] theorem freshOperation_decode_srcAddr (s : State) : (freshOperation .decode s).srcAddr = s.srcAddr := rfl
@[simp] theorem freshOperation_decode_srcLen (s : State) : (freshOperation .decode s).srcLen = s.srcLen := rfl
@[simp] theorem freshOperation_decode_dstAddr (s : State) : (freshOperation .decode s).dstAddr = s.dstAddr := rfl
@[simp] theorem freshOperation_decode_dstCap (s : State) : (freshOperation .decode s).dstCap = s.dstCap := rfl
@[simp] theorem freshOperation_decode_outLen (s : State) : (freshOperation .decode s).outLen = s.outLen := rfl
@[simp] theorem freshOperation_decode_phase (s : State) : (freshOperation .decode s).phase = s.phase := rfl
@[simp] theorem freshOperation_decode_prev (s : State) : (freshOperation .decode s).prev = opaqueBlack := rfl
@[simp] theorem freshOperation_decode_px (s : State) : (freshOperation .decode s).px = s.px := rfl
@[simp] theorem freshOperation_decode_run (s : State) : (freshOperation .decode s).run = s.run := rfl
@[simp] theorem freshOperation_decode_i (s : State) : (freshOperation .decode s).i = s.i := rfl
@[simp] theorem freshOperation_decode_q (s : State) : (freshOperation .decode s).q = s.q := rfl
@[simp] theorem freshOperation_decode_p (s : State) : (freshOperation .decode s).p = 14 := rfl
@[simp] theorem freshOperation_decode_n (s : State) : (freshOperation .decode s).n = 0 := rfl
@[simp] theorem freshOperation_decode_endOff (s : State) : (freshOperation .decode s).endOff = s.endOff := rfl
@[simp] theorem freshOperation_decode_table (s : State) : (freshOperation .decode s).table = Vector.replicate 64 zeroPixel := rfl
@[simp] theorem freshOperation_decode_mem (s : State) : (freshOperation .decode s).mem = s.mem := rfl
@[simp] theorem freshOperation_decode_stage (s : State) : (freshOperation .decode s).stage = s.stage := rfl
@[simp] theorem freshOperation_decode_schedule (s : State) : (freshOperation .decode s).schedule = s.schedule := rfl
@[simp] theorem freshOperation_decode_hostData (s : State) : (freshOperation .decode s).hostData = s.hostData := rfl
@[simp] theorem freshOperation_decode_freeCount (s : State) : (freshOperation .decode s).freeCount = s.freeCount := rfl

/-! ### The decoder enters the chunk loop -/

@[simp] theorem enterChunkLoop_cfg (s : State) : (enterChunkLoop s).cfg = s.cfg := rfl
@[simp] theorem enterChunkLoop_mode (s : State) : (enterChunkLoop s).mode = s.mode := rfl
@[simp] theorem enterChunkLoop_ie (s : State) : (enterChunkLoop s).ie = s.ie := rfl
@[simp] theorem enterChunkLoop_done (s : State) : (enterChunkLoop s).done = s.done := rfl
@[simp] theorem enterChunkLoop_err (s : State) : (enterChunkLoop s).err = s.err := rfl
@[simp] theorem enterChunkLoop_alpha3 (s : State) : (enterChunkLoop s).alpha3 = s.alpha3 := rfl
@[simp] theorem enterChunkLoop_errcode (s : State) : (enterChunkLoop s).errcode = s.errcode := rfl
@[simp] theorem enterChunkLoop_width (s : State) : (enterChunkLoop s).width = s.width := rfl
@[simp] theorem enterChunkLoop_height (s : State) : (enterChunkLoop s).height = s.height := rfl
@[simp] theorem enterChunkLoop_channels (s : State) : (enterChunkLoop s).channels = s.channels := rfl
@[simp] theorem enterChunkLoop_colorspace (s : State) : (enterChunkLoop s).colorspace = s.colorspace := rfl
@[simp] theorem enterChunkLoop_srcAddr (s : State) : (enterChunkLoop s).srcAddr = s.srcAddr := rfl
@[simp] theorem enterChunkLoop_srcLen (s : State) : (enterChunkLoop s).srcLen = s.srcLen := rfl
@[simp] theorem enterChunkLoop_dstAddr (s : State) : (enterChunkLoop s).dstAddr = s.dstAddr := rfl
@[simp] theorem enterChunkLoop_dstCap (s : State) : (enterChunkLoop s).dstCap = s.dstCap := rfl
@[simp] theorem enterChunkLoop_outLen (s : State) : (enterChunkLoop s).outLen = s.outLen := rfl
@[simp] theorem enterChunkLoop_phase (s : State) : (enterChunkLoop s).phase = s.phase := rfl
@[simp] theorem enterChunkLoop_prev (s : State) : (enterChunkLoop s).prev = opaqueBlack := rfl
@[simp] theorem enterChunkLoop_px (s : State) : (enterChunkLoop s).px = s.px := rfl
@[simp] theorem enterChunkLoop_run (s : State) : (enterChunkLoop s).run = s.run := rfl
@[simp] theorem enterChunkLoop_i (s : State) : (enterChunkLoop s).i = s.i := rfl
@[simp] theorem enterChunkLoop_q (s : State) : (enterChunkLoop s).q = s.q := rfl
@[simp] theorem enterChunkLoop_p (s : State) : (enterChunkLoop s).p = 14 := rfl
@[simp] theorem enterChunkLoop_n (s : State) : (enterChunkLoop s).n = 0 := rfl
@[simp] theorem enterChunkLoop_endOff (s : State) : (enterChunkLoop s).endOff = s.srcLen.toNat - 8 := rfl
@[simp] theorem enterChunkLoop_table (s : State) : (enterChunkLoop s).table = Vector.replicate 64 zeroPixel := rfl
@[simp] theorem enterChunkLoop_mem (s : State) : (enterChunkLoop s).mem = s.mem := rfl
@[simp] theorem enterChunkLoop_stage (s : State) : (enterChunkLoop s).stage = .body := rfl
@[simp] theorem enterChunkLoop_schedule (s : State) : (enterChunkLoop s).schedule = s.schedule := rfl
@[simp] theorem enterChunkLoop_hostData (s : State) : (enterChunkLoop s).hostData = s.hostData := rfl
@[simp] theorem enterChunkLoop_freeCount (s : State) : (enterChunkLoop s).freeCount = s.freeCount := rfl

/-! ### The turn taken -/

@[simp] theorem State.taken_cfg (s : State) : s.taken.cfg = s.cfg := rfl
@[simp] theorem State.taken_mode (s : State) : s.taken.mode = s.mode := rfl
@[simp] theorem State.taken_ie (s : State) : s.taken.ie = s.ie := rfl
@[simp] theorem State.taken_done (s : State) : s.taken.done = s.done := rfl
@[simp] theorem State.taken_err (s : State) : s.taken.err = s.err := rfl
@[simp] theorem State.taken_alpha3 (s : State) : s.taken.alpha3 = s.alpha3 := rfl
@[simp] theorem State.taken_errcode (s : State) : s.taken.errcode = s.errcode := rfl
@[simp] theorem State.taken_width (s : State) : s.taken.width = s.width := rfl
@[simp] theorem State.taken_height (s : State) : s.taken.height = s.height := rfl
@[simp] theorem State.taken_channels (s : State) : s.taken.channels = s.channels := rfl
@[simp] theorem State.taken_colorspace (s : State) : s.taken.colorspace = s.colorspace := rfl
@[simp] theorem State.taken_srcAddr (s : State) : s.taken.srcAddr = s.srcAddr := rfl
@[simp] theorem State.taken_srcLen (s : State) : s.taken.srcLen = s.srcLen := rfl
@[simp] theorem State.taken_dstAddr (s : State) : s.taken.dstAddr = s.dstAddr := rfl
@[simp] theorem State.taken_dstCap (s : State) : s.taken.dstCap = s.dstCap := rfl
@[simp] theorem State.taken_outLen (s : State) : s.taken.outLen = s.outLen := rfl
@[simp] theorem State.taken_phase (s : State) : s.taken.phase = s.phase := rfl
@[simp] theorem State.taken_prev (s : State) : s.taken.prev = s.prev := rfl
@[simp] theorem State.taken_px (s : State) : s.taken.px = s.px := rfl
@[simp] theorem State.taken_run (s : State) : s.taken.run = s.run := rfl
@[simp] theorem State.taken_i (s : State) : s.taken.i = s.i := rfl
@[simp] theorem State.taken_q (s : State) : s.taken.q = s.q := rfl
@[simp] theorem State.taken_p (s : State) : s.taken.p = s.p := rfl
@[simp] theorem State.taken_n (s : State) : s.taken.n = s.n := rfl
@[simp] theorem State.taken_endOff (s : State) : s.taken.endOff = s.endOff := rfl
@[simp] theorem State.taken_table (s : State) : s.taken.table = s.table := rfl
@[simp] theorem State.taken_mem (s : State) : s.taken.mem = s.mem := rfl
@[simp] theorem State.taken_stage (s : State) : s.taken.stage = s.stage := rfl
@[simp] theorem State.taken_schedule (s : State) : s.taken.schedule = s.schedule.tail := rfl
@[simp] theorem State.taken_hostData (s : State) : s.taken.hostData = s.hostData := rfl
@[simp] theorem State.taken_freeCount (s : State) : s.taken.freeCount = s.freeCount := rfl

/-! ### Views -/

theorem busy_eq_false_iff (s : State) : s.busy = false ↔ s.phase = .idle := by simp [State.busy]

theorem busy_eq_true_iff (s : State) : s.busy = true ↔ s.phase ≠ .idle := by simp [State.busy]

@[simp] theorem raise_busy (code : ErrCode) (s : State) : (raise code s).busy = false := rfl

@[simp] theorem complete_busy (len : Nat) (s : State) : (complete len s).busy = false := rfl

@[simp] theorem raise_pixels (code : ErrCode) (s : State) : (raise code s).pixels = s.pixels := rfl

@[simp] theorem raise_chans (code : ErrCode) (s : State) : (raise code s).chans = s.chans := rfl

@[simp] theorem noteAlpha_pixels (s : State) : (noteAlpha s).pixels = s.pixels := by simp [State.pixels]

@[simp] theorem noteAlpha_chans (s : State) : (noteAlpha s).chans = s.chans := by simp [State.chans]

/-- The flag as a record update, whatever it does. -/
theorem noteAlpha_eq (s : State) :
    noteAlpha s = { s with alpha3 := s.alpha3 || (decide (s.channels = 3) && decide (s.prev.a ≠ 255)) } := by
  unfold noteAlpha
  split <;> rename_i h
  · obtain ⟨hc, ha⟩ := h
    have : decide (s.prev.a ≠ 255) = true := by simpa using ha
    rw [this]
    simp [hc]
  · rcases Decidable.not_and_iff_or_not.1 h with h | h <;> simp at h <;> simp [h]

end Sys2Proof.Machine
end

