-- ==== Sys2Proof/Laws/Ops.lean ====
section
/-! SUPPORT. What each shared operation of the engine can do, said once. -/

namespace Sys2Proof.Machine

open Sys2Proof

/-! ### Flow -/

@[simp] theorem Flow.andThen_go (s : State) (f : State → Flow) : (Flow.go s).andThen f = f s := rfl

@[simp] theorem Flow.andThen_stop (s : State) (f : State → Flow) : (Flow.stop s).andThen f = .stop s := rfl

@[simp] theorem Flow.state_go (s : State) : (Flow.go s).state = s := rfl

@[simp] theorem Flow.state_stop (s : State) : (Flow.stop s).state = s := rfl

@[simp] theorem Flow.outcome_eq (x : Flow) : x.outcome = .next x.state := rfl

theorem Flow.state_andThen (x : Flow) (f : State → Flow) :
    (x.andThen f).state = match x with | .go s => (f s).state | .stop s => s := by
  cases x <;> rfl

/-! ### Access conditions -/

theorem noFault_mono {s : State} {k : Access} {a len len' : Nat} (h : noFault s k a len) (hl : len' ≤ len) :
    noFault s k a len' := fun j hj => h j (by omega)

theorem noFault_split {s : State} {k : Access} {a l l' : Nat} (h : noFault s k a (l + l')) :
    noFault s k a l ∧ noFault s k (a + l) l' :=
  ⟨fun j hj => h j (by omega), fun j hj => by rw [Nat.add_assoc]; exact h (l + j) (by omega)⟩

theorem noFault_succ {s : State} {k : Access} {a len : Nat} (h : noFault s k a (len + 1)) :
    portFault s.cfg k a = false ∧ noFault s k (a + 1) len :=
  ⟨h 0 (by omega), fun j hj => by rw [Nat.add_assoc, Nat.add_comm 1 j]; exact h (j + 1) (by omega)⟩

theorem holdsAt_cons {m : Memory} {a : Nat} {b : Byte} {bs : List Byte} (h : holdsAt m a (b :: bs)) :
    m.read a = b ∧ holdsAt m (a + 1) bs :=
  ⟨h 0 (by simp), fun j hj => by
    rw [Nat.add_assoc, Nat.add_comm 1 j]
    exact h (j + 1) (by simpa using hj)⟩

/-! ### Reads -/

theorem memRead_eq (s : State) (a : Nat) (h : portFault s.cfg .read a = false) :
    memRead s a = some (s.mem.read a) := by simp [memRead, h]

theorem memRead_none (s : State) (a : Nat) (h : portFault s.cfg .read a = true) : memRead s a = none := by
  simp [memRead, h]

/-- Reads of bytes that are there give those bytes. -/
theorem memReadList_eq (bs : List Byte) (s : State) (a : Nat) (hf : noFault s .read a bs.length)
    (hb : holdsAt s.mem a bs) : memReadList s a bs.length = some bs := by
  induction bs generalizing a with
  | nil => rfl
  | cons b bs ih =>
    obtain ⟨h0, h1⟩ := noFault_succ hf
    obtain ⟨hb0, hb1⟩ := holdsAt_cons hb
    simp only [List.length_cons, memReadList, memRead_eq s a h0, ih _ h1 hb1, hb0]

/-- A read of several bytes fails when one of them does. -/
theorem memReadList_none (s : State) (len : Nat) (a j : Nat) (hj : j < len)
    (hf : portFault s.cfg .read (a + j) = true) : memReadList s a len = none := by
  induction len generalizing a j with
  | zero => omega
  | succ len ih =>
    rw [memReadList]
    cases h0 : memRead s a with
    | none => rfl
    | some b =>
      cases j with
      | zero => rw [memRead_none s a (by simpa using hf)] at h0; cases h0
      | succ j =>
        have : portFault s.cfg .read (a + 1 + j) = true := by
          rw [← hf]; congr 1; omega
        simp only [ih (a + 1) j (by omega) this]

/-- What a read of several bytes gives, byte by byte. -/
theorem memReadList_some {s : State} {len a : Nat} {bs : List Byte} (h : memReadList s a len = some bs) :
    bs.length = len ∧ noFault s .read a len ∧ holdsAt s.mem a bs := by
  induction len generalizing a bs with
  | zero =>
    cases h
    exact ⟨rfl, fun j hj => by omega, fun j hj => by simp at hj⟩
  | succ len ih =>
    rw [memReadList] at h
    cases h0 : memRead s a with
    | none => rw [h0] at h; cases h
    | some b =>
      rw [h0] at h
      simp only at h
      cases h1 : memReadList s (a + 1) len with
      | none => rw [h1] at h; cases h
      | some cs =>
        rw [h1] at h
        cases h
        obtain ⟨hl, hf, hb⟩ := ih h1
        have hfault : portFault s.cfg .read a = false ∧ s.mem.read a = b := by
          simp only [memRead] at h0
          split at h0
          · cases h0
          · rename_i hn
            exact ⟨by simpa using hn, by simpa using h0⟩
        refine ⟨by simp [hl], fun j hj => ?_, fun j hj => ?_⟩
        · cases j with
          | zero => exact hfault.1
          | succ j =>
            have := hf j (by omega)
            rwa [show a + (j + 1) = a + 1 + j by omega]
        · cases j with
          | zero => exact hfault.2
          | succ j =>
            have := hb j (by simpa using hj)
            rw [show a + (j + 1) = a + 1 + j by omega]
            exact this

/-! ### Writes -/

theorem memWrite_go (a : Nat) (v : Byte) (s : State) (h : portFault s.cfg .write a = false) :
    memWrite a v s = .go { s with mem := s.mem.write a v } := by simp [memWrite, h]

theorem memWrite_stop (a : Nat) (v : Byte) (s : State) (h : portFault s.cfg .write a = true) :
    memWrite a v s = .stop (raise .busError s) := by simp [memWrite, h, raiseFlow]

theorem memWriteList_go (bs : List Byte) (a : Nat) (s : State) (h : noFault s .write a bs.length) :
    memWriteList a bs s = .go { s with mem := s.mem.writeList a bs } := by
  induction bs generalizing a s with
  | nil => rfl
  | cons b bs ih =>
    obtain ⟨h0, h1⟩ := noFault_succ h
    rw [memWriteList, memWrite_go _ _ _ h0, Flow.andThen_go,
      ih (a + 1) { s with mem := s.mem.write a b } h1]
    rfl

/-- Writes at increasing addresses: all of them, or those before the first that fails. -/
theorem memWriteList_cases (bs : List Byte) (a : Nat) (s : State) :
    (noFault s .write a bs.length ∧ memWriteList a bs s = .go { s with mem := s.mem.writeList a bs }) ∨
      ∃ j < bs.length, noFault s .write a j ∧ portFault s.cfg .write (a + j) = true ∧
        memWriteList a bs s = .stop (raise .busError { s with mem := s.mem.writeList a (bs.take j) }) := by
  induction bs generalizing a s with
  | nil => exact .inl ⟨fun j hj => by simp at hj, rfl⟩
  | cons b bs ih =>
    cases h0 : portFault s.cfg .write a with
    | true =>
      refine .inr ⟨0, by simp, fun j hj => by omega, by simpa using h0, ?_⟩
      rw [memWriteList, memWrite_stop _ _ _ h0]
      rfl
    | false =>
      rw [memWriteList, memWrite_go _ _ _ h0, Flow.andThen_go]
      have first : ∀ len, noFault { s with mem := s.mem.write a b } .write (a + 1) len →
          noFault s .write a (len + 1) := by
        intro len hf j hj
        cases j with
        | zero => exact h0
        | succ j =>
          rw [show a + (j + 1) = a + 1 + j by omega]
          exact hf j (by omega)
      rcases ih (a + 1) { s with mem := s.mem.write a b } with ⟨hf, hgo⟩ | ⟨j, hj, hf, hfail, hstop⟩
      · exact .inl ⟨first _ hf, hgo⟩
      · refine .inr ⟨j + 1, by simpa using hj, first _ hf, ?_, hstop⟩
        rw [show a + (j + 1) = a + 1 + j by omega]
        exact hfail

/-! ### emit -/

theorem emit_overflow (b : Byte) (s : State) (h : s.dstCap.toNat ≤ s.q) :
    emit b s = .stop (raise .dstOverflow s) := by simp [emit, h, raiseFlow]

theorem emit_fault (b : Byte) (s : State) (h : s.q < s.dstCap.toNat)
    (hf : portFault s.cfg .write (s.dstAddr.toNat + s.q) = true) : emit b s = .stop (raise .busError s) := by
  rw [emit, if_neg (by omega), memWrite_stop _ _ _ hf]
  rfl

theorem emit_go (b : Byte) (s : State) (h : s.q < s.dstCap.toNat)
    (hf : portFault s.cfg .write (s.dstAddr.toNat + s.q) = false) :
    emit b s = .go { s with mem := s.mem.write (s.dstAddr.toNat + s.q) b, q := s.q + 1 } := by
  rw [emit, if_neg (by omega), memWrite_go _ _ _ hf]
  rfl

theorem emitList_go (bs : List Byte) (s : State) (hq : s.q + bs.length ≤ s.dstCap.toNat)
    (hf : noFault s .write (s.dstAddr.toNat + s.q) bs.length) :
    emitList bs s =
      .go { s with mem := s.mem.writeList (s.dstAddr.toNat + s.q) bs, q := s.q + bs.length } := by
  induction bs generalizing s with
  | nil => rfl
  | cons b bs ih =>
    obtain ⟨h0, h1⟩ := noFault_succ hf
    simp only [List.length_cons] at hq
    rw [emitList, emit_go _ _ (by omega) h0, Flow.andThen_go, ih _ (by simp only; omega) h1]
    simp only [Memory.writeList, List.length_cons]
    congr 2
    omega

/-- `emit` of several bytes: all of them, or those before the first that does not fit or fails. -/
theorem emitList_cases (bs : List Byte) (s : State) :
    (s.q + bs.length ≤ max s.q s.dstCap.toNat ∧ noFault s .write (s.dstAddr.toNat + s.q) bs.length ∧
        emitList bs s =
          .go { s with mem := s.mem.writeList (s.dstAddr.toNat + s.q) bs, q := s.q + bs.length }) ∨
      ∃ j < bs.length, ∃ code,
        s.q + j ≤ max s.q s.dstCap.toNat ∧
        ((code = .dstOverflow ∧ s.dstCap.toNat ≤ s.q + j) ∨
          (code = .busError ∧ s.q + j < s.dstCap.toNat ∧
            portFault s.cfg .write (s.dstAddr.toNat + (s.q + j)) = true)) ∧
        emitList bs s =
          .stop (raise code
            { s with mem := s.mem.writeList (s.dstAddr.toNat + s.q) (bs.take j), q := s.q + j }) := by
  induction bs generalizing s with
  | nil => exact .inl ⟨by simp, fun j hj => by simp at hj, rfl⟩
  | cons b bs ih =>
    by_cases hq : s.dstCap.toNat ≤ s.q
    · refine .inr ⟨0, by simp, .dstOverflow, by omega, .inl ⟨rfl, hq⟩, ?_⟩
      rw [emitList, emit_overflow _ _ hq]
      rfl
    · cases h0 : portFault s.cfg .write (s.dstAddr.toNat + s.q) with
      | true =>
        refine .inr ⟨0, by simp, .busError, by omega, .inr ⟨rfl, by omega, h0⟩, ?_⟩
        rw [emitList, emit_fault _ _ (by omega) h0]
        rfl
      | false =>
        rw [emitList, emit_go _ _ (by omega) h0, Flow.andThen_go]
        rcases ih { s with mem := s.mem.write (s.dstAddr.toNat + s.q) b, q := s.q + 1 } with
          ⟨hl, hf, hgo⟩ | ⟨j, hj, code, hl, hc, hstop⟩
        · simp only at hl hf hgo
          refine .inl ⟨by simp only [List.length_cons]; omega, fun j hj => ?_, ?_⟩
          · cases j with
            | zero => exact h0
            | succ j =>
              have := hf j (by simpa using hj)
              rwa [show s.dstAddr.toNat + s.q + (j + 1) = s.dstAddr.toNat + (s.q + 1) + j by omega]
          · rw [hgo]
            simp only [Memory.writeList, List.length_cons]
            congr 2
            omega
        · simp only at hl hc hstop
          refine .inr ⟨j + 1, by simpa using hj, code, by omega, ?_, ?_⟩
          · rw [show s.q + (j + 1) = s.q + 1 + j by omega]
            exact hc
          · rw [hstop]
            simp only [List.take_succ_cons, Memory.writeList]
            congr 3
            omega

/-! ### write_pixel -/

theorem pixelBytes_length {c : Byte} (P : Pixel) (h : goodChannels c = true) :
    (pixelBytes c P).length = c.toNat := by
  simp only [goodChannels, Bool.or_eq_true, decide_eq_true_eq] at h
  rcases h with rfl | rfl <;> rfl

theorem pixelRun_length {c : Byte} (P : Pixel) (k : Nat) (h : goodChannels c = true) :
    (pixelRun c P k).length = k * c.toNat := by
  induction k with
  | zero => simp [pixelRun]
  | succ k ih => simp [pixelRun, ih, pixelBytes_length P h, Nat.succ_mul, Nat.add_comm]

theorem writePixel_go (P : Pixel) (s : State)
    (h : noFault s .write (s.dstAddr.toNat + s.n * s.chans) (pixelBytes s.channels P).length) :
    writePixel P s =
      .go { s with
        mem := s.mem.writeList (s.dstAddr.toNat + s.n * s.chans) (pixelBytes s.channels P), n := s.n + 1 } := by
  rw [writePixel, memWriteList_go _ _ _ h]
  rfl

/-- `write_pixel`: the whole pixel, or its bytes before the one that fails. -/
theorem writePixel_cases (P : Pixel) (s : State) :
    (noFault s .write (s.dstAddr.toNat + s.n * s.chans) (pixelBytes s.channels P).length ∧
        writePixel P s =
          .go { s with
            mem := s.mem.writeList (s.dstAddr.toNat + s.n * s.chans) (pixelBytes s.channels P), n := s.n + 1 }) ∨
      ∃ j < (pixelBytes s.channels P).length,
        portFault s.cfg .write (s.dstAddr.toNat + s.n * s.chans + j) = true ∧
        writePixel P s =
          .stop (raise .busError
            { s with
              mem := s.mem.writeList (s.dstAddr.toNat + s.n * s.chans) ((pixelBytes s.channels P).take j) }) := by
  rcases memWriteList_cases (pixelBytes s.channels P) (s.dstAddr.toNat + s.n * s.chans) s with
    ⟨hf, hgo⟩ | ⟨j, hj, _, hfail, hstop⟩
  · exact .inl ⟨hf, by rw [writePixel, hgo]; rfl⟩
  · exact .inr ⟨j, hj, hfail, by rw [writePixel, hstop]; rfl⟩

/-- The state after one whole pixel. -/
def afterPixel (P : Pixel) (s : State) : State :=
  { s with
    mem := s.mem.writeList (s.dstAddr.toNat + s.n * s.chans) (pixelBytes s.channels P), n := s.n + 1 }

theorem afterPixel_base (P : Pixel) (s : State) :
    (afterPixel P s).dstAddr.toNat + (afterPixel P s).n * (afterPixel P s).chans =
      s.dstAddr.toNat + s.n * s.chans + s.chans := by
  simp only [afterPixel, State.chans, Nat.add_one_mul]
  omega

theorem writePixels_go (P : Pixel) (k : Nat) (s : State) (hc : goodChannels s.channels = true)
    (h : noFault s .write (s.dstAddr.toNat + s.n * s.chans) (k * s.chans)) :
    writePixels P k s =
      .go { s with
        mem := s.mem.writeList (s.dstAddr.toNat + s.n * s.chans) (pixelRun s.channels P k), n := s.n + k } := by
  induction k generalizing s with
  | zero => rfl
  | succ k ih =>
    have h' : noFault s .write (s.dstAddr.toNat + s.n * s.chans) (s.chans + k * s.chans) := by
      rwa [Nat.add_one_mul, Nat.add_comm (k * _)] at h
    obtain ⟨h0, h1⟩ := noFault_split h'
    have hl : (pixelBytes s.channels P).length = s.chans := pixelBytes_length P hc
    have hs : noFault (afterPixel P s) .write
        ((afterPixel P s).dstAddr.toNat + (afterPixel P s).n * (afterPixel P s).chans)
        (k * (afterPixel P s).chans) := by
      rw [afterPixel_base]
      exact h1
    rw [writePixels, writePixel_go _ _ (by rw [hl]; exact h0), Flow.andThen_go]
    show writePixels P k (afterPixel P s) = _
    rw [ih (afterPixel P s) hc hs, afterPixel_base]
    simp only [afterPixel, pixelRun, Memory.writeList_append, hl]
    congr 2
    omega

/-- `write_pixel` again and again: all the pixels, or a first part of their bytes. -/
theorem writePixels_cases (P : Pixel) (k : Nat) (s : State) (hc : goodChannels s.channels = true) :
    (noFault s .write (s.dstAddr.toNat + s.n * s.chans) (k * s.chans) ∧
        writePixels P k s =
          .go { s with
            mem := s.mem.writeList (s.dstAddr.toNat + s.n * s.chans) (pixelRun s.channels P k), n := s.n + k }) ∨
      ∃ l n', l < k * s.chans ∧ s.n ≤ n' ∧ n' < s.n + k ∧
        writePixels P k s =
          .stop (raise .busError
            { s with
              mem := s.mem.writeList (s.dstAddr.toNat + s.n * s.chans) ((pixelRun s.channels P k).take l)
              n := n' }) := by
  induction k generalizing s with
  | zero => exact .inl ⟨fun j hj => by simp at hj, rfl⟩
  | succ k ih =>
    have hl : (pixelBytes s.channels P).length = s.chans := pixelBytes_length P hc
    have hmul : (k + 1) * s.chans = s.chans + k * s.chans := by rw [Nat.add_one_mul]; omega
    rw [hmul, writePixels]
    rcases writePixel_cases P s with ⟨hf, hgo⟩ | ⟨j, hj, _, hstop⟩
    · rw [hl] at hf
      rw [hgo, Flow.andThen_go]
      rcases ih (afterPixel P s) hc with ⟨hf', hgo'⟩ | ⟨l, n', hl', hn, hn', hstop'⟩
      · rw [afterPixel_base] at hf' hgo'
        refine .inl ⟨fun j hj => ?_, ?_⟩
        · by_cases hjc : j < s.chans
          · exact hf j hjc
          · have := hf' (j - s.chans) (by show _ < k * s.chans; omega)
            rwa [show s.dstAddr.toNat + s.n * s.chans + s.chans + (j - s.chans) =
              s.dstAddr.toNat + s.n * s.chans + j by omega] at this
        · refine hgo'.trans ?_
          simp only [afterPixel, pixelRun, Memory.writeList_append, hl]
          congr 2
          omega
      · rw [afterPixel_base] at hstop'
        refine .inr ⟨s.chans + l, n', by have : l < k * s.chans := hl'; omega, ?_, ?_, hstop'.trans ?_⟩
        · have : s.n + 1 ≤ n' := hn
          omega
        · have : n' < s.n + 1 + k := hn'
          omega
        · simp only [afterPixel, pixelRun]
          rw [List.take_append, hl, Memory.writeList_append,
            List.take_of_length_le (l := pixelBytes s.channels P) (by omega), hl, Nat.add_sub_cancel_left]
    · rw [hl] at hj
      refine .inr ⟨j, s.n, by omega, by omega, by omega, ?_⟩
      rw [hstop]
      simp only [Flow.andThen_stop, pixelRun]
      rw [List.take_append_of_le_length (by omega)]

/-- `write_pixel` moves memory and `n` alone, for every channel count; what it cannot finish is BUS_ERROR. -/
theorem writePixels_shape (P : Pixel) (k : Nat) (s : State) :
    ∃ m n, writePixels P k s = .go { s with mem := m, n := n } ∨
      writePixels P k s = .stop (raise .busError { s with mem := m, n := n }) := by
  induction k generalizing s with
  | zero => exact ⟨s.mem, s.n, .inl rfl⟩
  | succ k ih =>
    rcases writePixel_cases P s with ⟨_, hgo⟩ | ⟨j, _, _, hstop⟩
    · obtain ⟨m, n, h⟩ := ih (afterPixel P s)
      exact ⟨m, n, by rw [writePixels, hgo]; exact h⟩
    · exact ⟨_, s.n, .inr (by rw [writePixels, hstop]; rfl)⟩

end Sys2Proof.Machine
end

