-- ==== Sys2Proof/Laws/Exec.lean ====
section
/-! SUPPORT. What each meaning can do, said once: every meaning answers a next state, which is one of the few named
here. -/

namespace Sys2Proof.Machine

open Sys2Proof

/-! ### The stream instructions by phase -/

theorem byPhase_encoding {s : State} (enc dec : State → Flow) (h : s.phase = .encoding) :
    byPhase enc dec s = .next (enc s).state := by simp [byPhase, h]

theorem byPhase_decoding {s : State} (enc dec : State → Flow) (h : s.phase = .decoding) :
    byPhase enc dec s = .next (dec s).state := by simp [byPhase, h]

theorem byPhase_idle {s : State} (enc dec : State → Flow) (h : s.phase = .idle) :
    byPhase enc dec s = .next s := by simp [byPhase, h]

theorem byPhase_next (enc dec : State → Flow) (s : State) : ∃ t, byPhase enc dec s = .next t := by
  unfold byPhase
  split <;> exact ⟨_, rfl⟩

/-- Every instruction completes, in every state. -/
theorem exec_next (i : Instr) (s : State) : ∃ t, exec i s = .next t := by
  cases i <;> first | exact byPhase_next _ _ _ | exact ⟨_, rfl⟩

/-- A chunk other than RUN in the decoder. -/
theorem exec_pixelChunk_decoding {i : Instr} {s : State} (hi : i.isPixelChunk = true) (h : s.phase = .decoding) :
    exec i s = .next (decodePixel (encodeBytes i).length (chunkPixel i s) s).state := by
  cases i <;> first | exact byPhase_decoding _ _ h | cases hi

/-- A chunk other than RUN in the encoder. -/
theorem exec_pixelChunk_encoding {i : Instr} {s : State} (hi : i.isPixelChunk = true) (h : s.phase = .encoding) :
    exec i s = .next (emitPixelChunk i s).state := by
  cases i <;> first | exact byPhase_encoding _ _ h | cases hi

theorem exec_run_decoding {count : Nat} {s : State} (h : s.phase = .decoding) :
    exec (.run count) s = .next (decodeRun count s).state := byPhase_decoding _ _ h

theorem exec_run_encoding {count : Nat} {s : State} (h : s.phase = .encoding) :
    exec (.run count) s = .next (emitRun count s).state := byPhase_encoding _ _ h

theorem exec_header_decoding {w h : Word} {c cs : Byte} {s : State} (hp : s.phase = .decoding) :
    exec (.header w h c cs) s = .next (decodeHeaderFields w h c cs s).state := byPhase_decoding _ _ hp

theorem exec_header_encoding {w h : Word} {c cs : Byte} {s : State} (hp : s.phase = .encoding) :
    exec (.header w h c cs) s = .next (emitHeader w h c cs s).state := byPhase_encoding _ _ hp

theorem exec_endMarker_decoding {s : State} (h : s.phase = .decoding) :
    exec .endMarker s = .next (finishDecode s).state := byPhase_decoding _ _ h

theorem exec_endMarker_encoding {s : State} (h : s.phase = .encoding) :
    exec .endMarker s = .next (emitEndMarker s).state := byPhase_encoding _ _ h

/-! ### The decoder's side -/

/-- The state after a chunk other than RUN whose pixel has been written. -/
def afterChunk (len : Nat) (P : Pixel) (s : State) : State :=
  { s with
    prev := P, p := s.p + len, n := s.n + 1, table := update s.table P
    alpha3 := s.alpha3 || (decide (s.channels = 3) && decide (P.a ≠ 255))
    mem := s.mem.writeList (s.dstAddr.toNat + s.n * s.chans) (pixelBytes s.channels P) }

theorem decodePixel_excess (len : Nat) (P : Pixel) (s : State) (h : s.pixels < s.n + 1) :
    decodePixel len P s = .stop (raise .pixelCount { s with prev := P, p := s.p + len }) := by
  have h' : State.pixels { s with prev := P, p := s.p + len } < s.n + 1 := h
  simp only [decodePixel, commonTail, if_pos h', raiseFlow]

theorem decodePixel_go (len : Nat) (P : Pixel) (s : State) (h : s.n + 1 ≤ s.pixels)
    (hf : noFault s .write (s.dstAddr.toNat + s.n * s.chans) (pixelBytes s.channels P).length) :
    decodePixel len P s = .go (afterChunk len P s) := by
  have h' : ¬ State.pixels { s with prev := P, p := s.p + len } < s.n + 1 := by
    show ¬ s.pixels < s.n + 1
    omega
  simp only [decodePixel, commonTail, if_neg h', noteAlpha_eq]
  rw [writePixel_go P
    { s with
      prev := P, p := s.p + len
      alpha3 := s.alpha3 || (decide (s.channels = 3) && decide (P.a ≠ 255)) } hf]
  rfl

/-- A chunk other than RUN in the decoder: too many pixels, or done, or the first bytes of its pixel and BUS_ERROR. -/
theorem decodePixel_cases (len : Nat) (P : Pixel) (s : State) :
    (s.pixels < s.n + 1 ∧
        decodePixel len P s = .stop (raise .pixelCount { s with prev := P, p := s.p + len })) ∨
      (s.n + 1 ≤ s.pixels ∧
        noFault s .write (s.dstAddr.toNat + s.n * s.chans) (pixelBytes s.channels P).length ∧
        decodePixel len P s = .go (afterChunk len P s)) ∨
      (s.n + 1 ≤ s.pixels ∧
        ∃ j < (pixelBytes s.channels P).length,
          portFault s.cfg .write (s.dstAddr.toNat + s.n * s.chans + j) = true ∧
          decodePixel len P s =
            .stop (raise .busError
              { s with
                prev := P, p := s.p + len
                alpha3 := s.alpha3 || (decide (s.channels = 3) && decide (P.a ≠ 255))
                mem := s.mem.writeList (s.dstAddr.toNat + s.n * s.chans)
                  ((pixelBytes s.channels P).take j) })) := by
  by_cases h : s.pixels < s.n + 1
  · exact .inl ⟨h, decodePixel_excess len P s h⟩
  · refine .inr ?_
    have h' : ¬ State.pixels { s with prev := P, p := s.p + len } < s.n + 1 := h
    rcases writePixel_cases P
        { s with
          prev := P, p := s.p + len
          alpha3 := s.alpha3 || (decide (s.channels = 3) && decide (P.a ≠ 255)) } with
      ⟨hf, _⟩ | ⟨j, hj, hfail, hstop⟩
    · exact .inl ⟨by omega, hf, decodePixel_go len P s (by omega) hf⟩
    · refine .inr ⟨by omega, j, hj, hfail, ?_⟩
      simp only [decodePixel, commonTail, if_neg h', noteAlpha_eq]
      rw [hstop]
      rfl

theorem decodeRun_excess (count : Nat) (s : State) (h : s.pixels < s.n + count) :
    decodeRun count s = .stop (raise .pixelCount s) := by simp [decodeRun, h, raiseFlow]

theorem decodeRun_go (count : Nat) (s : State) (hc : goodChannels s.channels = true) (h : s.n + count ≤ s.pixels)
    (hf : noFault s .write (s.dstAddr.toNat + s.n * s.chans) (count * s.chans)) :
    decodeRun count s =
      .go { s with
        p := s.p + 1, n := s.n + count
        mem := s.mem.writeList (s.dstAddr.toNat + s.n * s.chans) (pixelRun s.channels s.prev count) } := by
  rw [decodeRun, if_neg (by omega), writePixels_go _ _ _ hc hf]
  rfl

/-- RUN in the decoder: too many pixels, or done, or a first part of its bytes and BUS_ERROR. -/
theorem decodeRun_cases (count : Nat) (s : State) (hc : goodChannels s.channels = true) :
    (s.pixels < s.n + count ∧ decodeRun count s = .stop (raise .pixelCount s)) ∨
      (s.n + count ≤ s.pixels ∧ noFault s .write (s.dstAddr.toNat + s.n * s.chans) (count * s.chans) ∧
        decodeRun count s =
          .go { s with
            p := s.p + 1, n := s.n + count
            mem := s.mem.writeList (s.dstAddr.toNat + s.n * s.chans) (pixelRun s.channels s.prev count) }) ∨
      (s.n + count ≤ s.pixels ∧
        ∃ l n', l < count * s.chans ∧ s.n ≤ n' ∧ n' < s.n + count ∧
          decodeRun count s =
            .stop (raise .busError
              { s with
                mem := s.mem.writeList (s.dstAddr.toNat + s.n * s.chans)
                  ((pixelRun s.channels s.prev count).take l)
                n := n' })) := by
  by_cases h : s.pixels < s.n + count
  · exact .inl ⟨h, decodeRun_excess count s h⟩
  · refine .inr ?_
    rcases writePixels_cases s.prev count s hc with ⟨hf, _⟩ | ⟨l, n', hl, hn, hn', hstop⟩
    · exact .inl ⟨by omega, hf, decodeRun_go count s hc (by omega) hf⟩
    · refine .inr ⟨by omega, l, n', hl, hn, hn', ?_⟩
      rw [decodeRun, if_neg h, hstop]
      rfl

/-- HEADER in the decoder: a bad channel count, or too small a destination, or the chunk loop. -/
theorem decodeHeaderFields_cases (w h : Word) (c cs : Byte) (s : State) :
    (goodChannels c = false ∧
        decodeHeaderFields w h c cs s = .stop (raise .badChannels (latchHeader w h c cs s))) ∨
      (goodChannels c = true ∧ s.dstCap.toNat < w.toNat * h.toNat * c.toNat ∧
        decodeHeaderFields w h c cs s = .stop (raise .dstOverflow (latchHeader w h c cs s))) ∨
      (goodChannels c = true ∧ w.toNat * h.toNat * c.toNat ≤ s.dstCap.toNat ∧
        decodeHeaderFields w h c cs s = .go (enterChunkLoop (latchHeader w h c cs s))) := by
  have hcap : ∀ n, ((latchHeader w h c cs s).dstCap.toNat < n) = (s.dstCap.toNat < n) := fun _ => rfl
  have hpx : (latchHeader w h c cs s).pixels * (latchHeader w h c cs s).chans = w.toNat * h.toNat * c.toNat := rfl
  cases hg : goodChannels c with
  | false => exact .inl ⟨rfl, by simp [decodeHeaderFields, hg, raiseFlow]⟩
  | true =>
    refine .inr ?_
    by_cases hd : s.dstCap.toNat < w.toNat * h.toNat * c.toNat
    · refine .inl ⟨rfl, hd, ?_⟩
      simp only [decodeHeaderFields, latchHeader_channels, hg, hpx, latchHeader_dstCap, if_pos hd, raiseFlow]
      rfl
    · refine .inr ⟨rfl, by omega, ?_⟩
      simp only [decodeHeaderFields, latchHeader_channels, hg, hpx, latchHeader_dstCap, if_neg hd]
      rfl

/-! ### The encoder's side -/

/-- The state after the bytes of the stream so far. -/
def afterEmit (bs : List Byte) (s : State) : State :=
  { s with mem := s.mem.writeList (s.dstAddr.toNat + s.q) bs, q := s.q + bs.length }

theorem afterEmit_append (bs cs : List Byte) (s : State) :
    afterEmit cs (afterEmit bs s) = afterEmit (bs ++ cs) s := by
  simp only [afterEmit, Memory.writeList_append, List.length_append, Nat.add_assoc]

/-- `emit` of several bytes, in the words of `afterEmit`. -/
theorem emitList_afterEmit (bs : List Byte) (s : State) :
    (s.q + bs.length ≤ max s.q s.dstCap.toNat ∧ noFault s .write (s.dstAddr.toNat + s.q) bs.length ∧
        emitList bs s = .go (afterEmit bs s)) ∨
      ∃ j < bs.length, ∃ code, s.q + j ≤ max s.q s.dstCap.toNat ∧ code ≠ .none ∧
        emitList bs s = .stop (raise code (afterEmit (bs.take j) s)) := by
  rcases emitList_cases bs s with h | ⟨j, hj, code, hq, hc, hstop⟩
  · exact .inl h
  · refine .inr ⟨j, hj, code, hq, ?_, ?_⟩
    · rcases hc with ⟨rfl, _⟩ | ⟨rfl, _⟩ <;> decide
    · rw [hstop]
      simp only [afterEmit, List.length_take, Nat.min_eq_left (Nat.le_of_lt hj)]

/-- `emit` of several bytes, one of which fails: the bytes before it are stored. -/
theorem emitList_fails (bs : List Byte) (s : State) (j : Nat) (code : ErrCode)
    (h : emitFailsAt s bs.length j code) : emitList bs s = .stop (raise code (afterEmit (bs.take j) s)) := by
  obtain ⟨hj, hroom, hf, hc⟩ := h
  induction bs generalizing s j with
  | nil => simp at hj
  | cons b bs ih =>
    cases j with
    | zero =>
      rcases hc with ⟨rfl, hc⟩ | ⟨rfl, hc, hp⟩
      · rw [emitList, emit_overflow _ _ hc]
        rfl
      · rw [emitList, emit_fault _ _ hc hp]
        rfl
    | succ j =>
      obtain ⟨hf0, hf1⟩ := noFault_succ hf
      have hroom' : ∀ k < j, s.q + 1 + k < s.dstCap.toNat := fun k hk => by
        have := hroom (k + 1) (by omega)
        omega
      rw [emitList, emit_go _ _ (hroom 0 (by omega)) hf0, Flow.andThen_go,
        ih _ j (by simpa using hj) hroom' (by exact hf1) (by simpa only [Nat.add_assoc, Nat.add_comm 1 j] using hc)]
      simp only [afterEmit, List.take_succ_cons, Memory.writeList, List.length_cons]
      rw [← Nat.add_assoc, Nat.add_right_comm s.q 1, Nat.add_assoc s.q]

theorem emitPixelChunk_go (i : Instr) (s : State) (hq : s.q + (encodeBytes i).length ≤ s.dstCap.toNat)
    (hf : noFault s .write (s.dstAddr.toNat + s.q) (encodeBytes i).length) :
    emitPixelChunk i s = .go (recordPixel (afterEmit (encodeBytes i) s)) := by
  rw [emitPixelChunk, emitList_go _ _ hq hf]
  rfl

theorem emitRun_go (count : Nat) (s : State) (hq : s.q < s.dstCap.toNat)
    (hf : portFault s.cfg .write (s.dstAddr.toNat + s.q) = false) :
    emitRun count s = .go { afterEmit (encodeBytes (.run count)) s with run := 0 } := by
  have hf' : noFault s .write (s.dstAddr.toNat + s.q) 1 := fun j hj => by
    rw [show j = 0 by omega]
    exact hf
  rw [emitRun, emitList_go _ _ (by simpa [encodeBytes] using hq) hf']
  rfl

end Sys2Proof.Machine
end

