-- ==== Sys2Proof/Laws/Encoder.lean ====
section
/-! SUPPORT. The transitions of ENCODE, case by case: each is one of the states named here. -/

namespace Sys2Proof.Machine

open Sys2Proof

theorem engineTurn_idle {s : State} (h : s.phase = .idle) : engineTurn s = .next s := by simp [engineTurn, h]

theorem engineTurn_encoding {s : State} (h : s.phase = .encoding) : engineTurn s = encodeTransition s := by
  simp [engineTurn, h]

theorem engineTurn_decoding {s : State} (h : s.phase = .decoding) : engineTurn s = decodeTransition s := by
  simp [engineTurn, h]

/-- An ENCODE that has ended with an error after storing `bs`: only the named fields may have moved. -/
def EncodeStopped (s t : State) (P : Pixel) (i : Nat) (run : BitVec 6) (bs : List Byte) : Prop :=
  s.q + bs.length ≤ max s.q s.dstCap.toNat ∧
    ∃ code, code ≠ .none ∧ t = raise code { afterEmit bs s with px := P, i := i, run := run }

/-- The pending run: nothing, or its byte, or an error with nothing written. -/
theorem flushRun_cases (s : State) :
    (s.q + (pendingRun s).length ≤ max s.q s.dstCap.toNat ∧
        noFault s .write (s.dstAddr.toNat + s.q) (pendingRun s).length ∧
        flushRun s = .go { afterEmit (pendingRun s) s with run := 0 }) ∨
      ∃ code, code ≠ .none ∧ flushRun s = .stop (raise code s) := by
  unfold flushRun pendingRun
  split
  · rename_i h
    refine .inl ⟨by simp, fun j hj => by simp at hj, ?_⟩
    have : s = { s with run := 0 } := by rw [← h]
    conv_lhs => rw [this]
    rfl
  · rcases emitList_afterEmit (encodeBytes (.run s.run.toNat)) s with ⟨hq, hf, hgo⟩ | ⟨j, hj, code, _, hc, hstop⟩
    · exact .inl ⟨hq, hf, by rw [emitRun, hgo]; rfl⟩
    · refine .inr ⟨code, hc, ?_⟩
      have : j = 0 := by simpa [encodeBytes] using hj
      subst this
      rw [emitRun, hstop]
      rfl

theorem flushRun_go (s : State) (hq : s.q + (pendingRun s).length ≤ s.dstCap.toNat)
    (hf : noFault s .write (s.dstAddr.toNat + s.q) (pendingRun s).length) :
    flushRun s = .go { afterEmit (pendingRun s) s with run := 0 } := by
  unfold flushRun
  unfold pendingRun at *
  split
  · rename_i h
    have : s = { s with run := 0 } := by rw [← h]
    conv_lhs => rw [this]
    simp [h, afterEmit, Memory.writeList]
  · rename_i h
    rw [if_neg h] at hq hf
    exact emitRun_go _ s (by simp [encodeBytes] at hq; omega) (hf 0 (by simp [encodeBytes]))

/-- The pending run, when its byte fails: nothing is stored. -/
theorem flushRun_fails {s : State} {j : Nat} {code : ErrCode} (h : emitFailsAt s (pendingRun s).length j code) :
    j = 0 ∧ flushRun s = .stop (raise code s) := by
  have hj := h.1
  have e := emitList_fails _ s j code h
  unfold pendingRun at *
  unfold flushRun
  by_cases hr : s.run = 0
  · simp [hr] at hj
  · rw [if_neg hr] at *
    obtain rfl : j = 0 := by simpa [encodeBytes] using hj
    refine ⟨rfl, ?_⟩
    rw [emitRun, e]
    rfl

/-- The pending run, when a byte after it fails: its byte is stored, and the failure stands that much nearer. -/
theorem flushRun_of_later_fail {s : State} {len j : Nat} {code : ErrCode} (hj : (pendingRun s).length ≤ j)
    (h : emitFailsAt s ((pendingRun s).length + len) j code) :
    flushRun s = .go { afterEmit (pendingRun s) s with run := 0 } ∧
      emitFailsAt { afterEmit (pendingRun s) s with run := 0 } len (j - (pendingRun s).length) code := by
  obtain ⟨hlen, hroom, hf, hc⟩ := h
  generalize hl : (pendingRun s).length = l at *
  constructor
  · by_cases h0 : s.run = 0
    · simp only [flushRun, pendingRun, if_pos h0, afterEmit, Memory.writeList]
      cases s
      simp_all
    · have : l = 1 := by rw [← hl, pendingRun, if_neg h0]; rfl
      apply flushRun_go
      · have := hroom 0 (by omega)
        omega
      · rw [hl]
        exact noFault_mono hf hj
  · refine ⟨by omega, fun k hk => ?_, ?_, ?_⟩
    · show s.q + (pendingRun s).length + k < _
      rw [hl, Nat.add_assoc]
      exact hroom (l + k) (by omega)
    · show noFault s .write (s.dstAddr.toNat + (s.q + (pendingRun s).length)) _
      rw [hl, ← Nat.add_assoc]
      exact (noFault_split (l := l) (l' := j - l) (by rw [show l + (j - l) = j by omega]; exact hf)).2
    · show (_ ∧ s.dstCap.toNat ≤ s.q + (pendingRun s).length + _) ∨
        (_ ∧ s.q + (pendingRun s).length + _ < _ ∧
          portFault s.cfg .write (s.dstAddr.toNat + (s.q + (pendingRun s).length) + _) = true)
      rw [hl, show s.q + l + (j - l) = s.q + j by omega,
        show s.dstAddr.toNat + (s.q + l) + (j - l) = s.dstAddr.toNat + s.q + j by omega]
      exact hc

theorem classify_isPixelChunk (px prev t : Pixel) : (classify px prev t).isPixelChunk = true := by
  unfold classify
  simp only
  repeat' split
  all_goals rfl

/-- The pixel `P` with the bytes a differing pixel writes: the pending run, then its chunk. -/
def pixelOutput (P : Pixel) (s : State) : List Byte :=
  pendingRun s ++ encodeBytes (classify P s.prev (lookup s.table (pixelHash P)))

theorem engineTurn_encoderStep {s : State} (hp : s.phase = .encoding) (hs : s.stage = .body) (hi : s.i < s.pixels) :
    engineTurn s = encoderStep s := by
  rw [engineTurn_encoding hp, encodeTransition, hs]
  simp [hi]

theorem engineTurn_finishEncode {s : State} (hp : s.phase = .encoding) (hs : s.stage = .body)
    (hi : s.pixels ≤ s.i) : engineTurn s = finishEncode s := by
  rw [engineTurn_encoding hp, encodeTransition, hs]
  simp [Nat.not_lt.2 hi]

theorem encoderStep_some {s : State} {P : Pixel} (hr : readPixel s = some P) :
    encoderStep s = encodePixel { s with px := P, i := s.i + 1 } := by
  rw [encoderStep, hr]

theorem encoderStep_none {s : State} (hr : readPixel s = none) : encoderStep s = .next (raise .busError s) := by
  rw [encoderStep, hr]

/-- One pixel step of ENCODE. -/
theorem encoderStep_cases (s : State) (hp : s.phase = .encoding) (hs : s.stage = .body) (hi : s.i < s.pixels) :
    ∃ t, engineTurn s = .next t ∧
      ((∃ P i run bs, EncodeStopped s t P i run bs) ∨
        ∃ P, readPixel s = some P ∧
          ((P = s.prev ∧ s.run + 1 ≠ 62 ∧ t = { s with px := P, i := s.i + 1, run := s.run + 1 }) ∨
            (P = s.prev ∧ s.run + 1 = 62 ∧ s.q + 1 ≤ s.dstCap.toNat ∧
              t = { afterEmit [0xFD] s with px := P, i := s.i + 1, run := 0 }) ∨
            (P ≠ s.prev ∧ s.q + (pixelOutput P s).length ≤ max s.q s.dstCap.toNat ∧
              t = { afterEmit (pixelOutput P s) s with
                px := P, i := s.i + 1, run := 0, prev := P, table := update s.table P }))) := by
  rw [engineTurn_encoderStep hp hs hi]
  unfold encoderStep
  cases hr : readPixel s with
  | none =>
    exact ⟨_, rfl, .inl ⟨s.px, s.i, s.run, [], by simp, .busError, by decide, rfl⟩⟩
  | some P =>
    simp only [Option.some.injEq, exists_eq_left']
    unfold encodePixel
    by_cases hP : P = s.prev
    · rw [if_pos (by exact hP)]
      unfold countRepeat
      by_cases h62 : s.run + 1 = 62
      · rw [if_pos (by exact h62), exec_run_encoding (by exact hp)]
        refine ⟨_, rfl, ?_⟩
        rcases emitList_afterEmit (encodeBytes (.run 62)) { s with px := P, i := s.i + 1, run := s.run + 1 } with
          ⟨hq, hf, hgo⟩ | ⟨j, hj, code, hq, hc, hstop⟩
        · refine .inr (.inr (.inl ⟨hP, h62, ?_, ?_⟩))
          · have hq' : s.q + 1 ≤ max s.q s.dstCap.toNat := hq
            omega
          · rw [emitRun, hgo]
            rfl
        · have : j = 0 := by simpa [encodeBytes] using hj
          subst this
          refine .inl ⟨P, s.i + 1, s.run + 1, [], by simp, code, hc, ?_⟩
          rw [emitRun, hstop]
          rfl
      · rw [if_neg (by exact h62)]
        exact ⟨_, rfl, .inr (.inl ⟨hP, h62, rfl⟩)⟩
    · rw [if_neg (by exact hP)]
      rcases flushRun_cases { s with px := P, i := s.i + 1 } with ⟨hq, _, hgo⟩ | ⟨code, hc, hstop⟩
      · rw [hgo]
        simp only
        rw [exec_pixelChunk_encoding (classify_isPixelChunk _ _ _) (by exact hp)]
        refine ⟨_, rfl, ?_⟩
        have hq : s.q + (pendingRun s).length ≤ max s.q s.dstCap.toNat := hq
        rcases emitList_afterEmit (encodeBytes (classify P s.prev (lookup s.table (pixelHash P))))
            { afterEmit (pendingRun s) s with px := P, i := s.i + 1, run := 0 } with
          ⟨hq', hf', hgo'⟩ | ⟨j, hj, code, hq', hc, hstop'⟩
        · refine .inr (.inr (.inr ⟨hP, ?_, ?_⟩))
          · have hq' : s.q + (pendingRun s).length +
                (encodeBytes (classify P s.prev (lookup s.table (pixelHash P)))).length ≤
                max (s.q + (pendingRun s).length) s.dstCap.toNat := hq'
            simp only [pixelOutput, List.length_append]
            have : 1 ≤ (encodeBytes (classify P s.prev (lookup s.table (pixelHash P)))).length :=
              (encodeBytes_length_le _ (classify_isPixelChunk _ _ _)).1
            omega
          · show (emitPixelChunk (classify P s.prev (lookup s.table (pixelHash P)))
              { afterEmit (pendingRun s) s with px := P, i := s.i + 1, run := 0 }).state = _
            rw [emitPixelChunk, hgo', pixelOutput, ← afterEmit_append]
            rfl
        · refine .inl ⟨P, s.i + 1, 0,
            pendingRun s ++ (encodeBytes (classify P s.prev (lookup s.table (pixelHash P)))).take j, ?_, code, hc, ?_⟩
          · have hq' : s.q + (pendingRun s).length + j ≤ max (s.q + (pendingRun s).length) s.dstCap.toNat := hq'
            simp only [List.length_append, List.length_take]
            omega
          · show (emitPixelChunk (classify P s.prev (lookup s.table (pixelHash P)))
              { afterEmit (pendingRun s) s with px := P, i := s.i + 1, run := 0 }).state = _
            rw [emitPixelChunk, hstop', ← afterEmit_append]
            rfl
      · rw [hstop]
        exact ⟨_, rfl, .inl ⟨P, s.i + 1, s.run, [], by simp, code, hc, rfl⟩⟩

/-- The end of ENCODE. -/
theorem finishEncode_cases (s : State) (hp : s.phase = .encoding) (hs : s.stage = .body) (hi : s.pixels ≤ s.i) :
    ∃ t, engineTurn s = .next t ∧
      ((∃ run bs, EncodeStopped s t s.px s.i run bs) ∨
        (s.q + (pendingRun s ++ endMarkerBytes).length ≤ max s.q s.dstCap.toNat ∧
          t = complete (s.q + (pendingRun s ++ endMarkerBytes).length)
            { afterEmit (pendingRun s ++ endMarkerBytes) s with run := 0 })) := by
  rw [engineTurn_finishEncode hp hs hi]
  unfold finishEncode
  rcases flushRun_cases s with ⟨hq, _, hgo⟩ | ⟨code, hc, hstop⟩
  · rw [hgo]
    simp only
    rw [exec_endMarker_encoding (by exact hp)]
    refine ⟨_, rfl, ?_⟩
    rcases emitList_afterEmit (encodeBytes .endMarker) { afterEmit (pendingRun s) s with run := 0 } with
      ⟨hq', hf', hgo'⟩ | ⟨j, hj, code, hq', hc, hstop'⟩
    · refine .inr ⟨?_, ?_⟩
      · have hq' : s.q + (pendingRun s).length + 8 ≤ max (s.q + (pendingRun s).length) s.dstCap.toNat := hq'
        simp only [List.length_append, endMarkerBytes_length]
        omega
      · rw [emitEndMarker, hgo', ← afterEmit_append, List.length_append, ← Nat.add_assoc]
        rfl
    · refine .inl ⟨0, pendingRun s ++ endMarkerBytes.take j, ?_, code, hc, ?_⟩
      · have hq' : s.q + (pendingRun s).length + j ≤ max (s.q + (pendingRun s).length) s.dstCap.toNat := hq'
        simp only [List.length_append, List.length_take]
        omega
      · rw [emitEndMarker, hstop', ← afterEmit_append]
        rfl
  · rw [hstop]
    exact ⟨_, rfl, .inl ⟨s.run, [], by simp, code, hc, rfl⟩⟩

/-- The start checks of ENCODE. -/
theorem encodeStart_cases (s : State) (hp : s.phase = .encoding) (hs : s.stage = .start) :
    (encodeCheck s = .none ∧ engineTurn s = .next { freshOperation .encode s with stage := .header }) ∨
      (encodeCheck s ≠ .none ∧ engineTurn s = .next (raise (encodeCheck s) s)) := by
  rw [engineTurn_encoding hp, encodeTransition, hs]
  simp only
  cases encodeCheck s <;> simp

/-- The header of ENCODE. -/
theorem encodeHeader_cases (s : State) (hp : s.phase = .encoding) (hs : s.stage = .header) :
    ∃ t, engineTurn s = .next t ∧
      ((∃ bs, EncodeStopped s t s.px s.i s.run bs) ∨
        (s.q + 14 ≤ max s.q s.dstCap.toNat ∧
          t = { afterEmit (encodeBytes (.header s.width s.height s.channels s.colorspace)) s with
            stage := .body })) := by
  have hmove : engineTurn s = exec (.header s.width s.height s.channels s.colorspace) s := by
    rw [engineTurn_encoding hp, encodeTransition, hs]
  rw [hmove, exec_header_encoding hp]
  refine ⟨_, rfl, ?_⟩
  rcases emitList_afterEmit (encodeBytes (.header s.width s.height s.channels s.colorspace)) s with
    ⟨hq, hf, hgo⟩ | ⟨j, hj, code, hq, hc, hstop⟩
  · exact .inr ⟨hq, by rw [emitHeader, hgo]; rfl⟩
  · refine .inl ⟨(encodeBytes (.header s.width s.height s.channels s.colorspace)).take j, ?_, code, hc, ?_⟩
    · simp only [List.length_take]
      omega
    · rw [emitHeader, hstop]
      rfl

end Sys2Proof.Machine
end

