-- ==== Sys2Proof/Laws/Decoder.lean ====
section
/-! SUPPORT. What the decoder fetches, and the transitions of DECODE, case by case. -/

namespace Sys2Proof

/-- What a decoded chunk tells about its bytes. -/
theorem decodeChunk_ok {bs rest : List Byte} {i : Instr} (h : decodeChunk bs = .ok (i, rest)) :
    i.isChunk = true ∧ wellFormed i = true ∧ bs = encodeBytes i ++ rest ∧
      ∃ b0 payload, bs = b0 :: payload ∧ chunkLength b0 = (encodeBytes i).length := by
  cases bs with
  | nil => cases h
  | cons b0 bs =>
    obtain ⟨hff, hfe, htop, hlow⟩ := first_byte_ranges b0
    simp only [decodeChunk] at h
    split at h
    · rename_i h1
      subst h1
      split at h
      · cases h
        exact ⟨rfl, rfl, rfl, _, _, rfl, rfl⟩
      · cases h
    · rename_i h1
      split at h
      · rename_i h2
        subst h2
        split at h
        · cases h
          exact ⟨rfl, rfl, rfl, _, _, rfl, rfl⟩
        · cases h
      · rename_i h2
        split at h
        · rename_i h3
          cases h
          obtain ⟨hb, hle⟩ := run_byte_back b0 h1 h2 h3
          refine ⟨rfl, ?_, ?_, _, _, rfl, ?_⟩
          · simp only [wellFormed, Bool.and_eq_true, decide_eq_true_eq]
            omega
          · rw [encodeBytes, hb]
            rfl
          · rw [chunkLength, if_neg h1, if_neg h2, if_neg (by omega)]
            rfl
        · rename_i h3
          split at h
          · rename_i h4
            split at h
            · cases h
              rename_i b1
              obtain ⟨hb0, hw0⟩ := luma_byte0_back b0 h4
              obtain ⟨hb1, hw1, hw2⟩ := luma_byte1_back b1
              refine ⟨rfl, ?_, ?_, _, _, rfl, ?_⟩
              · simp only [wellFormed, hw0, hw1, hw2, Bool.and_self]
              · rw [encodeBytes, hb0, hb1]
                rfl
              · rw [chunkLength, if_neg h1, if_neg h2, if_pos h4]
                rfl
            · cases h
          · rename_i h4
            split at h
            · rename_i h5
              cases h
              obtain ⟨hb, hw0, hw1, hw2⟩ := diff_byte_back b0 h5
              refine ⟨rfl, ?_, ?_, _, _, rfl, ?_⟩
              · simp only [wellFormed, hw0, hw1, hw2, Bool.and_self]
              · rw [encodeBytes, hb]
                rfl
              · rw [chunkLength, if_neg h1, if_neg h2, if_neg h4]
                rfl
            · rename_i h5
              cases h
              have h6 : field b0 6 2 = 0 := by
                have := b0.isLt
                omega
              refine ⟨rfl, rfl, ?_, _, _, rfl, ?_⟩
              · rw [encodeBytes, index_byte_back b0 h6]
                rfl
              · rw [chunkLength, if_neg h1, if_neg h2, if_neg h4]
                rfl

/-- A chunk with as many bytes as its first byte asks for always decodes. -/
theorem decodeChunk_total (b0 : Byte) (payload rest : List Byte) (h : payload.length + 1 = chunkLength b0) :
    ∃ i, decodeChunk (b0 :: payload ++ rest) = .ok (i, rest) := by
  simp only [List.cons_append, decodeChunk]
  simp only [chunkLength] at h
  split at h
  · rename_i h1
    rw [if_pos h1]
    match payload, h with
    | [r, g, b, a], _ => exact ⟨_, rfl⟩
  · rename_i h1
    rw [if_neg h1]
    split at h
    · rename_i h2
      rw [if_pos h2]
      match payload, h with
      | [r, g, b], _ => exact ⟨_, rfl⟩
    · rename_i h2
      rw [if_neg h2]
      split at h
      · rename_i h3
        rw [if_neg (by omega), if_pos h3]
        match payload, h with
        | [b1], _ => exact ⟨_, rfl⟩
      · rename_i h3
        have : payload = [] := by
          apply List.eq_nil_of_length_eq_zero
          omega
        subst this
        repeat' split
        all_goals exact ⟨_, rfl⟩

/-- Fourteen bytes that begin with the magic are a header. -/
theorem decodeHeader_magic (fields : List Byte) (h : fields.length = 10) :
    ∃ w h c cs, decodeHeader (magic ++ fields) = .ok (.header w h c cs) ∧
      magic ++ fields = encodeBytes (.header w h c cs) := by
  match fields, h with
  | [w3, w2, w1, w0, h3, h2, h1, h0, c, cs], _ =>
    refine ⟨_, _, _, _, rfl, ?_⟩
    simp only [encodeBytes, be32Bytes_be32]
    rfl

/-- The header that a header's encoding decodes to. -/
theorem decodeHeader_encodeBytes (w h : Word) (c cs : Byte) :
    decodeHeader (encodeBytes (.header w h c cs)) = .ok (.header w h c cs) := by
  have hw := be32_be32Bytes w
  have hh := be32_be32Bytes h
  show Except.ok (Instr.header _ _ c cs) = _
  rw [hw, hh]

end Sys2Proof

namespace Sys2Proof.Machine

open Sys2Proof

/-! ### Fetching -/

theorem fetchHeader_cases (s : State) :
    (∃ w h c cs, fetchHeader s = .ok (.header w h c cs) ∧ noFault s .read s.srcAddr.toNat 14 ∧
        holdsAt s.mem s.srcAddr.toNat (encodeBytes (.header w h c cs))) ∨
      ∃ code, code ≠ .none ∧ fetchHeader s = .error code := by
  unfold fetchHeader
  cases h4 : memReadList s s.srcAddr.toNat 4 with
  | none => exact .inr ⟨_, by decide, rfl⟩
  | some m =>
    simp only
    by_cases hm : m = magic
    · subst hm
      rw [if_neg (by simp)]
      cases h10 : memReadList s (s.srcAddr.toNat + 4) 10 with
      | none => exact .inr ⟨_, by decide, rfl⟩
      | some fields =>
        obtain ⟨_, hf4, hb4⟩ := memReadList_some h4
        obtain ⟨hl, hf10, hb10⟩ := memReadList_some h10
        obtain ⟨w, h, c, cs, hd, he⟩ := decodeHeader_magic fields hl
        refine .inl ⟨w, h, c, cs, by simp only [hd], fun j hj => ?_, ?_⟩
        · by_cases hj4 : j < 4
          · exact hf4 j hj4
          · have := hf10 (j - 4) (by omega)
            rwa [show s.srcAddr.toNat + 4 + (j - 4) = s.srcAddr.toNat + j by omega] at this
        · rw [← he]
          intro j hj
          by_cases hj4 : j < 4
          · rw [List.getElem_append_left (by simpa [magic] using hj4)]
            exact hb4 j _
          · have hj' : magic.length ≤ j := by simp [magic]; omega
            rw [List.getElem_append_right hj']
            have := hb10 (j - 4) (by simp [magic] at hj; omega)
            rwa [show s.srcAddr.toNat + 4 + (j - 4) = s.srcAddr.toNat + j by omega] at this
    · rw [if_pos hm]
      exact .inr ⟨_, by decide, rfl⟩

/-- A chunk at `p`, or the reason there is none. -/
theorem fetchChunk_cases (s : State) (hp : s.p < s.endOff) :
    (∃ i, fetchChunk s = .ok i ∧ i.isChunk = true ∧ wellFormed i = true ∧
        s.p + (encodeBytes i).length ≤ s.endOff ∧
        noFault s .read (s.srcAddr.toNat + s.p) (encodeBytes i).length ∧
        holdsAt s.mem (s.srcAddr.toNat + s.p) (encodeBytes i)) ∨
      ∃ code, code ≠ .none ∧ fetchChunk s = .error code := by
  unfold fetchChunk
  cases h0 : memRead s (s.srcAddr.toNat + s.p) with
  | none => exact .inr ⟨_, by decide, rfl⟩
  | some b0 =>
    simp only
    split
    · exact .inr ⟨_, by decide, rfl⟩
    · rename_i htr
      cases h1 : memReadList s (s.srcAddr.toNat + s.p + 1) (chunkLength b0 - 1) with
      | none => exact .inr ⟨_, by decide, rfl⟩
      | some payload =>
        simp only
        obtain ⟨hl, hf, hb⟩ := memReadList_some h1
        have hpos : 1 ≤ chunkLength b0 := by rcases chunkLength_cases b0 with h | h | h | h <;> omega
        obtain ⟨i, hi⟩ := decodeChunk_total b0 payload [] (by omega)
        rw [List.append_nil] at hi
        rw [hi]
        obtain ⟨hc, hw, hbytes, _, _, hcons, hlen⟩ := decodeChunk_ok hi
        cases hcons
        rw [List.append_nil] at hbytes
        have hfault : portFault s.cfg .read (s.srcAddr.toNat + s.p) = false ∧
            s.mem.read (s.srcAddr.toNat + s.p) = b0 := by
          simp only [memRead] at h0
          split at h0
          · cases h0
          · rename_i hn
            exact ⟨by simpa using hn, by simpa using h0⟩
        refine .inl ⟨i, rfl, hc, hw, by omega, fun j hj => ?_, ?_⟩
        · cases j with
          | zero => exact hfault.1
          | succ j =>
            have := hf j (by omega)
            rwa [show s.srcAddr.toNat + s.p + 1 + j = s.srcAddr.toNat + s.p + (j + 1) by omega] at this
        · rw [← hbytes]
          intro j hj
          cases j with
          | zero => exact hfault.2
          | succ j =>
            have := hb j (by simpa using hj)
            rw [show s.srcAddr.toNat + s.p + 1 + j = s.srcAddr.toNat + s.p + (j + 1) by omega] at this
            exact this

/-- With the magic there, a failing read of one of the header's other bytes. -/
theorem fetchHeader_field_fails {s : State} {j : Nat} (hf : noFault s .read s.srcAddr.toNat 4)
    (hb : holdsAt s.mem s.srcAddr.toNat magic) (h4 : 4 ≤ j) (h14 : j < 14)
    (hj : portFault s.cfg .read (s.srcAddr.toNat + j) = true) : fetchHeader s = .error .busError := by
  have h10 : memReadList s (s.srcAddr.toNat + 4) 10 = none :=
    memReadList_none s 10 _ (j - 4) (by omega) (by rwa [show s.srcAddr.toNat + 4 + (j - 4) = s.srcAddr.toNat + j by omega])
  have hm : memReadList s s.srcAddr.toNat 4 = some magic := memReadList_eq magic s _ hf hb
  rw [fetchHeader, hm]
  simp [h10]

/-- A failing read of a chunk's first byte. -/
theorem fetchChunk_first_fails {s : State} (hf : portFault s.cfg .read (s.srcAddr.toNat + s.p) = true) :
    fetchChunk s = .error .busError := by
  rw [fetchChunk, memRead_none s _ hf]

/-- A failing read of a payload byte of a chunk that does not reach past `end`. -/
theorem fetchChunk_payload_fails {s : State} {b0 : Byte} {j : Nat}
    (hb : memRead s (s.srcAddr.toNat + s.p) = some b0) (hend : s.p + chunkLength b0 ≤ s.endOff) (h1 : 1 ≤ j)
    (hj : j < chunkLength b0) (hf : portFault s.cfg .read (s.srcAddr.toNat + s.p + j) = true) :
    fetchChunk s = .error .busError := by
  have hpay : memReadList s (s.srcAddr.toNat + s.p + 1) (chunkLength b0 - 1) = none :=
    memReadList_none s _ _ (j - 1) (by omega)
      (by rwa [show s.srcAddr.toNat + s.p + 1 + (j - 1) = s.srcAddr.toNat + s.p + j by omega])
  have htr : ¬ (1 < chunkLength b0 ∧ s.endOff < s.p + chunkLength b0) := by omega
  rw [fetchChunk, hb]
  simp only [if_neg htr, hpay]

/-- The chunk that stands at `p` is the chunk fetched. -/
theorem fetchChunk_eq {i : Instr} {s : State} (hi : decodeChunk (encodeBytes i) = .ok (i, []))
    (hend : s.p + (encodeBytes i).length ≤ s.endOff)
    (hf : noFault s .read (s.srcAddr.toNat + s.p) (encodeBytes i).length)
    (hb : holdsAt s.mem (s.srcAddr.toNat + s.p) (encodeBytes i)) : fetchChunk s = .ok i := by
  obtain ⟨_, _, _, b0, payload, hcons, hlen⟩ := decodeChunk_ok hi
  rw [hcons] at hi hend hf hb hlen
  obtain ⟨hf0, hf1⟩ := noFault_succ hf
  obtain ⟨hb0, hb1⟩ := holdsAt_cons hb
  simp only [List.length_cons] at hlen hend
  have hpay := memReadList_eq payload s (s.srcAddr.toNat + s.p + 1) hf1 hb1
  have htr : ¬ (1 < chunkLength b0 ∧ s.endOff < s.p + chunkLength b0) := by omega
  have hlen1 : chunkLength b0 - 1 = payload.length := by omega
  rw [fetchChunk, memRead_eq s _ hf0, hb0]
  simp only [if_neg htr, hlen1, hpay, hi]

theorem checkMarkerBytes_none {s : State} {a : Nat} {bs : List Byte} (hf : noFault s .read a bs.length)
    (hb : holdsAt s.mem a bs) : checkMarkerBytes s a bs = .none := by
  induction bs generalizing a with
  | nil => rfl
  | cons b bs ih =>
    obtain ⟨hf0, hf1⟩ := noFault_succ hf
    obtain ⟨hb0, hb1⟩ := holdsAt_cons hb
    rw [checkMarkerBytes, memRead_eq s a hf0]
    simp only [hb0, if_true]
    exact ih hf1 hb1

theorem fetchEnd_cases (s : State) :
    (fetchEnd s = .ok .endMarker ∧ s.n = s.pixels) ∨ ∃ code, code ≠ .none ∧ fetchEnd s = .error code := by
  unfold fetchEnd fetchMarker
  split
  · exact .inr ⟨_, by decide, rfl⟩
  · rename_i hn
    have hn : s.n = s.pixels := by omega
    cases hc : checkMarkerBytes s (s.srcAddr.toNat + s.endOff) endMarkerBytes
    case none => exact .inl ⟨rfl, hn⟩
    all_goals exact .inr ⟨_, by decide, rfl⟩

/-! ### Transitions -/

/-- A DECODE that has ended with an error after storing `bs` in the image: only the named fields may have moved. -/
def DecodeStopped (s t : State) (P : Pixel) (p n : Nat) (alpha3 : Bool) (bs : List Byte) : Prop :=
  (bs = [] ∨ s.n * s.chans + bs.length ≤ s.pixels * s.chans) ∧
    ∃ code, code ≠ .none ∧
      t = raise code
        { s with
          prev := P, p := p, n := n, alpha3 := alpha3
          mem := s.mem.writeList (s.dstAddr.toNat + s.n * s.chans) bs }

theorem decodeStart_cases (s : State) (hp : s.phase = .decoding) (hs : s.stage = .start) :
    (decodeCheck s = .none ∧ engineTurn s = .next { s with stage := .header }) ∨
      (decodeCheck s ≠ .none ∧ engineTurn s = .next (raise (decodeCheck s) s)) := by
  rw [engineTurn_decoding hp, decodeTransition, hs]
  simp only
  cases decodeCheck s <;> simp

theorem decodeHeader_cases (s : State) (hp : s.phase = .decoding) (hs : s.stage = .header) :
    ∃ t, engineTurn s = .next t ∧
      ((∃ code, code ≠ .none ∧ t = raise code s) ∨
        ∃ w h c cs,
          (∃ code, code ≠ .none ∧ t = raise code (latchHeader w h c cs s)) ∨
            (goodChannels c = true ∧ w.toNat * h.toNat * c.toNat ≤ s.dstCap.toNat ∧
              t = enterChunkLoop (latchHeader w h c cs s))) := by
  rw [engineTurn_decoding hp, decodeTransition, hs]
  simp only
  rcases fetchHeader_cases s with ⟨w, h, c, cs, hf, _, _⟩ | ⟨code, hc, hf⟩
  · rw [hf, runFetched, exec_header_decoding hp]
    refine ⟨_, rfl, .inr ⟨w, h, c, cs, ?_⟩⟩
    rcases decodeHeaderFields_cases w h c cs s with ⟨_, he⟩ | ⟨_, _, he⟩ | ⟨hg, hd, he⟩
    · exact .inl ⟨.badChannels, by decide, by rw [he]; rfl⟩
    · exact .inl ⟨.dstOverflow, by decide, by rw [he]; rfl⟩
    · exact .inr ⟨hg, hd, by rw [he]; rfl⟩
  · rw [hf, runFetched]
    exact ⟨_, rfl, .inl ⟨code, hc, rfl⟩⟩

theorem isChunk_cases {i : Instr} (h : i.isChunk = true) : i.isPixelChunk = true ∨ ∃ count, i = .run count := by
  cases i <;> simp_all [Instr.isChunk, Instr.isPixelChunk]

/-- A whole pixel below the image's end. -/
theorem pixel_end_le {n pixels c k : Nat} (h : n + k ≤ pixels) : n * c + k * c ≤ pixels * c := by
  rw [← Nat.add_mul]
  exact Nat.mul_le_mul_right c h

/-- One chunk step of DECODE. -/
theorem decodeChunk_cases (s : State) (hp : s.phase = .decoding) (hs : s.stage = .body) (hlt : s.p < s.endOff)
    (hg : goodChannels s.channels = true) :
    ∃ t, engineTurn s = .next t ∧
      ((∃ P p n a bs, DecodeStopped s t P p n a bs) ∨
        (∃ i, i.isPixelChunk = true ∧ s.p + (encodeBytes i).length ≤ s.endOff ∧ s.n + 1 ≤ s.pixels ∧
          t = afterChunk (encodeBytes i).length (chunkPixel i s) s) ∨
        ∃ count, 1 ≤ count ∧ count ≤ 62 ∧ s.n + count ≤ s.pixels ∧
          t = { s with
            p := s.p + 1, n := s.n + count
            mem := s.mem.writeList (s.dstAddr.toNat + s.n * s.chans) (pixelRun s.channels s.prev count) }) := by
  have hmove : engineTurn s = runFetched (fetchChunk s) s := by
    rw [engineTurn_decoding hp, decodeTransition, hs]
    simp only [fetchBody, if_pos hlt]
  rw [hmove]
  rcases fetchChunk_cases s hlt with ⟨i, hi, hc, hw, hend, _, _⟩ | ⟨code, hc, hf⟩
  · rw [hi, runFetched]
    rcases isChunk_cases hc with hpc | ⟨count, rfl⟩
    · rw [exec_pixelChunk_decoding hpc hp]
      refine ⟨_, rfl, ?_⟩
      rcases decodePixel_cases (encodeBytes i).length (chunkPixel i s) s with
        ⟨_, he⟩ | ⟨hn, _, he⟩ | ⟨hn, j, hj, _, he⟩
      · exact .inl ⟨_, _, s.n, s.alpha3, [], .inl rfl, .pixelCount, by decide, by rw [he]; rfl⟩
      · exact .inr (.inl ⟨i, hpc, hend, hn, by rw [he]; rfl⟩)
      · refine .inl ⟨_, _, s.n, _, _, .inr ?_, .busError, by decide, by rw [he]; rfl⟩
        have := pixel_end_le (c := s.chans) hn
        rw [pixelBytes_length _ hg] at hj
        have hj : j < s.chans := hj
        simp only [List.length_take]
        omega
    · rw [exec_run_decoding hp]
      refine ⟨_, rfl, ?_⟩
      have hw : 1 ≤ count ∧ count ≤ 62 := by simpa [wellFormed] using hw
      rcases decodeRun_cases count s hg with ⟨_, he⟩ | ⟨hn, _, he⟩ | ⟨hn, l, n', hl, _, _, he⟩
      · exact .inl ⟨s.prev, s.p, s.n, s.alpha3, [], .inl rfl, .pixelCount, by decide, by rw [he]; rfl⟩
      · exact .inr (.inr ⟨count, hw.1, hw.2, hn, by rw [he]; rfl⟩)
      · refine .inl ⟨s.prev, s.p, n', s.alpha3, _, .inr ?_, .busError, by decide, by rw [he]; rfl⟩
        have := pixel_end_le (c := s.chans) hn
        simp only [List.length_take]
        omega
  · rw [hf, runFetched]
    exact ⟨_, rfl, .inl ⟨s.prev, s.p, s.n, s.alpha3, [], .inl rfl, code, hc, rfl⟩⟩

/-- The end of DECODE. -/
theorem decodeEnd_cases (s : State) (hp : s.phase = .decoding) (hs : s.stage = .body) (hge : s.endOff ≤ s.p) :
    (s.n = s.pixels ∧ engineTurn s = .next (complete (s.pixels * s.chans) s)) ∨
      ∃ code, code ≠ .none ∧ engineTurn s = .next (raise code s) := by
  have hmove : engineTurn s = runFetched (fetchEnd s) s := by
    rw [engineTurn_decoding hp, decodeTransition, hs]
    simp only [fetchBody, if_neg (Nat.not_lt.2 hge)]
  rw [hmove]
  rcases fetchEnd_cases s with ⟨he, hn⟩ | ⟨code, hc, he⟩
  · rw [he, runFetched, exec_endMarker_decoding hp]
    exact .inl ⟨hn, rfl⟩
  · rw [he, runFetched]
    exact .inr ⟨code, hc, rfl⟩

/-- One chunk step of DECODE, whatever the channel count: an error, or a step forward. -/
theorem decodeChunk_shape (s : State) (hp : s.phase = .decoding) (hs : s.stage = .body) (hlt : s.p < s.endOff) :
    ∃ t, engineTurn s = .next t ∧
      ∃ P p n a m tb,
        (∃ code, code ≠ .none ∧ t = raise code { s with prev := P, p := p, n := n, alpha3 := a, mem := m }) ∨
          (s.p < p ∧ t = { s with prev := P, p := p, n := n, alpha3 := a, mem := m, table := tb }) := by
  have hmove : engineTurn s = runFetched (fetchChunk s) s := by
    rw [engineTurn_decoding hp, decodeTransition, hs]
    simp only [fetchBody, if_pos hlt]
  rw [hmove]
  rcases fetchChunk_cases s hlt with ⟨i, hi, hc, _, hend, _, _⟩ | ⟨code, hc, hf⟩
  · rw [hi, runFetched]
    rcases isChunk_cases hc with hpc | ⟨count, rfl⟩
    · rw [exec_pixelChunk_decoding hpc hp]
      have hpos := (encodeBytes_length_le i hpc).1
      refine ⟨_, rfl, ?_⟩
      rcases decodePixel_cases (encodeBytes i).length (chunkPixel i s) s with ⟨_, he⟩ | ⟨_, _, he⟩ | ⟨_, j, _, _, he⟩
      · exact ⟨_, _, s.n, s.alpha3, s.mem, s.table, .inl ⟨.pixelCount, by decide, by rw [he]; rfl⟩⟩
      · exact ⟨_, s.p + (encodeBytes i).length, _, _, _, _, .inr ⟨by omega, by rw [he]; rfl⟩⟩
      · exact ⟨_, _, s.n, _, _, s.table, .inl ⟨.busError, by decide, by rw [he]; rfl⟩⟩
    · rw [exec_run_decoding hp]
      refine ⟨_, rfl, ?_⟩
      by_cases hn : s.pixels < s.n + count
      · exact ⟨s.prev, s.p, s.n, s.alpha3, s.mem, s.table,
          .inl ⟨.pixelCount, by decide, by rw [decodeRun_excess _ _ hn]; rfl⟩⟩
      · obtain ⟨m, n, he | he⟩ := writePixels_shape s.prev count s
        · exact ⟨s.prev, s.p + 1, n, s.alpha3, m, s.table,
            .inr ⟨by omega, by rw [decodeRun, if_neg hn, he]; rfl⟩⟩
        · exact ⟨s.prev, s.p, n, s.alpha3, m, s.table,
            .inl ⟨.busError, by decide, by rw [decodeRun, if_neg hn, he]; rfl⟩⟩
  · rw [hf, runFetched]
    exact ⟨_, rfl, s.prev, s.p, s.n, s.alpha3, s.mem, s.table, .inl ⟨code, hc, rfl⟩⟩

/-! ### Any transition -/

/-- What no turn of the engine ever moves: the platform, the host's registers other than those the header sets,
the turns to come, and the model's own record of the host. -/
def EngineFrame (s t : State) : Prop :=
  t.cfg = s.cfg ∧ t.mode = s.mode ∧ t.ie = s.ie ∧ t.srcAddr = s.srcAddr ∧ t.srcLen = s.srcLen ∧
    t.dstAddr = s.dstAddr ∧ t.dstCap = s.dstCap ∧ t.schedule = s.schedule ∧ t.hostData = s.hostData ∧
    t.freeCount = s.freeCount

theorem engineTurn_frame {s t : State} (h : engineTurn s = .next t) : EngineFrame s t := by
  have refl : ∀ u : State, EngineFrame u u := fun u => ⟨rfl, rfl, rfl, rfl, rfl, rfl, rfl, rfl, rfl, rfl⟩
  cases hp : s.phase with
  | idle =>
    rw [engineTurn_idle hp] at h
    cases h
    exact refl s
  | encoding =>
    cases hs : s.stage with
    | start =>
      rcases encodeStart_cases s hp hs with ⟨_, he⟩ | ⟨_, he⟩ <;> rw [he] at h <;> cases h <;> exact refl s
    | header =>
      obtain ⟨t', he, ⟨bs, _, code, _, rfl⟩ | ⟨_, rfl⟩⟩ := encodeHeader_cases s hp hs <;> rw [he] at h <;>
        cases h <;> exact refl s
    | body =>
      by_cases hi : s.i < s.pixels
      · obtain ⟨t', he, ⟨P, i, run, bs, _, code, _, rfl⟩ | ⟨P, _, ⟨_, _, rfl⟩ | ⟨_, _, _, rfl⟩ | ⟨_, _, rfl⟩⟩⟩ :=
          encoderStep_cases s hp hs hi <;> rw [he] at h <;> cases h <;> exact refl s
      · obtain ⟨t', he, ⟨run, bs, _, code, _, rfl⟩ | ⟨_, rfl⟩⟩ := finishEncode_cases s hp hs (Nat.not_lt.1 hi) <;>
          rw [he] at h <;> cases h <;> exact refl s
  | decoding =>
    cases hs : s.stage with
    | start =>
      rcases decodeStart_cases s hp hs with ⟨_, he⟩ | ⟨_, he⟩ <;> rw [he] at h <;> cases h <;> exact refl s
    | header =>
      obtain ⟨t', he, ⟨code, _, rfl⟩ | ⟨w, hh, c, cs, ⟨code, _, rfl⟩ | ⟨_, _, rfl⟩⟩⟩ := decodeHeader_cases s hp hs <;>
        rw [he] at h <;> cases h <;> exact refl s
    | body =>
      by_cases hlt : s.p < s.endOff
      · obtain ⟨t', he, P, p, n, a, m, tb, ⟨code, _, rfl⟩ | ⟨_, rfl⟩⟩ := decodeChunk_shape s hp hs hlt <;>
          rw [he] at h <;> cases h <;> exact refl s
      · rcases decodeEnd_cases s hp hs (Nat.not_lt.1 hlt) with ⟨_, he⟩ | ⟨code, _, he⟩ <;> rw [he] at h <;>
          cases h <;> exact refl s

/-- The engine never stops. -/
theorem engineTurn_next (s : State) : ∃ t, engineTurn s = .next t := by
  cases hp : s.phase with
  | idle => exact ⟨_, engineTurn_idle hp⟩
  | encoding =>
    cases hs : s.stage with
    | start => rcases encodeStart_cases s hp hs with ⟨_, h⟩ | ⟨_, h⟩ <;> exact ⟨_, h⟩
    | header => exact (encodeHeader_cases s hp hs).imp fun _ h => h.1
    | body =>
      by_cases hi : s.i < s.pixels
      · exact (encoderStep_cases s hp hs hi).imp fun _ h => h.1
      · exact (finishEncode_cases s hp hs (Nat.not_lt.1 hi)).imp fun _ h => h.1
  | decoding =>
    have hrun : ∀ f, ∃ t, runFetched f s = .next t := fun f => by
      cases f with
      | ok i => exact exec_next i s
      | error code => exact ⟨_, rfl⟩
    rw [engineTurn_decoding hp, decodeTransition]
    cases hs : s.stage with
    | start =>
      simp only
      cases decodeCheck s <;> exact ⟨_, rfl⟩
    | header => exact hrun _
    | body => exact hrun _

/-- With no turns left, a step is the engine's. -/
theorem step_of_schedule_nil {s : State} (h : s.schedule = []) : step s = engineTurn s := by
  simp [step, takeTurn, h]

theorem run_zero (s : State) : core.run 0 s = .next s := rfl

/-- One step of any machine's run. -/
theorem run_succ_of_next (M : Host.Core) (k : Nat) (s t : M.State) (h : M.step s = .next t) :
    M.run (k + 1) s = M.run k t := by
  simp [Host.Core.run, h]

theorem run_succ_of_step {s t : State} (k : Nat) (h : step s = .next t) : core.run (k + 1) s = core.run k t :=
  run_succ_of_next core k s t h

end Sys2Proof.Machine
end

