-- ==== Sys2Proof/Laws/Buffers.lean ====
section
/-! SUPPORT. Two states that differ only outside the buffers: each operation of the engine does the same in both. -/

namespace Sys2Proof.Machine

open Sys2Proof

/-- The state on another memory and other failing accesses. -/
def State.elsewhere (s : State) (m : Memory) (c : Config) : State := { s with mem := m, cfg := c }

/-- `s` and `s.elsewhere m c` differ only outside the buffers, and a byte reads alike in both or as it did in `m₀`
and `m₀'`. -/
structure Alike (m₀ m₀' : Memory) (c : Config) (s : State) (m : Memory) : Prop where
  cfg : c = { s.cfg with faults := c.faults }
  wf : s.mem.wf
  wf' : m.wf
  src : ∀ a, s.inSrc a = true → m.read a = s.mem.read a
  reads : ∀ a, s.inSrc a = true → portFault c .read a = portFault s.cfg .read a
  writes : ∀ a, s.inDst a = true → portFault c .write a = portFault s.cfg .write a
  same : ∀ a, m.read a = s.mem.read a ∨ (s.mem.read a = m₀.read a ∧ m.read a = m₀'.read a)

/-- Two operations go on, or end, in states that are alike. -/
def FlowAlike (m₀ m₀' : Memory) (c : Config) (x y : Flow) : Prop :=
  ∃ u m, Alike m₀ m₀' c u m ∧
    ((x = .go u ∧ y = .go (u.elsewhere m c)) ∨ (x = .stop u ∧ y = .stop (u.elsewhere m c)))

/-- Two turns end in states that are alike. -/
def TurnAlike (m₀ m₀' : Memory) (c : Config) (x y : Host.Outcome State Fault Refusal) : Prop :=
  ∃ u m, Alike m₀ m₀' c u m ∧ x = .next u ∧ y = .next (u.elsewhere m c)

section

variable {m₀ m₀' m : Memory} {c : Config} {s : State}

/-! ### Memory -/

/-- Another byte in both memories. -/
theorem Alike.write (h : Alike m₀ m₀' c s m) (a : Nat) (v : Byte) :
    Alike m₀ m₀' c { s with mem := s.mem.write a v } (m.write a v) where
  cfg := h.cfg
  wf := Memory.wf_write a v h.wf
  wf' := Memory.wf_write a v h.wf'
  src x hx := by
    show (m.write a v).read x = (s.mem.write a v).read x
    by_cases hxa : x = a
    · rw [hxa, Memory.read_write_same m a v h.wf', Memory.read_write_same s.mem a v h.wf]
    · rw [Memory.read_write_other _ _ _ _ hxa, Memory.read_write_other _ _ _ _ hxa, h.src x hx]
  reads := h.reads
  writes := h.writes
  same x := by
    show (m.write a v).read x = (s.mem.write a v).read x ∨ ((s.mem.write a v).read x = _ ∧ (m.write a v).read x = _)
    by_cases hxa : x = a
    · exact .inl (by rw [hxa, Memory.read_write_same m a v h.wf', Memory.read_write_same s.mem a v h.wf])
    · rw [Memory.read_write_other _ _ _ _ hxa, Memory.read_write_other _ _ _ _ hxa]
      exact h.same x

theorem Alike.writeList (bs : List Byte) (h : Alike m₀ m₀' c s m) (a : Nat) :
    Alike m₀ m₀' c { s with mem := s.mem.writeList a bs } (m.writeList a bs) := by
  induction bs generalizing s m a with
  | nil => exact h
  | cons b bs ih => exact ih (h.write a b) (a + 1)

/-- An update that leaves memory, the platform and the buffers' registers alone. -/
theorem Alike.of_frame (h : Alike m₀ m₀' c s m) {u : State} (hm : u.mem = s.mem) (hc : u.cfg = s.cfg)
    (hs : u.inSrc = s.inSrc) (hd : u.inDst = s.inDst) : Alike m₀ m₀' c u m where
  cfg := by rw [hc]; exact h.cfg
  wf := by rw [hm]; exact h.wf
  wf' := h.wf'
  src := by rw [hm, hs]; exact h.src
  reads := by rw [hc, hs]; exact h.reads
  writes := by rw [hc, hd]; exact h.writes
  same := by rw [hm]; exact h.same

theorem Alike.memRead (h : Alike m₀ m₀' c s m) {a : Nat} (ha : s.inSrc a = true) :
    memRead (s.elsewhere m c) a = memRead s a := by
  show (if portFault c .read a then none else some (m.read a)) = _
  rw [h.reads a ha, h.src a ha]
  rfl

theorem Alike.memReadList (h : Alike m₀ m₀' c s m) (k : Nat) {a : Nat} (ha : ∀ j < k, s.inSrc (a + j) = true) :
    memReadList (s.elsewhere m c) a k = memReadList s a k := by
  induction k generalizing a with
  | zero => rfl
  | succ k ih =>
    have h0 : s.inSrc a = true := ha 0 (by omega)
    have h1 : ∀ j < k, s.inSrc (a + 1 + j) = true := fun j hj => by
      rw [Nat.add_assoc, Nat.add_comm 1 j]
      exact ha (j + 1) (by omega)
    simp only [Machine.memReadList, h.memRead h0, ih h1]

/-! ### Flows -/

theorem FlowAlike.go (h : Alike m₀ m₀' c s m) : FlowAlike m₀ m₀' c (.go s) (.go (s.elsewhere m c)) :=
  ⟨s, m, h, .inl ⟨rfl, rfl⟩⟩

theorem Alike.raise (h : Alike m₀ m₀' c s m) (code : ErrCode) : Alike m₀ m₀' c (raise code s) m :=
  h.of_frame rfl rfl rfl rfl

theorem FlowAlike.raise (h : Alike m₀ m₀' c s m) (code : ErrCode) :
    FlowAlike m₀ m₀' c (raiseFlow code s) (raiseFlow code (s.elsewhere m c)) :=
  ⟨_, m, h.raise code, .inr ⟨rfl, rfl⟩⟩

/-- What follows does the same in states that are alike, so the whole does. -/
theorem FlowAlike.andThen {x y : Flow} {f : State → Flow} (h : FlowAlike m₀ m₀' c x y)
    (hf : ∀ u m, x = .go u → Alike m₀ m₀' c u m → FlowAlike m₀ m₀' c (f u) (f (u.elsewhere m c))) :
    FlowAlike m₀ m₀' c (x.andThen f) (y.andThen f) := by
  obtain ⟨u, m, ha, ⟨rfl, rfl⟩ | ⟨rfl, rfl⟩⟩ := h
  · exact hf u m rfl ha
  · exact ⟨u, m, ha, .inr ⟨rfl, rfl⟩⟩

theorem FlowAlike.outcome {x y : Flow} (h : FlowAlike m₀ m₀' c x y) :
    TurnAlike m₀ m₀' c x.outcome y.outcome := by
  obtain ⟨u, m, ha, ⟨rfl, rfl⟩ | ⟨rfl, rfl⟩⟩ := h <;> exact ⟨u, m, ha, rfl, rfl⟩

theorem TurnAlike.next (h : Alike m₀ m₀' c s m) : TurnAlike m₀ m₀' c (.next s) (.next (s.elsewhere m c)) :=
  ⟨s, m, h, rfl, rfl⟩

/-! ### The output primitives -/

theorem Alike.memWrite (h : Alike m₀ m₀' c s m) {a : Nat} (ha : s.inDst a = true) (v : Byte) :
    FlowAlike m₀ m₀' c (memWrite a v s) (memWrite a v (s.elsewhere m c)) := by
  have hw := h.writes a ha
  cases hp : portFault s.cfg .write a with
  | false =>
    rw [memWrite_go a v s hp, memWrite_go a v (s.elsewhere m c) (hw.trans hp)]
    exact ⟨_, _, h.write a v, .inl ⟨rfl, rfl⟩⟩
  | true =>
    rw [memWrite_stop a v s hp, memWrite_stop a v (s.elsewhere m c) (hw.trans hp)]
    exact FlowAlike.raise h .busError

theorem Alike.emit (h : Alike m₀ m₀' c s m) (b : Byte) :
    FlowAlike m₀ m₀' c (emit b s) (emit b (s.elsewhere m c)) := by
  have hq : (s.elsewhere m c).dstCap.toNat ≤ (s.elsewhere m c).q ↔ s.dstCap.toNat ≤ s.q := Iff.rfl
  unfold Machine.emit
  by_cases hle : s.dstCap.toNat ≤ s.q
  · rw [if_pos hle, if_pos (hq.2 hle)]
    exact FlowAlike.raise h .dstOverflow
  · rw [if_neg hle, if_neg (mt hq.1 hle)]
    have hd : s.inDst (s.dstAddr.toNat + s.q) = true := by
      simp only [State.inDst, inRange, Bool.and_eq_true, decide_eq_true_eq]
      omega
    exact (h.memWrite hd b).andThen fun u m _ hu => FlowAlike.go (hu.of_frame rfl rfl rfl rfl)

theorem Alike.emitList (bs : List Byte) (h : Alike m₀ m₀' c s m) :
    FlowAlike m₀ m₀' c (emitList bs s) (emitList bs (s.elsewhere m c)) := by
  induction bs generalizing s m with
  | nil => exact FlowAlike.go h
  | cons b bs ih => exact (h.emit b).andThen fun u m _ hu => ih hu

/-- Writes inside the destination: all of them, or those before the first that fails, in both. -/
theorem Alike.memWriteList (bs : List Byte) (h : Alike m₀ m₀' c s m) {a : Nat}
    (ha : ∀ j < bs.length, s.inDst (a + j) = true) :
    FlowAlike m₀ m₀' c (memWriteList a bs s) (memWriteList a bs (s.elsewhere m c)) := by
  induction bs generalizing s m a with
  | nil => exact FlowAlike.go h
  | cons b bs ih =>
    refine (h.memWrite (ha 0 (by simp)) b).andThen fun u m hu hal => ih hal fun j hj => ?_
    have hd : u.inDst = s.inDst := by
      unfold Machine.memWrite at hu
      split at hu <;> cases hu
      rfl
    rw [hd, Nat.add_assoc, Nat.add_comm 1 j]
    exact ha (j + 1) (by simpa using hj)

theorem Alike.writePixel (h : Alike m₀ m₀' c s m) (P : Pixel) (hg : goodChannels s.channels = true)
    (hn : s.n + 1 ≤ s.pixels) (hcap : s.pixels * s.chans ≤ s.dstCap.toNat) :
    FlowAlike m₀ m₀' c (writePixel P s) (writePixel P (s.elsewhere m c)) := by
  refine (h.memWriteList _ fun j hj => ?_).andThen fun u m _ hu => FlowAlike.go (hu.of_frame rfl rfl rfl rfl)
  rw [pixelBytes_length P hg] at hj
  have hj : j < s.chans := hj
  have := pixel_end_le (c := s.chans) hn
  simp only [State.inDst, inRange, Bool.and_eq_true, decide_eq_true_eq]
  omega

theorem Alike.writePixels (P : Pixel) (k : Nat) (h : Alike m₀ m₀' c s m) (hg : goodChannels s.channels = true)
    (hn : s.n + k ≤ s.pixels) (hcap : s.pixels * s.chans ≤ s.dstCap.toNat) :
    FlowAlike m₀ m₀' c (writePixels P k s) (writePixels P k (s.elsewhere m c)) := by
  induction k generalizing s m with
  | zero => exact FlowAlike.go h
  | succ k ih =>
    refine (h.writePixel P hg (by omega) hcap).andThen fun u m hu hal => ?_
    rcases writePixel_cases P s with ⟨_, he⟩ | ⟨_, _, _, he⟩
    · cases he.symm.trans hu
      exact ih hal hg (by show s.n + 1 + k ≤ s.pixels; omega) hcap
    · cases he.symm.trans hu

/-! ### The meanings -/

theorem Alike.emitPixelChunk (h : Alike m₀ m₀' c s m) (i : Instr) :
    FlowAlike m₀ m₀' c (emitPixelChunk i s) (emitPixelChunk i (s.elsewhere m c)) :=
  (h.emitList _).andThen fun _ _ _ hu => FlowAlike.go (hu.of_frame rfl rfl rfl rfl)

theorem Alike.emitRun (h : Alike m₀ m₀' c s m) (count : Nat) :
    FlowAlike m₀ m₀' c (emitRun count s) (emitRun count (s.elsewhere m c)) :=
  (h.emitList _).andThen fun _ _ _ hu => FlowAlike.go (hu.of_frame rfl rfl rfl rfl)

theorem Alike.emitHeader (h : Alike m₀ m₀' c s m) (w ht : Word) (ch cs : Byte) :
    FlowAlike m₀ m₀' c (emitHeader w ht ch cs s) (emitHeader w ht ch cs (s.elsewhere m c)) :=
  (h.emitList _).andThen fun _ _ _ hu => FlowAlike.go (hu.of_frame rfl rfl rfl rfl)

theorem Alike.emitEndMarker (h : Alike m₀ m₀' c s m) :
    FlowAlike m₀ m₀' c (emitEndMarker s) (emitEndMarker (s.elsewhere m c)) :=
  (h.emitList _).andThen fun _ _ _ hu => FlowAlike.go (hu.of_frame rfl rfl rfl rfl)

theorem Alike.flushRun (h : Alike m₀ m₀' c s m) :
    FlowAlike m₀ m₀' c (flushRun s) (flushRun (s.elsewhere m c)) := by
  have hr : (s.elsewhere m c).run = 0 ↔ s.run = 0 := Iff.rfl
  unfold Machine.flushRun
  by_cases h0 : s.run = 0
  · rw [if_pos h0, if_pos (hr.2 h0)]
    exact FlowAlike.go h
  · rw [if_neg h0, if_neg (mt hr.1 h0)]
    exact h.emitRun _

theorem Alike.noteAlpha (h : Alike m₀ m₀' c s m) :
    noteAlpha (s.elsewhere m c) = (noteAlpha s).elsewhere m c ∧ Alike m₀ m₀' c (noteAlpha s) m := by
  have hr : ((s.elsewhere m c).channels = 3 ∧ (s.elsewhere m c).prev.a ≠ 255) ↔ (s.channels = 3 ∧ s.prev.a ≠ 255) :=
    Iff.rfl
  unfold Machine.noteAlpha
  by_cases h0 : s.channels = 3 ∧ s.prev.a ≠ 255
  · rw [if_pos h0, if_pos (hr.2 h0)]
    exact ⟨rfl, h.of_frame rfl rfl rfl rfl⟩
  · rw [if_neg h0, if_neg (mt hr.1 h0)]
    exact ⟨rfl, h⟩

theorem Alike.commonTail (h : Alike m₀ m₀' c s m) (hg : goodChannels s.channels = true)
    (hcap : s.pixels * s.chans ≤ s.dstCap.toNat) :
    FlowAlike m₀ m₀' c (commonTail s) (commonTail (s.elsewhere m c)) := by
  have hr : (s.elsewhere m c).pixels < (s.elsewhere m c).n + 1 ↔ s.pixels < s.n + 1 := Iff.rfl
  unfold Machine.commonTail
  by_cases h0 : s.pixels < s.n + 1
  · rw [if_pos h0, if_pos (hr.2 h0)]
    exact FlowAlike.raise h .pixelCount
  · rw [if_neg h0, if_neg (mt hr.1 h0)]
    obtain ⟨he, ha⟩ := h.noteAlpha
    have hf : (Machine.noteAlpha s).channels = s.channels ∧ (Machine.noteAlpha s).n = s.n ∧
        (Machine.noteAlpha s).pixels = s.pixels ∧ (Machine.noteAlpha s).dstCap = s.dstCap := by
      unfold Machine.noteAlpha
      split <;> exact ⟨rfl, rfl, rfl, rfl⟩
    obtain ⟨hf1, hf2, hf3, hf4⟩ := hf
    rw [he]
    refine (ha.writePixel s.prev (by rw [hf1]; exact hg) (by rw [hf2, hf3]; omega) ?_).andThen
      fun u m _ hu => FlowAlike.go (hu.of_frame rfl rfl rfl rfl)
    rw [hf3, hf4, State.chans, hf1]
    exact hcap

theorem Alike.decodePixel (h : Alike m₀ m₀' c s m) (len : Nat) (P : Pixel) (hg : goodChannels s.channels = true)
    (hcap : s.pixels * s.chans ≤ s.dstCap.toNat) :
    FlowAlike m₀ m₀' c (decodePixel len P s) (decodePixel len P (s.elsewhere m c)) :=
  (h.of_frame (u := { s with prev := P, p := s.p + len }) rfl rfl rfl rfl).commonTail hg hcap

theorem Alike.decodeRun (h : Alike m₀ m₀' c s m) (count : Nat) (hg : goodChannels s.channels = true)
    (hcap : s.pixels * s.chans ≤ s.dstCap.toNat) :
    FlowAlike m₀ m₀' c (decodeRun count s) (decodeRun count (s.elsewhere m c)) := by
  have hr : (s.elsewhere m c).pixels < (s.elsewhere m c).n + count ↔ s.pixels < s.n + count := Iff.rfl
  unfold Machine.decodeRun
  by_cases h0 : s.pixels < s.n + count
  · rw [if_pos h0, if_pos (hr.2 h0)]
    exact FlowAlike.raise h .pixelCount
  · rw [if_neg h0, if_neg (mt hr.1 h0)]
    exact (h.writePixels s.prev count hg (by omega) hcap).andThen
      fun u m _ hu => FlowAlike.go (hu.of_frame rfl rfl rfl rfl)

/-- Every stream instruction on the encoder's side. -/
theorem Alike.exec_encoding (h : Alike m₀ m₀' c s m) (hp : s.phase = .encoding) {i : Instr}
    (hi : i.isChunk = true ∨ (∃ w ht ch cs, i = .header w ht ch cs) ∨ i = .endMarker) :
    TurnAlike m₀ m₀' c (exec i s) (exec i (s.elsewhere m c)) := by
  have hb : ∀ enc dec : State → Flow, FlowAlike m₀ m₀' c (enc s) (enc (s.elsewhere m c)) →
      TurnAlike m₀ m₀' c (byPhase enc dec s) (byPhase enc dec (s.elsewhere m c)) := fun enc dec hf => by
    rw [byPhase_encoding enc dec hp, byPhase_encoding enc dec (s := s.elsewhere m c) hp]
    exact hf.outcome
  cases i
  case run => exact hb _ _ (h.emitRun _)
  case header => exact hb _ _ (h.emitHeader _ _ _ _)
  case endMarker => exact hb _ _ h.emitEndMarker
  case encode => simp [Instr.isChunk] at hi
  case decode => simp [Instr.isChunk] at hi
  all_goals exact hb _ _ (h.emitPixelChunk _)

/-- Every chunk on the decoder's side. -/
theorem Alike.exec_chunk_decoding (h : Alike m₀ m₀' c s m) (hp : s.phase = .decoding) {i : Instr}
    (hi : i.isChunk = true) (hg : goodChannels s.channels = true) (hcap : s.pixels * s.chans ≤ s.dstCap.toNat) :
    TurnAlike m₀ m₀' c (exec i s) (exec i (s.elsewhere m c)) := by
  have hb : ∀ enc enc' dec dec' : State → Flow, FlowAlike m₀ m₀' c (dec s) (dec' (s.elsewhere m c)) →
      TurnAlike m₀ m₀' c (byPhase enc dec s) (byPhase enc' dec' (s.elsewhere m c)) := fun enc enc' dec dec' hf => by
    rw [byPhase_decoding enc dec hp, byPhase_decoding enc' dec' (s := s.elsewhere m c) hp]
    exact hf.outcome
  cases i
  case run => exact hb _ _ _ _ (h.decodeRun _ hg hcap)
  case header => cases hi
  case endMarker => cases hi
  case encode => cases hi
  case decode => cases hi
  all_goals exact hb _ _ _ _ (h.decodePixel _ _ hg hcap)

/-! ### What the engine reads -/

/-- The start checks on the buffers look at registers and `ADDR_W` alone. -/
theorem Alike.sizeFails (h : Alike m₀ m₀' c s m) : sizeFails (s.elsewhere m c) = sizeFails s := by
  have haw : (s.elsewhere m c).cfg.addrW = s.cfg.addrW := by
    show c.addrW = _
    rw [h.cfg]
  simp only [Machine.sizeFails, haw]
  rfl

/-- PIXEL READ reads the source range. -/
theorem Alike.readPixel (h : Alike m₀ m₀' c s m) (hg : goodChannels s.channels = true) (hi : s.i < s.pixels)
    (hl : s.srcLen.toNat = s.pixels * s.chans) : readPixel (s.elsewhere m c) = readPixel s := by
  have hsrc : ∀ j < s.chans, s.inSrc (s.srcAddr.toNat + s.i * s.chans + j) = true := fun j hj => by
    have := pixel_end_le (c := s.chans) (k := 1) (show s.i + 1 ≤ s.pixels by omega)
    simp only [State.inSrc, inRange, Bool.and_eq_true, decide_eq_true_eq]
    omega
  show readPixelAt (s.elsewhere m c) (s.srcAddr.toNat + s.i * s.chans) =
    readPixelAt s (s.srcAddr.toNat + s.i * s.chans)
  have hc : (s.elsewhere m c).channels = s.channels := rfl
  unfold readPixelAt
  rw [hc]
  simp only [goodChannels, Bool.or_eq_true, decide_eq_true_eq] at hg
  rcases hg with hg | hg
  · rw [if_neg (by rw [hg]; decide), if_neg (by rw [hg]; decide),
      h.memReadList 3 fun j hj => hsrc j (by rw [State.chans, hg]; exact hj)]
  · rw [if_pos hg, if_pos hg, h.memReadList 4 fun j hj => hsrc j (by rw [State.chans, hg]; exact hj)]

/-- The marker's bytes are compared where they stand in the source range. -/
theorem Alike.checkMarkerBytes (h : Alike m₀ m₀' c s m) (bs : List Byte) {a : Nat}
    (ha : ∀ j < bs.length, s.inSrc (a + j) = true) :
    checkMarkerBytes (s.elsewhere m c) a bs = checkMarkerBytes s a bs := by
  induction bs generalizing a with
  | nil => rfl
  | cons b bs ih =>
    have h0 : s.inSrc a = true := ha 0 (by simp)
    have h1 : ∀ j < bs.length, s.inSrc (a + 1 + j) = true := fun j hj => by
      rw [Nat.add_assoc, Nat.add_comm 1 j]
      exact ha (j + 1) (by simpa using hj)
    simp only [Machine.checkMarkerBytes, h.memRead h0, ih h1]

end

end Sys2Proof.Machine
end

