-- ==== Sys2Proof/Laws/Host.lean ====
section
/-! SUPPORT. What a turn of the host can do, said once. -/

namespace Sys2Proof.Machine

open Sys2Proof

/-- A turn of the host that goes on: a read, a register write, a START, a memory write or reset. -/
theorem hostTurn_cases {act : HostAction} {s t : State} (h : hostTurn act s = .next t) :
    (∃ v, t = { s with hostData := v }) ∨ (∃ r v, t = writeReg r v s) ∨
      (∃ m ie, t = startOperation m ie s) ∨
      (∃ a v, act = .writeMem a v ∧ a < 2 ^ s.cfg.addrW ∧ s.forbidsWrite a = false ∧
        t = { s with mem := s.mem.write a v }) ∨
      (act = .reset ∧ t = hardReset s) := by
  cases act with
  | readReg offset bytes =>
    simp only [hostTurn] at h
    split at h <;> cases h
    exact .inl ⟨_, rfl⟩
  | writeReg offset bytes v =>
    simp only [hostTurn] at h
    split at h
    · split at h
      · simp only [writeCtrl] at h
        split at h
        · rename_i i hd
          simp only [decodeCtrl] at hd
          split at hd
          · split at hd <;> cases hd <;> cases h <;> exact .inr (.inr (.inl ⟨_, _, rfl⟩))
          · cases hd
        · cases h
          exact .inr (.inl ⟨_, _, rfl⟩)
      · cases h
        exact .inr (.inl ⟨_, _, rfl⟩)
    · cases h
  | readMem a =>
    simp only [hostTurn] at h
    split at h
    · cases h
    · split at h <;> cases h
      exact .inl ⟨_, rfl⟩
  | writeMem a v =>
    simp only [hostTurn] at h
    split at h
    · cases h
    · split at h <;> cases h
      rename_i h1 h2
      exact .inr (.inr (.inr (.inl ⟨a, v, rfl, by omega, by simpa using h2, rfl⟩)))
  | reset =>
    simp only [hostTurn] at h
    cases h
    exact .inr (.inr (.inr (.inr ⟨rfl, rfl⟩)))

/-- An address register keeps its low `ADDR_W` bits. -/
theorem implemented_getLsbD (c : Config) (x : Long) (k : Nat) :
    (implemented c x).getLsbD k = (decide (k < c.addrW) && x.getLsbD k) := by
  rw [implemented, BitVec.getLsbD_and, BitVec.getLsbD_ofNat, Nat.testBit_two_pow_sub_one, Bool.and_comm]
  by_cases hk : k < 64
  · simp [hk]
  · simp [BitVec.getLsbD_of_ge _ _ (Nat.not_lt.1 hk)]

/-- An address register stays below `2^ADDR_W`. -/
theorem implemented_lt (c : Config) (x : Long) : (implemented c x).toNat < 2 ^ c.addrW := by
  rw [implemented, BitVec.toNat_and, BitVec.toNat_ofNat]
  refine Nat.lt_of_le_of_lt (Nat.and_le_right.trans (Nat.mod_le _ _)) ?_
  have := Nat.two_pow_pos c.addrW
  omega

/-- A register pair with its low word replaced, bit by bit. -/
theorem withLo_getLsbD (x : Long) (v : Word) (k : Nat) :
    (withLo x v).getLsbD k = if k < 32 then v.getLsbD k else x.getLsbD k := by
  rw [withLo, BitVec.getLsbD_append]
  by_cases hk : k < 32
  · simp [hk]
  · simp only [hk, if_false, hiWord, BitVec.getLsbD_extractLsb']
    rw [show 32 + (k - 32) = k by omega]
    by_cases h64 : k < 64
    · simp [show k - 32 < 32 by omega]
    · simp [show ¬ k - 32 < 32 by omega, BitVec.getLsbD_of_ge x k (by omega)]

/-- A register pair with its high word replaced, bit by bit. -/
theorem withHi_getLsbD (x : Long) (v : Word) (k : Nat) :
    (withHi x v).getLsbD k = if k < 32 then x.getLsbD k else v.getLsbD (k - 32) := by
  rw [withHi, BitVec.getLsbD_append]
  by_cases hk : k < 32
  · simp [hk, loWord]
  · simp [hk]

/-- The low word of a pair written low, then high. -/
theorem loWord_withHi_withLo (x : Long) (v w : Word) : loWord (withHi (withLo x v) w) = v := by
  apply BitVec.eq_of_getLsbD_eq
  intro k hk
  rw [loWord, BitVec.getLsbD_extractLsb', Nat.zero_add, withHi_getLsbD, withLo_getLsbD]
  simp [hk]

/-- The high word of a pair whose high word was written. -/
theorem hiWord_withHi (x : Long) (w : Word) : hiWord (withHi x w) = w := by
  apply BitVec.eq_of_getLsbD_eq
  intro k hk
  rw [hiWord, BitVec.getLsbD_extractLsb', withHi_getLsbD]
  simp [hk]

/-- A host read of the register at an offset. -/
theorem regReads_of {offset : BitVec 8} {r : Reg} (hr : regAt offset = r) (ha : alignedWord offset 4 = true)
    {s : State} {v : Word} (h : readReg r s = v) : regReads s offset v := by
  subst hr h
  simp only [regReads, hostTurn, ha, if_true]

/-- A host write of a register other than CTRL. -/
theorem regWrites_of {offset : BitVec 8} {r : Reg} (hr : regAt offset = r) (hc : r ≠ .ctrl)
    (ha : alignedWord offset 4 = true) (v : Word) (s : State) : regWrites s offset v (writeReg r v s) := by
  subst hr
  simp only [regWrites, hostTurn, ha, if_true]

/-- A host write of a register other than CTRL and STATUS while idle. -/
theorem regWrites_config {offset : BitVec 8} {r : Reg} (hr : regAt offset = r) (hc : r ≠ .ctrl) (hs : r ≠ .status)
    (ha : alignedWord offset 4 = true) (v : Word) {s : State} (hb : s.busy = false) :
    regWrites s offset v (writeConfig r v s) := by
  have h := regWrites_of hr hc ha v s
  cases r <;> first | exact absurd rfl hc | exact absurd rfl hs | simpa [writeReg, hb, writeConfig] using h

/-- The reset input leaves the engine idle, on the same platform. -/
theorem hardReset_phase (s : State) : (hardReset s).phase = .idle ∧ (hardReset s).cfg = s.cfg := by
  unfold hardReset
  split <;> exact ⟨rfl, rfl⟩

end Sys2Proof.Machine
end

