-- ==== Sys2Proof/Laws/PerInstr.lean ====
section
/-! SUPPORT. A law of every instruction as syntax: the length of its bytes (30_encoding.md R80, R71 and R79). -/

namespace Sys2Proof.Laws.Length

open Sys2Proof

/-- A well-formed chunk is as long as its first byte says; a header has 14 bytes, an end marker 8, a command none. -/
def Statement (i : Instr) : Prop :=
  wellFormed i = true →
    (i.isChunk = true → ∃ b0 rest, encodeBytes i = b0 :: rest ∧ chunkLength b0 = (encodeBytes i).length) ∧
      (i.isChunk = false →
        (encodeBytes i).length = 14 ∨ (encodeBytes i).length = 8 ∨ (encodeBytes i).length = 0)

theorem rgba (r g b a : Byte) : Statement (.rgba r g b a) :=
  fun _ => ⟨fun _ => ⟨_, _, rfl, rfl⟩, fun h => by cases h⟩

theorem rgb (r g b : Byte) : Statement (.rgb r g b) :=
  fun _ => ⟨fun _ => ⟨_, _, rfl, rfl⟩, fun h => by cases h⟩

theorem run (count : Nat) : Statement (.run count) := by
  refine fun hw => ⟨fun _ => ⟨_, _, rfl, ?_⟩, fun h => by cases h⟩
  simp only [wellFormed, Bool.and_eq_true, decide_eq_true_eq] at hw
  obtain ⟨h1, h2, h3, _⟩ := run_byte_fields count hw.1 hw.2
  rw [chunkLength, if_neg h1, if_neg h2, if_neg (by rw [h3]; decide)]
  rfl

theorem luma (dg drg dbg : Int) : Statement (.luma dg drg dbg) := by
  refine fun hw => ⟨fun _ => ⟨_, _, rfl, ?_⟩, fun h => by cases h⟩
  simp only [wellFormed, Bool.and_eq_true] at hw
  obtain ⟨h1, h2, h3, _⟩ := luma_byte0_fields dg hw.1.1
  rw [chunkLength, if_neg h1, if_neg h2, if_pos h3]
  rfl

theorem diff (dr dg db : Int) : Statement (.diff dr dg db) := by
  refine fun hw => ⟨fun _ => ⟨_, _, rfl, ?_⟩, fun h => by cases h⟩
  simp only [wellFormed, Bool.and_eq_true] at hw
  obtain ⟨h1, h2, h3, _⟩ := diff_byte_fields dr dg db hw.1.1 hw.1.2 hw.2
  rw [chunkLength, if_neg h1, if_neg h2, if_neg (by rw [h3]; decide)]
  rfl

theorem index (slot : BitVec 6) : Statement (.index slot) := by
  refine fun _ => ⟨fun _ => ⟨_, _, rfl, ?_⟩, fun h => by cases h⟩
  obtain ⟨h1, h2, h3, _⟩ := index_byte_fields slot
  rw [chunkLength, if_neg h1, if_neg h2, if_neg (by rw [h3]; decide)]
  rfl

theorem header (w h : Word) (c cs : Byte) : Statement (.header w h c cs) :=
  fun _ => ⟨fun h => (by cases h), fun _ => .inl rfl⟩

theorem endMarker : Statement .endMarker :=
  fun _ => ⟨fun h => (by cases h), fun _ => .inr (.inl rfl)⟩

theorem encode (ie : Bool) (rsv : BitVec 29) : Statement (.encode ie rsv) :=
  fun _ => ⟨fun h => (by cases h), fun _ => .inr (.inr rfl)⟩

theorem decode (ie : Bool) (rsv : BitVec 29) : Statement (.decode ie rsv) :=
  fun _ => ⟨fun h => (by cases h), fun _ => .inr (.inr rfl)⟩

end Sys2Proof.Laws.Length
end

