-- ==== Sys2Proof/Tests/Slice0.lean ====
section
/-! SUPPORT. Small tests: ill-formed terms are refused, words written out from the spec decode, single steps give the
values of 95_test_vectors.md, and every statement's hypotheses are met by a concrete state. -/

namespace Sys2Proof.Tests

open Sys2Proof Sys2Proof.Machine

set_option maxRecDepth 20000

/-! ### WellFormed: one ill-formed term for each check -/

theorem test_wf_run_low : wellFormed (.run 0) = false := by decide
theorem test_wf_run_high : wellFormed (.run 63) = false := by decide
theorem test_wf_luma_dg : wellFormed (.luma (-33) 0 0) = false ∧ wellFormed (.luma 32 0 0) = false := by decide
theorem test_wf_luma_drg : wellFormed (.luma 0 (-9) 0) = false ∧ wellFormed (.luma 0 8 0) = false := by decide
theorem test_wf_luma_dbg : wellFormed (.luma 0 0 (-9)) = false ∧ wellFormed (.luma 0 0 8) = false := by decide
theorem test_wf_diff_dr : wellFormed (.diff (-3) 0 0) = false ∧ wellFormed (.diff 2 0 0) = false := by decide
theorem test_wf_diff_dg : wellFormed (.diff 0 (-3) 0) = false ∧ wellFormed (.diff 0 2 0) = false := by decide
theorem test_wf_diff_db : wellFormed (.diff 0 0 (-3)) = false ∧ wellFormed (.diff 0 0 2) = false := by decide

/-! ### Words written out bit by bit (30_encoding.md R71 to R79, 10_state.md R31; bodies of 95_test_vectors.md) -/

/-- 11111111 then r, g, b, a (R78). -/
theorem test_word_rgba :
    decode (.chunk [0b11111111, 0b00010100, 0b00011110, 0b00101000, 0b10000000]) = .ok (.rgba 20 30 40 128) := by
  decide

/-- 11111110 then r, g, b (R77). -/
theorem test_word_rgb : decode (.chunk [0b11111110, 0b00001010, 0b00010100, 0b00011110]) = .ok (.rgb 10 20 30) := by
  decide

/-- 11nnnnnn, count = n + 1 (R76). -/
theorem test_word_run :
    decode (.chunk [0b11000000]) = .ok (.run 1) ∧ decode (.chunk [0b11111101]) = .ok (.run 62) := by decide

/-- 10gggggg rrrrbbbb with biases 32, 8, 8 (R75). -/
theorem test_word_luma :
    decode (.chunk [0b10000000, 0b00001111]) = .ok (.luma (-32) (-8) 7) ∧
      decode (.chunk [0b10111111, 0b11110000]) = .ok (.luma 31 7 (-8)) := by decide

/-- 01rrggbb with bias 2 (R74). -/
theorem test_word_diff :
    decode (.chunk [0b01110110]) = .ok (.diff 1 (-1) 0) ∧ decode (.chunk [0b01000000]) = .ok (.diff (-2) (-2) (-2)) := by
  decide

/-- 00ssssss (R73). -/
theorem test_word_index : decode (.chunk [0b00001001]) = .ok (.index 9) := by decide

/-- "qoif", width and height big-endian, channels, colorspace (R71; vector L1.12). -/
theorem test_word_header :
    decode (.header [0x71, 0x6F, 0x69, 0x66, 0, 0, 0, 0, 0xFF, 0xFF, 0xFF, 0xFF, 3, 0xAB]) =
      .ok (.header 0 0xFFFFFFFF 3 0xAB) := by decide

/-- Seven 0x00 and one 0x01 (R79); any other eight bytes fail (R85). -/
theorem test_word_end :
    decode (.marker [0, 0, 0, 0, 0, 0, 0, 1]) = .ok .endMarker ∧
      decode (.marker [0, 0, 0, 0, 0, 0, 0, 2]) = .error .badMarker := by decide

/-- START = bit 0, MODE = bit 1, IE = bit 2 (10_state.md R31). -/
theorem test_word_commands :
    decode (.ctrl 0x00000005) = .ok (.encode true 0) ∧ decode (.ctrl 0x00000003) = .ok (.decode false 0) ∧
      decode (.ctrl 0x00000004) = .error .noStart := by decide

/-- "qoiF" is no magic (40_header_codec.md R102). -/
theorem test_word_bad_magic :
    decode (.header [0x71, 0x6F, 0x69, 0x46, 0, 0, 0, 0, 0, 0, 0, 0, 4, 0]) = .error .badMagic := by decide

/-- The rows of the opcode table by their own `match` values. -/
theorem test_table_words :
    decodeTableWord 8 0xC0 = some (.run 1) ∧ decodeTableWord 8 0x40 = some (.diff (-2) (-2) (-2)) ∧
      decodeTableWord 8 0x00 = some (.index 0) ∧ decodeTableWord 16 0x80 = some (.luma (-32) (-8) (-8)) ∧
      decodeTableWord 32 0xFE = some (.rgb 0 0 0) ∧ decodeTableWord 40 0xFF = some (.rgba 0 0 0 0) ∧
      decodeTableWord 32 0x716F6966 = some (.header 0 0 0 0) ∧ decodeTableWord 64 1 = some .endMarker ∧
      decodeTableWord 32 1 = some (.encode false 0) ∧ decodeTableWord 32 3 = some (.decode false 0) := by decide

/-! ### Hash (95_test_vectors.md L2.1) -/

theorem test_hash :
    pixelHash ⟨0, 0, 0, 255⟩ = 53 ∧ pixelHash ⟨255, 255, 255, 255⟩ = 38 ∧ pixelHash ⟨1, 2, 3, 4⟩ = 14 ∧
      pixelHash ⟨128, 128, 128, 128⟩ = 0 ∧ pixelHash ⟨20, 30, 40, 128⟩ = 42 := by decide

/-! ### Small states -/

/-- A DECODE in its chunk loop, just after the header: `c` channels, `count` pixels wide and one high, the chunk stream at
offset 14 of address 0, the image at 0x100. -/
def dec (c : Byte) (count : Nat) (chunks : List Byte) : State :=
  { State.reset with
    mode := .decode, phase := .decoding, stage := .body, width := BitVec.ofNat 32 count, height := 1, channels := c
    srcLen := BitVec.ofNat 64 (14 + chunks.length + 8), dstAddr := 0x100, dstCap := BitVec.ofNat 64 (count * c.toNat)
    prev := opaqueBlack, p := 14, endOff := 14 + chunks.length
    mem := Memory.writeList [] 14 (chunks ++ endMarkerBytes) }

/-- An ENCODE in its pixel loop, just after the header: the image at 0x100, the stream at 0x200 with `cap` bytes of
room. -/
def enc (c : Byte) (image : List Byte) (cap : Nat) : State :=
  { State.reset with
    phase := .encoding, stage := .body, width := BitVec.ofNat 32 (image.length / c.toNat), height := 1, channels := c
    srcAddr := 0x100, srcLen := BitVec.ofNat 64 image.length, dstAddr := 0x200, dstCap := BitVec.ofNat 64 cap
    prev := opaqueBlack, q := 14, mem := Memory.writeList [] 0x100 image }

/-- The same platform with every access of a kind at one address failing. -/
def failing (k : Access) (a : Nat) (s : State) : State :=
  { s with cfg := { s.cfg with faults := [⟨k, a, a + 1⟩] } }

/-- What a test looks at in the next state; none at a fault or a refusal. -/
def after {α : Type} (x : Host.Outcome State Fault Refusal) (f : State → α) : Option α :=
  match x with
  | .next t => some (f t)
  | .fault _ => none
  | .refused _ => none

/-- The first `k` bytes at an address. -/
def bytesAt (s : State) (a k : Nat) : List Byte := (List.range k).map fun j => s.mem.read (a + j)

/-! ### One step of each instruction (95_test_vectors.md L2.2, L2.4, L2.8, P1, P2, P4) -/

/-- RGBA 9, 8, 7, 6 with four channels. -/
theorem test_rgba :
    after (step (dec 4 1 [0xFF, 9, 8, 7, 6])) (fun t => (t.prev, bytesAt t 0x100 4, t.p, t.n)) =
      some (⟨9, 8, 7, 6⟩, [9, 8, 7, 6], 19, 1) := by decide

/-- With three channels alpha is not written and ALPHA3 is set; slot 54 is written (P4). -/
theorem test_rgba_alpha3 :
    after (step (dec 3 1 [0xFF, 9, 8, 7, 6])) (fun t => (t.alpha3, bytesAt t 0x100 4, lookup t.table 54)) =
      some (true, [9, 8, 7, 0], ⟨9, 8, 7, 6⟩) := by decide

/-- RGB keeps alpha 6 (L2.4). -/
theorem test_rgb :
    after (step { dec 4 1 [0xFE, 1, 2, 3] with prev := ⟨9, 8, 7, 6⟩ }) (fun t => (t.prev, bytesAt t 0x100 4)) =
      some (⟨1, 2, 3, 6⟩, [1, 2, 3, 6]) := by decide

/-- RUN 2 writes `prev` twice and no slot. -/
theorem test_run :
    after (step { dec 3 3 [0xC1] with prev := ⟨100, 100, 100, 255⟩ })
        (fun t => (bytesAt t 0x100 7, t.n, t.p, lookup t.table 17)) =
      some ([100, 100, 100, 100, 100, 100, 0], 2, 15, ⟨0, 0, 0, 0⟩) := by decide

/-- Too many pixels: PIXEL_COUNT, no pixel written (L2.5). -/
theorem test_run_excess :
    after (step (dec 4 1 [0xC1])) (fun t => (statusWord t, bytesAt t 0x100 4)) =
      some (0x00000804, [0, 0, 0, 0]) := by decide

/-- LUMA -32, -8, 7 wraps below zero (L2.4). -/
theorem test_luma_low :
    after (step (dec 4 1 [0x80, 0x0F])) (fun t => bytesAt t 0x100 4) = some [0xD8, 0xE0, 0xE7, 0xFF] := by decide

/-- LUMA 31, 7, -8 (L2.4). -/
theorem test_luma_high :
    after (step (dec 4 1 [0xBF, 0xF0])) (fun t => bytesAt t 0x100 4) = some [0x26, 0x1F, 0x17, 0xFF] := by decide

/-- DIFF -2, -2, -2 wraps (L2.4). -/
theorem test_diff :
    after (step (dec 4 1 [0x40])) (fun t => bytesAt t 0x100 4) = some [0xFE, 0xFE, 0xFE, 0xFF] := by decide

/-- INDEX 5 of an unwritten slot with three channels: zeros and ALPHA3 (L2.4). -/
theorem test_index_unwritten :
    after (step (dec 3 1 [0x05])) (fun t => (t.alpha3, t.prev, bytesAt t 0x100 3)) =
      some (true, ⟨0, 0, 0, 0⟩, [0, 0, 0]) := by decide

/-- INDEX 9 gives the pixel UPDATE put there (P2). -/
theorem test_index_hit :
    after (step
        { dec 3 1 [0x09] with table := update (Vector.replicate 64 zeroPixel) ⟨10, 20, 30, 255⟩ })
        (fun t => bytesAt t 0x100 3) =
      some [10, 20, 30] := by decide

/-- HEADER latches the four fields, and an image that does not fit is DST_OVERFLOW (P1's follow-on, `DST_CAP = 23`). -/
theorem test_header_overflow :
    after (exec (.header 2 3 4 0) { dec 4 1 [] with stage := .header, dstCap := 23 })
        (fun t => (t.width, t.height, formatWord t, statusWord t)) =
      some (2, 3, 0x00000004, 0x00000504) := by decide

/-- Byte 12 = 5: BAD_CHANNELS, and FORMAT.CHANNELS reads 5 (L2.5). -/
theorem test_header_bad_channels :
    after (exec (.header 0 0 5 0) { dec 4 1 [] with stage := .header }) (fun t => (formatWord t, statusWord t)) =
      some (0x00000005, 0x00000704) := by decide

/-- END of a 2×3 image of four channels: DONE, OUT_LEN = 24 (P1's follow-on). -/
theorem test_end_decode :
    after (step { dec 4 6 [] with n := 6 }) (fun t => (statusWord t, t.outLen)) = some (0x00000002, 24) := by decide

/-- END of a 0×0 ENCODE: the marker, DONE, OUT_LEN = 22 (L1.1). -/
theorem test_end_encode :
    after (step (enc 4 [] 22)) (fun t => (bytesAt t 0x20E 8, t.outLen, statusWord t)) =
      some ([0, 0, 0, 0, 0, 0, 0, 1], 22, 0x00000002) := by decide

/-- While BUSY a write of 0x00000007 to CTRL sets IE alone (L2.8). -/
theorem test_command_while_busy :
    after (hostTurn (.writeReg 0 4 0x00000007) (enc 4 [] 22)) (fun t => (t.ie, t.mode, t.phase)) =
      some (true, .encode, .encoding) := by decide

/-- CTRL = 0x00000003 starts DECODE, and CTRL reads 0x00000002 (L2.8). -/
theorem test_decode_starts :
    after (exec (.decode false 0) State.reset) (fun t => (t.phase, ctrlWord t)) = some (.decoding, 0x00000002) := by
  decide

/-- After an error with code 4, writing 4 to STATUS clears ERR and keeps ERRCODE (L2.8, P3). -/
theorem test_status_clear :
    after (hostTurn (.writeReg 4 4 4) (raise .truncatedChunk (dec 4 1 []))) statusWord = some 0x00000400 := by decide

/-! ### The encoder's choices (95_test_vectors.md L2.2) -/

/-- (255, 1, 0) after (0, 0, 0): DIFF -1, 1, 0, byte 5E. -/
theorem test_encode_diff :
    after (step (enc 3 [255, 1, 0] 64)) (fun t => (bytesAt t 0x20E 2, t.q)) = some ([0x5E, 0], 15) := by decide

/-- (241, 8, 236) after (10, 40, 20): LUMA -32, 7, -8, bytes 80 F0. -/
theorem test_encode_luma :
    after (step { enc 3 [241, 8, 236] 64 with prev := ⟨10, 40, 20, 255⟩ }) (fun t => (bytesAt t 0x20E 2, t.q)) =
      some ([0x80, 0xF0], 16) := by decide

/-- A pixel after a run of two writes C1 first, then its own chunk (P2). -/
theorem test_encode_flush :
    after (step { enc 3 [10, 20, 30] 64 with
          prev := ⟨100, 100, 100, 255⟩, run := 2
          table := update (Vector.replicate 64 zeroPixel) ⟨10, 20, 30, 255⟩ })
        (fun t => (bytesAt t 0x20E 3, t.q, t.run)) =
      some ([0xC1, 0x09, 0], 16, 0) := by decide

/-- Alpha changes: RGBA 0, 0, 0, 254. -/
theorem test_encode_rgba :
    after (step (enc 4 [0, 0, 0, 254] 64)) (fun t => bytesAt t 0x20E 5) = some [0xFF, 0, 0, 0, 0xFE] := by decide

/-- The 62nd repeat writes FD (L1.6). -/
theorem test_encode_run_cap :
    after (step { enc 3 [0, 0, 0] 64 with run := 61 }) (fun t => (bytesAt t 0x20E 1, t.run)) = some ([0xFD], 0) := by
  decide

/-! ### Witnesses: states and operands that meet the hypotheses of each statement, clause by clause -/

theorem witness_DecodeEncodeRoundTrip :
    wellFormed (.run 1) = true ∧ wellFormed (.run 62) = true ∧ wellFormed (.luma (-32) (-8) 7) = true ∧
      wellFormed (.luma 31 7 (-8)) = true ∧ wellFormed (.diff (-2) 1 (-2)) = true ∧ wellFormed (.index 63) = true ∧
      wellFormed (.rgb 1 2 3) = true ∧ wellFormed (.rgba 1 2 3 4) = true ∧ wellFormed (.header 1 2 3 4) = true ∧
      wellFormed .endMarker = true ∧ wellFormed (.encode true 1) = true ∧ wellFormed (.decode true 1) = true := by
  decide

theorem witness_EncodeDecodeRoundTrip :
    decode (.chunk [0xFD]) = .ok (.run 62) ∧ decode (.marker endMarkerBytes) = .ok .endMarker ∧
      decode (.header [0x71, 0x6F, 0x69, 0x66, 0, 0, 0, 2, 0, 0, 0, 3, 4, 0]) = .ok (.header 2 3 4 0) ∧
      decode (.ctrl 0xFFFFFFFF) = .ok (.decode true 0x1FFFFFFF) := by decide

/-- The first and last first byte of each range, with as many payload bytes as it asks for. -/
theorem witness_FirstByteGivesKindLengthAndPixels :
    ∀ x ∈ ([(0x00, 0), (0x3F, 0), (0x40, 0), (0x7F, 0), (0x80, 1), (0xBF, 1), (0xC0, 0), (0xFD, 0), (0xFE, 3),
      (0xFF, 4)] : List (Byte × Nat)), x.2 + 1 = chunkLength x.1 := by decide

theorem witness_UpdateWritesTheHashedSlot :
    let t := update (Vector.replicate 64 zeroPixel) ⟨10, 20, 30, 255⟩
    lookup t (pixelHash ⟨10, 20, 30, 255⟩) = ⟨10, 20, 30, 255⟩ := by decide

/-- The five cases at the edges of their ranges: a hit; a miss with the deltas at -2 and 1; one beyond DIFF with the
green delta and the relative deltas at their edges; one beyond LUMA; a changed alpha. -/
theorem witness_ClassifierChoosesAWellFormedChunk :
    classify ⟨1, 2, 3, 255⟩ ⟨9, 9, 9, 255⟩ ⟨1, 2, 3, 255⟩ = .index (pixelHash ⟨1, 2, 3, 255⟩) ∧
      (let px : Pixel := ⟨8, 11, 8, 255⟩;
        let prev : Pixel := ⟨10, 10, 10, 255⟩;
        zeroPixel ≠ px ∧ px.a = prev.a ∧ (px.r - prev.r).toInt = -2 ∧ (px.g - prev.g).toInt = 1 ∧
          (px.b - prev.b).toInt = -2) ∧
      (let px : Pixel := ⟨226, 234, 241, 255⟩;
        let prev : Pixel := ⟨10, 10, 10, 255⟩;
        zeroPixel ≠ px ∧ px.a = prev.a ∧ (px.g - prev.g).toInt = -32 ∧
          ((px.r - prev.r) - (px.g - prev.g)).toInt = -8 ∧ ((px.b - prev.b) - (px.g - prev.g)).toInt = 7) ∧
      (let px : Pixel := ⟨42, 42, 42, 255⟩;
        let prev : Pixel := ⟨10, 10, 10, 255⟩;
        zeroPixel ≠ px ∧ px.a = prev.a ∧ (px.g - prev.g).toInt = 32) ∧
      (let px : Pixel := ⟨10, 10, 10, 254⟩;
        let prev : Pixel := ⟨10, 10, 10, 255⟩;
        zeroPixel ≠ px ∧ px.a ≠ prev.a) := by decide

theorem witness_RelativeDeltasWrapHarmlessly :
    within (-32) 31 (deltas ⟨0, 224, 0, 255⟩ ⟨100, 0, 200, 255⟩).dg = true ∧
      within (-32) 31 (deltas ⟨0, 31, 0, 255⟩ ⟨100, 0, 200, 255⟩).dg = true := by decide

theorem witness_LockstepOverOneChunk :
    let e := enc 4 [0, 0, 0, 254] 32
    let e := { e with px := ⟨0, 0, 0, 254⟩ }
    let d := dec 4 1 [0xFF, 0, 0, 0, 254]
    let i := classify e.px e.prev (lookup e.table (pixelHash e.px))
    e.phase = .encoding ∧ d.phase = .decoding ∧ e.table = d.table ∧ e.prev = d.prev ∧ e.px ≠ e.prev ∧
      e.q + (encodeBytes i).length ≤ e.dstCap.toNat ∧
      noFault e .write (e.dstAddr.toNat + e.q) (encodeBytes i).length ∧ d.n + 1 ≤ d.pixels ∧
      noFault d .write (d.dstAddr.toNat + d.n * d.chans) (pixelBytes d.channels e.px).length := by
  unfold noFault
  decide

theorem witness_RgbaAndRgbDecode :
    (let s := dec 4 1 [0xFF, 9, 8, 7, 6];
      s.phase = .decoding ∧ s.mem.wf ∧ s.n + 1 ≤ s.pixels ∧
        noFault s .write (s.dstAddr.toNat + s.n * s.chans) (pixelBytes s.channels ⟨9, 8, 7, 6⟩).length) ∧
      (let s := dec 3 1 [0xFE, 1, 2, 3];
        s.phase = .decoding ∧ s.mem.wf ∧ s.n + 1 ≤ s.pixels ∧
          noFault s .write (s.dstAddr.toNat + s.n * s.chans) (pixelBytes s.channels ⟨1, 2, 3, s.prev.a⟩).length) := by
  unfold noFault
  decide

theorem witness_LumaAndDiffDecode :
    (let s := dec 4 1 [0x80, 0x0F];
      s.phase = .decoding ∧ s.mem.wf ∧ s.n + 1 ≤ s.pixels ∧
        noFault s .write (s.dstAddr.toNat + s.n * s.chans)
          (pixelBytes s.channels (lumaPixel s.prev (-32) (-8) 7)).length) ∧
      (let s := dec 3 1 [0x40];
        s.phase = .decoding ∧ s.mem.wf ∧ s.n + 1 ≤ s.pixels ∧
          noFault s .write (s.dstAddr.toNat + s.n * s.chans)
            (pixelBytes s.channels (diffPixel s.prev (-2) (-2) (-2))).length) := by
  unfold noFault
  decide

theorem witness_IndexDecodes :
    let s := dec 3 1 [0x05]
    s.phase = .decoding ∧ s.mem.wf ∧ s.n + 1 ≤ s.pixels ∧
      noFault s .write (s.dstAddr.toNat + s.n * s.chans) (pixelBytes s.channels (lookup s.table 5)).length := by
  unfold noFault
  decide

theorem witness_RunDecodes :
    let s := dec 3 2 [0xC1]
    s.phase = .decoding ∧ s.mem.wf ∧ goodChannels s.channels = true ∧ s.n + 2 ≤ s.pixels ∧
      noFault s .write (s.dstAddr.toNat + s.n * s.chans) (2 * s.chans) := by
  unfold noFault
  decide

theorem witness_ExcessPixelsRaisePixelCount :
    (let s := { dec 4 1 [0x40] with n := 1 };
      Instr.isPixelChunk (.diff (-2) (-2) (-2)) = true ∧ s.phase = .decoding ∧ s.pixels < s.n + 1) ∧
      (let s := dec 4 1 [0xC1];
        s.phase = .decoding ∧ s.pixels < s.n + 2) := by decide

/-- One pixel with alpha 255 and one with another. -/
theorem witness_ThreeChannelAlphaSetsTheFlag :
    ∀ i ∈ ([.rgba 9 8 7 6, .rgba 9 8 7 255] : List Instr),
      let s := dec 3 1 (encodeBytes i)
      i.isPixelChunk = true ∧ s.phase = .decoding ∧ s.mem.wf ∧ s.channels = 3 ∧ s.n + 1 ≤ s.pixels ∧
        noFault s .write (s.dstAddr.toNat + s.n * 3) 3 := by
  unfold noFault
  decide

/-- The last byte of a pixel fails, and the first byte of a run's second pixel. -/
theorem witness_FailingPixelWriteKeepsAPrefix :
    (let s := failing .write 0x103 (dec 4 1 [0xFF, 9, 8, 7, 6]);
      Instr.isPixelChunk (.rgba 9 8 7 6) = true ∧ s.phase = .decoding ∧ s.mem.wf ∧ goodChannels s.channels = true ∧
        s.n + 1 ≤ s.pixels ∧ 3 < s.chans ∧ noFault s .write (s.dstAddr.toNat + s.n * s.chans) 3 ∧
        portFault s.cfg .write (s.dstAddr.toNat + s.n * s.chans + 3) = true) ∧
      (let s := failing .write 0x104 (dec 4 2 [0xC1]);
        s.phase = .decoding ∧ s.mem.wf ∧ goodChannels s.channels = true ∧ s.n + 2 ≤ s.pixels ∧ 4 < 2 * s.chans ∧
          noFault s .write (s.dstAddr.toNat + s.n * s.chans) 4 ∧
          portFault s.cfg .write (s.dstAddr.toNat + s.n * s.chans + 4) = true) := by
  unfold noFault
  decide

/-- A chunk that fits exactly, and the shortest and longest run. -/
theorem witness_ChunksEncode :
    (let s := enc 4 [0, 0, 0, 254] 19;
      Instr.isPixelChunk (.rgba 0 0 0 254) = true ∧ s.phase = .encoding ∧ s.mem.wf ∧
        s.q + (encodeBytes (.rgba 0 0 0 254)).length ≤ s.dstCap.toNat ∧
        noFault s .write (s.dstAddr.toNat + s.q) (encodeBytes (.rgba 0 0 0 254)).length) ∧
      (let s := enc 4 [0, 0, 0, 255] 15;
        s.phase = .encoding ∧ s.mem.wf ∧ s.q < s.dstCap.toNat ∧
          portFault s.cfg .write (s.dstAddr.toNat + s.q) = false ∧ 1 ≤ 1 ∧ 1 ≤ 62 ∧ 1 ≤ 62 ∧ 62 ≤ 62) := by
  unfold noFault
  decide

/-- No room; room and a failing write; room and a good write. -/
theorem witness_EmitChecksBeforeEachByte :
    (enc 4 [] 14).dstCap.toNat ≤ (enc 4 [] 14).q ∧
      (let s := failing .write 0x20E (enc 4 [] 15);
        s.q < s.dstCap.toNat ∧ portFault s.cfg .write (s.dstAddr.toNat + s.q) = true) ∧
      (let s := enc 4 [] 15;
        s.q < s.dstCap.toNat ∧ portFault s.cfg .write (s.dstAddr.toNat + s.q) = false ∧ s.mem.wf) := by decide

/-- No byte of a chunk fits, and all but the last; a RUN, the last byte of a header and of the marker without room; a
chunk whose last byte cannot be written. -/
theorem witness_EncoderOverflowKeepsAPrefix :
    (∀ x ∈ ([(.rgba 0 0 0 254, 14, 0), (.rgba 0 0 0 254, 18, 4), (.run 62, 14, 0), (.header 1 1 4 0, 27, 13),
        (.endMarker, 21, 7)] : List (Instr × Nat × Nat)),
      let s := enc 4 [0, 0, 0, 254] x.2.1
      s.phase = .encoding ∧ s.mem.wf ∧ emitFailsAt s (encodeBytes x.1).length x.2.2 .dstOverflow) ∧
      (let s := failing .write 0x212 (enc 4 [0, 0, 0, 254] 19);
        s.phase = .encoding ∧ s.mem.wf ∧ emitFailsAt s (encodeBytes (.rgba 0 0 0 254)).length 4 .busError) := by
  unfold emitFailsAt noFault
  decide

/-- A pending run without room, and with room but none for the chunk, or the marker, after it. -/
theorem witness_EncoderOverflowKeepsAPrefix_pendingRun :
    (∀ x ∈ ([(14, 0), (15, 1)] : List (Nat × Nat)),
      let s := { enc 3 [5, 5, 5] x.1 with run := 61 }
      let P : Pixel := ⟨5, 5, 5, 255⟩
      let out := pendingRun s ++ encodeBytes (classify P s.prev (lookup s.table (pixelHash P)))
      s.phase = .encoding ∧ s.stage = .body ∧ s.i < s.pixels ∧ readPixel s = some P ∧ P ≠ s.prev ∧ s.mem.wf ∧
        emitFailsAt s out.length x.2 .dstOverflow) ∧
      ∀ x ∈ ([(14, 0), (15, 1), (22, 8)] : List (Nat × Nat)),
        let s := { enc 3 [] x.1 with run := 61 }
        let out := pendingRun s ++ [0, 0, 0, 0, 0, 0, 0, 1]
        s.phase = .encoding ∧ s.stage = .body ∧ s.pixels ≤ s.i ∧ s.mem.wf ∧
          emitFailsAt s out.length x.2 .dstOverflow := by
  unfold emitFailsAt noFault
  decide

theorem witness_PixelReadTakesChannelsInOrder :
    (let s := enc 4 [1, 2, 3, 4] 64;
      s.channels = 4 ∧ noFault s .read (s.srcAddr.toNat + s.i * 4) 4 ∧
        holdsAt s.mem (s.srcAddr.toNat + s.i * 4) [1, 2, 3, 4]) ∧
      (let s := enc 3 [1, 2, 3] 64;
        s.channels = 3 ∧ noFault s .read (s.srcAddr.toNat + s.i * 3) 3 ∧
          holdsAt s.mem (s.srcAddr.toNat + s.i * 3) [1, 2, 3]) ∧
      (let s := failing .read 0x102 (enc 3 [1, 2, 3] 64);
        2 < s.chans ∧ goodChannels s.channels = true ∧
          portFault s.cfg .read (s.srcAddr.toNat + s.i * s.chans + 2) = true ∧ s.phase = .encoding ∧
          s.stage = .body ∧ s.i < s.pixels) := by
  unfold noFault holdsAt
  decide

/-- The counter at 60 and 61; room, no room, and a failing write. -/
theorem witness_RepeatedPixelsAreCounted :
    (let s := { enc 3 [0, 0, 0] 64 with run := 60 };
      s.phase = .encoding ∧ s.stage = .body ∧ s.i < s.pixels ∧ readPixel s = some s.prev ∧ s.run.toNat < 61) ∧
      (let s := { enc 3 [0, 0, 0] 15 with run := 61 };
        s.phase = .encoding ∧ s.stage = .body ∧ s.i < s.pixels ∧ readPixel s = some s.prev ∧ s.run.toNat = 61 ∧
          s.q < s.dstCap.toNat ∧ s.mem.wf ∧ portFault s.cfg .write (s.dstAddr.toNat + s.q) = false) ∧
      (let s := { enc 3 [0, 0, 0] 14 with run := 61 };
        s.phase = .encoding ∧ s.stage = .body ∧ s.i < s.pixels ∧ readPixel s = some s.prev ∧ s.run.toNat = 61 ∧
          s.dstCap.toNat ≤ s.q) ∧
      (let s := failing .write 0x20E { enc 3 [0, 0, 0] 15 with run := 61 };
        s.phase = .encoding ∧ s.stage = .body ∧ s.i < s.pixels ∧ readPixel s = some s.prev ∧ s.run.toNat = 61 ∧
          s.q < s.dstCap.toNat ∧ portFault s.cfg .write (s.dstAddr.toNat + s.q) = true) := by decide

/-- With no run pending and with one; both exactly fit. -/
theorem witness_DifferingPixelFlushesThenEncodes :
    ∀ x ∈ ([(0, 16), (61, 17)] : List (Nat × Nat)),
      let s := { enc 3 [5, 5, 5] x.2 with run := BitVec.ofNat 6 x.1 }
      let P : Pixel := ⟨5, 5, 5, 255⟩
      let out := pendingRun s ++ encodeBytes (classify P s.prev (lookup s.table (pixelHash P)))
      s.phase = .encoding ∧ s.stage = .body ∧ s.i < s.pixels ∧ readPixel s = some P ∧ P ≠ s.prev ∧ s.mem.wf ∧
        s.q + out.length ≤ s.dstCap.toNat ∧ noFault s .write (s.dstAddr.toNat + s.q) out.length := by
  unfold noFault
  decide

theorem witness_EncodeEndsWithMarkerAndDone :
    ∀ x ∈ ([(0, 22), (61, 23)] : List (Nat × Nat)),
      let s := { enc 3 [] x.2 with run := BitVec.ofNat 6 x.1 }
      let out := pendingRun s ++ [0, 0, 0, 0, 0, 0, 0, 1]
      s.phase = .encoding ∧ s.stage = .body ∧ s.pixels ≤ s.i ∧ s.mem.wf ∧ s.q + out.length ≤ s.dstCap.toNat ∧
        noFault s .write (s.dstAddr.toNat + s.q) out.length := by
  unfold noFault
  decide

/-- The image fits exactly, and is one byte too large. -/
theorem witness_HeaderDecodesWhenTheImageFits :
    (let s := { dec 4 6 [] with stage := .header };
      s.phase = .decoding ∧ ((4 : Byte) = 3 ∨ (4 : Byte) = 4) ∧
        (2 : Word).toNat * (3 : Word).toNat * (4 : Byte).toNat ≤ s.dstCap.toNat) ∧
      (let s := { dec 4 6 [] with stage := .header, dstCap := 23 };
        s.phase = .decoding ∧ ((4 : Byte) = 3 ∨ (4 : Byte) = 4) ∧
          s.dstCap.toNat < (2 : Word).toNat * (3 : Word).toNat * (4 : Byte).toNat) := by decide

theorem witness_BadChannelsAfterTheLatch :
    (dec 4 1 []).phase = .decoding ∧ ∀ c ∈ ([0, 2, 5, 255] : List Byte), c ≠ 3 ∧ c ≠ 4 := by decide

/-- A DECODE about to read its header. -/
def decHeader (bytes : List Byte) : State :=
  { dec 4 6 [] with stage := .header, srcLen := 22, mem := Memory.writeList [] 0 bytes }

/-- "qoif" with a failing read of the first and of the last field byte. -/
theorem witness_MagicIsChecked_fields :
    ∀ j ∈ [4, 13],
      let s := failing .read j (decHeader [0x71, 0x6F, 0x69, 0x66])
      s.phase = .decoding ∧ s.stage = .header ∧ 4 ≤ j ∧ j < 14 ∧ noFault s .read s.srcAddr.toNat 4 ∧
        holdsAt s.mem s.srcAddr.toNat [0x71, 0x6F, 0x69, 0x66] ∧
        portFault s.cfg .read (s.srcAddr.toNat + j) = true := by
  unfold noFault holdsAt
  decide

/-- "qoiF", a failing fourth read, and "qoif". -/
theorem witness_MagicIsChecked :
    (let s := decHeader [0x71, 0x6F, 0x69, 0x46];
      s.phase = .decoding ∧ s.stage = .header ∧ noFault s .read s.srcAddr.toNat 4 ∧
        ¬ holdsAt s.mem s.srcAddr.toNat [0x71, 0x6F, 0x69, 0x66]) ∧
      (let s := failing .read 3 (decHeader [0x71, 0x6F, 0x69, 0x66]);
        s.phase = .decoding ∧ s.stage = .header ∧ portFault s.cfg .read (s.srcAddr.toNat + 3) = true) ∧
      (let s := decHeader [0x71, 0x6F, 0x69, 0x66];
        s.phase = .decoding ∧ s.stage = .header ∧ noFault s .read s.srcAddr.toNat 4 ∧
          holdsAt s.mem s.srcAddr.toNat [0x71, 0x6F, 0x69, 0x66]) := by
  unfold noFault holdsAt
  decide

theorem witness_HeaderEncodes :
    let s := { enc 4 [] 14 with stage := .header, q := 0 }
    s.phase = .encoding ∧ s.stage = .header ∧ s.mem.wf ∧ s.q + 14 ≤ s.dstCap.toNat ∧
      noFault s .write (s.dstAddr.toNat + s.q) 14 := by
  unfold noFault
  decide

theorem witness_EndCompletesTheOperation :
    (let s := { dec 4 6 [] with n := 6 };
      s.phase = .decoding ∧ s.pixels * s.chans ≤ s.dstCap.toNat) ∧
      (let s := enc 4 [] 22;
        s.phase = .encoding ∧ s.mem.wf ∧ s.q + 8 ≤ s.dstCap.toNat ∧
          noFault s .write (s.dstAddr.toNat + s.q) 8) := by
  unfold noFault
  decide

/-- Too few pixels; the first and the last marker byte that cannot be read, and that differ. -/
theorem witness_EndMarkerIsChecked :
    (let s := dec 4 2 [];
      s.phase = .decoding ∧ s.stage = .body ∧ s.endOff ≤ s.p ∧ s.n ≠ s.pixels) ∧
      (∀ j ∈ [0, 7],
        let s := failing .read (14 + j) { dec 4 2 [] with n := 2 }
        s.phase = .decoding ∧ s.stage = .body ∧ s.endOff ≤ s.p ∧ s.n = s.pixels ∧
          noFault s .read (s.srcAddr.toNat + s.endOff) j ∧
          holdsAt s.mem (s.srcAddr.toNat + s.endOff) (([0, 0, 0, 0, 0, 0, 0, 1] : List Byte).take j) ∧
          portFault s.cfg .read (s.srcAddr.toNat + s.endOff + j) = true) ∧
      ∀ j ∈ [0, 7],
        let s := { dec 4 2 [] with n := 2, mem := ([(14 + j, 2)] : Memory) }
        s.phase = .decoding ∧ s.stage = .body ∧ s.endOff ≤ s.p ∧ s.n = s.pixels ∧
          noFault s .read (s.srcAddr.toNat + s.endOff) j ∧
          holdsAt s.mem (s.srcAddr.toNat + s.endOff) (([0, 0, 0, 0, 0, 0, 0, 1] : List Byte).take j) ∧
          portFault s.cfg .read (s.srcAddr.toNat + s.endOff + j) = false ∧
          s.mem.read (s.srcAddr.toNat + s.endOff + j) ≠ (if j = 7 then 1 else 0) := by
  unfold noFault holdsAt
  decide

/-- A first byte that cannot be read; the first and the last payload byte of a chunk that just fits. -/
theorem witness_TruncatedChunkRaised_failingRead :
    (let s := failing .read 14 (dec 4 1 [0xFF, 1, 2, 3, 4]);
      s.phase = .decoding ∧ s.stage = .body ∧ s.p < s.endOff ∧
        portFault s.cfg .read (s.srcAddr.toNat + s.p) = true) ∧
      ∀ j ∈ [1, 4],
        let s := failing .read (14 + j) (dec 4 1 [0xFF, 1, 2, 3, 4])
        s.phase = .decoding ∧ s.stage = .body ∧ s.p < s.endOff ∧ memRead s (s.srcAddr.toNat + s.p) = some 0xFF ∧
          s.p + chunkLength 0xFF ≤ s.endOff ∧ 1 ≤ j ∧ j < chunkLength 0xFF ∧
          portFault s.cfg .read (s.srcAddr.toNat + s.p + j) = true := by decide

/-- A chunk one byte too long, and one that just fits. -/
theorem witness_TruncatedChunkRaised :
    (let s := dec 4 1 [0xFF, 1, 2, 3];
      s.phase = .decoding ∧ s.stage = .body ∧ s.p < s.endOff ∧ memRead s (s.srcAddr.toNat + s.p) = some 0xFF ∧
        1 < chunkLength 0xFF ∧ s.endOff < s.p + chunkLength 0xFF) ∧
      (let s := dec 4 1 [0xFF, 1, 2, 3, 4];
        s.p < s.endOff ∧ fetchChunk s = .ok (.rgba 1 2 3 4)) := by decide

theorem witness_CommandsStartWhenIdle : State.reset.busy = false := by decide

theorem witness_StartWhileBusyOnlyStoresEnable :
    (enc 4 [] 22).busy = true ∧ (dec 4 1 []).busy = true ∧ { enc 4 [] 22 with ie := true }.ie = true ∧
      (let s := complete 22 (enc 4 [] 22);
        s.busy = false ∧ (s.done = true ∨ s.err = true)) ∧
      (let s := raise .busError (enc 4 [] 22);
        s.busy = false ∧ (s.done = true ∨ s.err = true)) := by decide

/-- An operation whose start checks come next, with the given buffers (95_test_vectors.md L2.6 and L2.7). -/
def starting (ph : Phase) (srcAddr srcLen dstAddr dstCap : Long) (c : Byte) : State :=
  { State.reset with
    phase := ph, width := 2, height := 3, channels := c, srcAddr := srcAddr, srcLen := srcLen, dstAddr := dstAddr
    dstCap := dstCap }

/-- Each clause's own case, those before it passed. -/
theorem witness_EncodeChecksInOrder :
    (2 ^ 32 < (starting .encoding 0xFFFFFFF0 0x20 0 0 9).srcAddr.toNat +
        (starting .encoding 0xFFFFFFF0 0x20 0 0 9).srcLen.toNat) ∧
      (∃ a, (starting .encoding 0x1000 0x18 0x1010 0x40 9).inSrc a = true ∧
        (starting .encoding 0x1000 0x18 0x1010 0x40 9).inDst a = true) ∧
      (∀ s ∈ [starting .encoding 0x1000 24 0 0 9, starting .encoding 0x1000 23 0 0 4,
          starting .encoding 0x1000 24 0 0 4],
        s.phase = .encoding ∧ s.stage = .start ∧
          ¬ (2 ^ s.cfg.addrW < s.srcAddr.toNat + s.srcLen.toNat ∨
            2 ^ s.cfg.addrW < s.dstAddr.toNat + s.dstCap.toNat) ∧
          s.dstCap.toNat = 0) ∧
      (starting .encoding 0x1000 24 0 0 9).channels ≠ 3 ∧ (starting .encoding 0x1000 24 0 0 9).channels ≠ 4 ∧
      (starting .encoding 0x1000 23 0 0 4).srcLen.toNat ≠ 2 * 3 * 4 ∧
      (starting .encoding 0x1000 24 0 0 4).srcLen.toNat = 2 * 3 * 4 :=
  ⟨by decide, ⟨0x1017, by decide⟩, by decide, by decide, by decide, by decide, by decide⟩

/-- An empty destination shares no byte, so the three last cases above have no overlap. -/
theorem witness_no_shared_byte (s : State) (h : s.dstCap.toNat = 0) :
    ¬ ∃ a, s.inSrc a = true ∧ s.inDst a = true := by
  rintro ⟨a, _, ha⟩
  simp only [State.inDst, inRange, Bool.and_eq_true, decide_eq_true_eq] at ha
  omega

theorem witness_DecodeChecksInOrder :
    (2 ^ 32 < (starting .decoding 0 0 0xFFFFFFF0 0x11 0).dstAddr.toNat +
        (starting .decoding 0 0 0xFFFFFFF0 0x11 0).dstCap.toNat) ∧
      (∃ a, (starting .decoding 0x1000 0x18 0x1017 0x40 0).inSrc a = true ∧
        (starting .decoding 0x1000 0x18 0x1017 0x40 0).inDst a = true) ∧
      ∀ x ∈ ([(21, true), (22, false)] : List (Nat × Bool)),
        let s := starting .decoding 0x1000 (BitVec.ofNat 64 x.1) 0 0 0
        s.phase = .decoding ∧ s.stage = .start ∧ decide (s.srcLen.toNat < 22) = x.2 ∧ s.dstCap.toNat = 0 ∧
          ¬ (2 ^ s.cfg.addrW < s.srcAddr.toNat + s.srcLen.toNat ∨
            2 ^ s.cfg.addrW < s.dstAddr.toNat + s.dstCap.toNat) :=
  ⟨by decide, ⟨0x1017, by decide⟩, by decide⟩

/-- One shared byte, adjacent ranges, and an empty source (95_test_vectors.md L2.7). -/
theorem witness_OverlapMeansASharedByte :
    ∀ x ∈ [(starting .encoding 0x1000 0x18 0x1017 0x40 4, true), (starting .decoding 0x1000 0x18 0x1018 0x40 4, false),
        (starting .encoding 0x1000 0 0x1000 0x40 4, false)],
      x.1.stage = .start ∧ (x.1.phase = .encoding ∨ x.1.phase = .decoding) ∧ sizeFails x.1 = false ∧
        overlapFails x.1 = x.2 := by decide

theorem witness_StepTakesTheTurn :
    engineMoves State.reset ∧ engineMoves { State.reset with schedule := [.engine] } ∧
      { State.reset with schedule := [.host .reset] }.schedule.head? = some (.host .reset) :=
  ⟨.inl rfl, .inr rfl, rfl⟩

/-- A chunk, the header, the end marker and a command, each where the step fetches it. -/
theorem witness_StepRunsTheDecodedInstruction :
    (let s := dec 4 1 [0xFF, 1, 2, 3, 4];
      s.schedule.head? = none ∧ s.phase = .decoding ∧ s.stage = .body ∧ Instr.isChunk (.rgba 1 2 3 4) = true ∧
        wellFormed (.rgba 1 2 3 4) = true ∧ s.p + (encodeBytes (.rgba 1 2 3 4)).length ≤ s.endOff ∧
        noFault s .read (s.srcAddr.toNat + s.p) (encodeBytes (.rgba 1 2 3 4)).length ∧
        holdsAt s.mem (s.srcAddr.toNat + s.p) (encodeBytes (.rgba 1 2 3 4))) ∧
      (let s := decHeader (encodeBytes (.header 2 3 4 0));
        s.schedule.head? = none ∧ s.phase = .decoding ∧ s.stage = .header ∧ noFault s .read s.srcAddr.toNat 14 ∧
          holdsAt s.mem s.srcAddr.toNat (encodeBytes (.header 2 3 4 0))) ∧
      (let s := { dec 4 2 [] with n := 2 };
        s.schedule.head? = none ∧ s.phase = .decoding ∧ s.stage = .body ∧ s.endOff ≤ s.p ∧ s.n = s.pixels ∧
          noFault s .read (s.srcAddr.toNat + s.endOff) 8 ∧
          holdsAt s.mem (s.srcAddr.toNat + s.endOff) (encodeBytes .endMarker)) ∧
      (let s := { State.reset with schedule := [.host (.writeReg 0 4 5)] };
        s.schedule.head? = some (.host (.writeReg 0 4 5)) ∧ decode (.ctrl 5) = .ok (.encode true 0)) := by
  unfold noFault holdsAt
  decide

/-- A DECODE in its chunk loop. -/
def decodes : State := dec 4 1 [0xFF, 9, 8, 7, 6]

/-- An ENCODE in its pixel loop. -/
def encodes : State := enc 3 [5, 5, 5] 64

theorem witness_decodes_invariants :
    MemoryInv decodes ∧ SlotInv decodes ∧ AddressInv decodes ∧ StatusInv decodes ∧ OperationInv decodes ∧
      after (step decodes) (fun _ => ()) = some () := by
  refine ⟨?_, ?_, ?_, ?_, ⟨?_, ?_⟩, ?_⟩
  · unfold MemoryInv; decide
  · unfold SlotInv; decide
  · unfold AddressInv; decide
  · unfold StatusInv; decide
  · unfold EncodeInv BuffersInv; decide
  · unfold DecodeInv BuffersInv; decide
  · decide

theorem witness_encodes_invariants :
    MemoryInv encodes ∧ SlotInv encodes ∧ AddressInv encodes ∧ StatusInv encodes ∧ OperationInv encodes ∧
      after (step encodes) (fun _ => ()) = some () := by
  refine ⟨?_, ?_, ?_, ?_, ⟨?_, ?_⟩, ?_⟩
  · unfold MemoryInv; decide
  · unfold SlotInv; decide
  · unfold AddressInv; decide
  · unfold StatusInv; decide
  · unfold EncodeInv BuffersInv; decide
  · unfold DecodeInv BuffersInv; decide
  · decide

/-- `MemoryInvariantKept`, `SlotInvariantKept`, `StatusAndAddressInvariantKept`, `OperationInvariantKept`: a busy
engine of each kind meets all the invariants, and its step goes on. -/
theorem witness_invariants_kept :
    ∀ s, s = decodes ∨ s = encodes →
      MemoryInv s ∧ SlotInv s ∧ AddressInv s ∧ StatusInv s ∧ OperationInv s ∧
        after (step s) (fun _ => ()) = some () := by
  rintro s (rfl | rfl)
  · exact witness_decodes_invariants
  · exact witness_encodes_invariants

/-- The bytes beside the destination, and the first and last of the source. -/
theorem witness_EngineWritesOnlyTheDestination :
    OperationInv decodes ∧ after (engineTurn decodes) (fun _ => ()) = some () ∧ decodes.inDst 0xFF = false ∧
      decodes.inDst 0x104 = false ∧ decodes.inSrc 0 = true ∧ decodes.inSrc 26 = true :=
  ⟨witness_decodes_invariants.2.2.2.2.1, by decide⟩

/-- The last byte of a pixel and of the room; the last byte of a chunk and of the image; a DECODE before its header. -/
theorem witness_EngineAddressesFitThePort :
    (OperationInv encodes ∧ encodes.stage ≠ .start ∧ encodes.phase = .encoding ∧ encodes.i < encodes.pixels ∧
        2 < encodes.chans ∧ 63 < encodes.dstCap.toNat) ∧
      (OperationInv decodes ∧ decodes.stage ≠ .start ∧ decodes.phase = .decoding ∧ decodes.stage = .body ∧
        decodes.p + 4 < decodes.endOff ∧ 0 < decodes.pixels ∧ 3 < decodes.chans) ∧
      (OperationInv { decodes with stage := .header } ∧ ({ decodes with stage := .header } : State).stage ≠ .start) := by
  refine ⟨⟨witness_encodes_invariants.2.2.2.2.1, by decide⟩, ⟨witness_decodes_invariants.2.2.2.2.1, by decide⟩,
    ⟨?_, ?_⟩, by decide⟩
  · unfold EncodeInv BuffersInv
    decide
  · unfold DecodeInv BuffersInv
    decide

/-- `s` with another byte at `a` and two more failing accesses, a read at `a` and a write at `b`. -/
def changedOutside (s : State) (a b : Nat) (v : Byte) : State :=
  { s with
    mem := s.mem.write a v
    cfg := { s.cfg with faults := ⟨.read, a, a + 1⟩ :: ⟨.write, b, b + 1⟩ :: s.cfg.faults } }

/-- When `a` is no source byte and `b` no destination byte, the two states have the same buffers. -/
theorem sameBuffers_changedOutside {s : State} {a b : Nat} (v : Byte) (hw : s.mem.wf) (ha : s.inSrc a = false)
    (hb : s.inDst b = false) : SameBuffers s (changedOutside s a b v) := by
  have hne : ∀ x, s.inSrc x = true → x ≠ a := by
    rintro x hx rfl
    rw [hx] at ha
    cases ha
  have hne' : ∀ x, s.inDst x = true → x ≠ b := by
    rintro x hx rfl
    rw [hx] at hb
    cases hb
  refine ⟨rfl, hw, Memory.wf_write a v hw, fun x hx => ⟨Memory.read_write_other _ _ _ _ (hne x hx), ?_⟩,
    fun x hx => ?_⟩
  · have := hne x hx
    have h : (decide (a ≤ x) && decide (x ≤ a)) = false := by
      simp only [Bool.and_eq_false_iff, decide_eq_false_iff_not]
      omega
    simp [changedOutside, portFault, List.any_cons, h]
    rfl
  · have := hne' x hx
    have h : (decide (b ≤ x) && decide (x ≤ b)) = false := by
      simp only [Bool.and_eq_false_iff, decide_eq_false_iff_not]
      omega
    simp [changedOutside, portFault, List.any_cons, h]
    rfl

/-- A DECODE and an ENCODE, each beside itself with another byte in the destination, a read of it that fails and a write of
the source that fails: no access the engine makes. -/
theorem witness_EngineAddressesFitThePort_sameBuffers :
    (OperationInv decodes ∧ SameBuffers decodes (changedOutside decodes 0x100 0 7)) ∧
      (OperationInv encodes ∧ SameBuffers encodes (changedOutside encodes 0x200 0x100 7)) :=
  ⟨⟨witness_decodes_invariants.2.2.2.2.1, sameBuffers_changedOutside 7 (by decide) (by decide) (by decide)⟩,
    ⟨witness_encodes_invariants.2.2.2.2.1, sameBuffers_changedOutside 7 (by decide) (by decide) (by decide)⟩⟩

theorem witness_EngineNeverStops :
    (dec 4 1 [0xFF]).schedule = [] ∧ State.reset.phase = .idle ∧ Instr.isChunk (.run 1) = true := by decide

theorem witness_EveryOperationEnds :
    (dec 4 1 [0xFF]).schedule = [] ∧ (dec 4 1 [0xFF]).busy = true ∧ (enc 4 [] 0).schedule = [] ∧
      (enc 4 [] 0).busy = true := by decide

theorem witness_EncodeCompletesWithinLengthBounds :
    let s := { enc 3 [5, 5, 5] 26 with stage := .start }
    s.schedule = [] ∧ s.phase = .encoding ∧ s.stage = .start ∧ encodeCheck s = .none ∧
      22 + s.pixels * (s.chans + 1) ≤ s.dstCap.toNat ∧ noFault s .read s.srcAddr.toNat s.srcLen.toNat ∧
      noFault s .write s.dstAddr.toNat s.dstCap.toNat := by
  unfold noFault
  decide

theorem witness_IdleEngineDoesNothing : State.reset.phase = .idle ∧ State.reset.schedule = [] := by decide

theorem witness_LeftoverStateDoesNotMatter :
    State.reset.phase = .idle ∧ State.reset.schedule = [] ∧
      ∃ (ie : Bool) (rsv : BitVec 29), Instr.encode true 0 = .encode ie rsv ∨ Instr.encode true 0 = .decode ie rsv :=
  ⟨rfl, rfl, true, 0, .inl rfl⟩

/-- A write of CTRL without START while idle and with START while busy; two states that differ in `prev` alone. -/
theorem witness_HostNeverReachesInternalState :
    (HostAction.writeReg 0 4 4 ≠ .reset ∧ (4 : Word).getLsbD 0 = false ∧
        after (hostTurn (.writeReg 0 4 4) State.reset) (fun _ => ()) = some ()) ∧
      ((5 : Word).getLsbD 0 = true ∧ (enc 4 [] 22).busy = true ∧
        after (hostTurn (.writeReg 0 4 5) (enc 4 [] 22)) (fun _ => ()) = some ()) ∧
      hostAgree (enc 4 [] 22) { enc 4 [] 22 with prev := zeroPixel } := by
  unfold hostAgree
  decide

theorem witness_ConfigurationIsLockedWhileBusy :
    (enc 4 [] 22).busy = true ∧ ∀ offset ∈ ([0, 4, 8, 0x30, 0xFC] : List (BitVec 8)), offset.toNat % 4 = 0 := by
  decide

/-- An idle state, and CTRL values with START = 0; SRC_ADDR and DST_ADDR keep their low 32 bits on this platform. -/
theorem witness_ConfigurationReadsBack :
    State.reset.busy = false ∧ (0x00000006 : Word).getLsbD 0 = false ∧
      after (hostTurn (.writeReg 0x18 4 0xFFFFFFFF)
          { State.reset with srcAddr := 0x1000, dstAddr := 0x2000 }) (fun t => (t.srcAddr, t.dstAddr)) =
        some (0x1000, 0x2000) ∧
      after (hostTurn (.readReg 0x24 4) { State.reset with srcAddr := 0x1000, dstAddr := 0x2000 })
        (fun t => t.hostData) = some 0x2000 := by decide

/-- The first and last reserved offsets; values that differ in reserved bits; each way an access can be misshapen. -/
theorem witness_ReservedSpaceReadsZero :
    (∀ offset ∈ ([0x3C, 0xFC] : List (BitVec 8)), 0x3C ≤ offset.toNat ∧ offset.toNat % 4 = 0) ∧
      (0xFFFFFFFF#32 &&& 0x00000007#32 = 0x7#32 &&& 0x00000007#32) ∧
      (0xFFFFFFFF#32 &&& 0x0000000E#32 = 0xE#32 &&& 0x0000000E#32) ∧
      (0xFFFFFFFF#32 &&& 0x0000FFFF#32 = 0xFFFF#32 &&& 0x0000FFFF#32) ∧
      ((2 ≠ 4 ∨ (0 : BitVec 8).toNat % 4 ≠ 0) ∧ (4 ≠ 4 ∨ (2 : BitVec 8).toNat % 4 ≠ 0)) := by decide

/-- The first address that does not exist and the last that does; the buffers' first and last bytes while BUSY; a byte
beside them. -/
theorem witness_HostMemoryAccesses :
    let s := enc 4 [1, 2, 3, 4] 64
    2 ^ s.cfg.addrW ≤ 0x100000000 ∧
      ((0x103 < 2 ^ s.cfg.addrW ∧ s.busy = true ∧ s.inSrc 0x103 = true) ∧ s.inDst 0x200 = true ∧
        s.inDst 0x23F = true) ∧
      (0xFFFFFFFF < 2 ^ s.cfg.addrW ∧ s.mem.wf ∧ s.inSrc 0xFFFFFFFF = false ∧ s.inDst 0xFFFFFFFF = false) ∧
      (s.inSrc 0x104 = false ∧ s.inDst 0x104 = false) ∧ State.reset.busy = false := by decide

/-- Inside and outside the destination of an ENCODE, and an idle engine; the registers of the ENCODE are not 0 before. -/
theorem witness_ResetAbandonsTheOperation :
    (enc 4 [1, 2, 3, 4] 64).inDst 0x1FF = false ∧ (enc 4 [1, 2, 3, 4] 64).inSrc 0x100 = true ∧
      State.reset.busy = false ∧ (enc 4 [1, 2, 3, 4] 64).srcAddr ≠ 0 ∧ (enc 4 [1, 2, 3, 4] 64).width ≠ 0 := by decide

theorem witness_InstancesShareNothing :
    let e := { State.reset with cfg := { State.reset.cfg with regBase := 0x100 } }
    let P : Platform := { engines := [State.reset, e], mem := [] }
    P.legal = true ∧ P.engines[1]? = some e ∧
      (match P.stepAt 1 with
        | .next Q => Q.engines.length == 2
        | .fault _ => false
        | .refused _ => false) = true := by decide

end Sys2Proof.Tests
end

section
/-! The register words by bit, the offsets of the map, and what a host write reads of its value
(10_state.md R30 to R38 and R41). -/

namespace Sys2Proof.Machine

open Sys2Proof

/-! ### CTRL, STATUS and FORMAT as the host reads them -/

/-- `CTRL` is laid out as the commands are, with START 0 and the reserved bits 0. -/
theorem ctrlWord_eq_ctrlValue (s : State) :
    ctrlWord s = ctrlValue false (decide (s.mode = .decode)) s.ie 0 := rfl

theorem ctrlWord_getLsbD_ie (s : State) : (ctrlWord s).getLsbD 2 = s.ie := by
  obtain ⟨-, -, hie, -⟩ := ctrlValue_fields false (decide (s.mode = .decode)) s.ie 0
  rw [ctrlWord_eq_ctrlValue, hie]

theorem statusWord_getLsbD_done (s : State) : (statusWord s).getLsbD 1 = s.done := by
  simp only [statusWord, BitVec.getLsbD_append]
  simp

theorem statusWord_getLsbD_err (s : State) : (statusWord s).getLsbD 2 = s.err := by
  simp only [statusWord, BitVec.getLsbD_append]
  simp

/-- The mask is written in the fields of `ctrlWord`: all ones where the bits are reserved, START among them. -/
theorem ctrlWord_reserved (s : State) : ctrlWord s &&& 0xFFFFFFF9#32 = 0 := by
  change (0#29 ++ BitVec.ofBool s.ie ++ BitVec.ofBool (decide (s.mode = .decode)) ++ 0#1) &&&
    (0x1FFFFFFF#29 ++ 0#1 ++ 0#1 ++ 1#1) = 0
  simp only [BitVec.and_append, BitVec.zero_and, BitVec.and_zero]
  rfl

/-- The mask is written in the fields of `statusWord`: all ones where the bits are reserved. -/
theorem statusWord_reserved (s : State) : statusWord s &&& 0xFFFFF0F0#32 = 0 := by
  change (0#20 ++ s.errcode.code ++ 0#4 ++ BitVec.ofBool s.alpha3 ++ BitVec.ofBool s.err ++ BitVec.ofBool s.done ++
      BitVec.ofBool s.busy) &&&
    (0xFFFFF#20 ++ 0#4 ++ 0xF#4 ++ 0#1 ++ 0#1 ++ 0#1 ++ 0#1) = 0
  simp only [BitVec.and_append, BitVec.zero_and, BitVec.and_zero]
  rfl

/-- The mask is written in the fields of `formatWord`: all ones where the bits are reserved. -/
theorem formatWord_reserved (s : State) : formatWord s &&& 0xFFFF0000#32 = 0 := by
  change (0#16 ++ s.colorspace ++ s.channels) &&& (0xFFFF#16 ++ 0#8 ++ 0#8) = 0
  simp only [BitVec.and_append, BitVec.zero_and, BitVec.and_zero]
  rfl

/-! ### Offsets -/

theorem regAt_eq_reserved_of_ge {offset : BitVec 8} (h : 0x3C ≤ offset.toNat) : regAt offset = .reserved := by
  revert offset
  decide

theorem alignedWord_eq_true_iff (offset : BitVec 8) (bytes : Nat) :
    alignedWord offset bytes = true ↔ bytes = 4 ∧ offset.toNat % 4 = 0 := by
  simp [alignedWord]

/-! ### What a write reads of its value -/

/-- Values that agree under a mask agree at each of its bits. -/
theorem getLsbD_eq_of_and_eq {w : Nat} {v v' m : BitVec w} (h : v &&& m = v' &&& m) {k : Nat}
    (hk : m.getLsbD k = true) : v.getLsbD k = v'.getLsbD k := by
  simpa [hk] using congrArg (fun x => x.getLsbD k) h

/-- Values that agree under a mask agree on a field the mask covers. -/
theorem extractLsb'_eq_of_and_eq {w : Nat} {v v' m : BitVec w} (h : v &&& m = v' &&& m) {start len : Nat}
    (hm : m.extractLsb' start len = BitVec.allOnes len) : v.extractLsb' start len = v'.extractLsb' start len := by
  simpa [BitVec.extractLsb'_and, hm] using congrArg (fun x => x.extractLsb' start len) h

/-- A write of CTRL, told by START and MODE (44_framing_and_commands.md R180). -/
theorem writeCtrl_eq (v : Word) (s : State) :
    writeCtrl v s = .next (if v.getLsbD 0 then
      startOperation (if v.getLsbD 1 then .decode else .encode) (v.getLsbD 2) s else storeCtrl v s) := by
  cases hstart : v.getLsbD 0
  · simp only [writeCtrl, decodeCtrl, hstart, Bool.false_eq_true, if_false, writeReg]
  · cases hmode : v.getLsbD 1 <;>
      simp only [writeCtrl, decodeCtrl, hstart, hmode, Bool.false_eq_true, if_true, if_false, exec, execEncode,
        execDecode]

/-- A write of CTRL reads bits 2:0 of the value alone: START, MODE and IE. -/
theorem writeCtrl_congr {v v' : Word} (h : v &&& 0x00000007#32 = v' &&& 0x00000007#32) (s : State) :
    writeCtrl v s = writeCtrl v' s := by
  have hstart : v.getLsbD 0 = v'.getLsbD 0 := getLsbD_eq_of_and_eq h rfl
  have hmode : v.getLsbD 1 = v'.getLsbD 1 := getLsbD_eq_of_and_eq h rfl
  have hie : v.getLsbD 2 = v'.getLsbD 2 := getLsbD_eq_of_and_eq h rfl
  simp only [writeCtrl_eq, storeCtrl, hstart, hmode, hie]

/-- A write of STATUS reads bits 3:1 of the value alone: the flags it clears. -/
theorem clearStatus_congr {v v' : Word} (h : v &&& 0x0000000E#32 = v' &&& 0x0000000E#32) (s : State) :
    clearStatus v s = clearStatus v' s := by
  have hdone : v.getLsbD 1 = v'.getLsbD 1 := getLsbD_eq_of_and_eq h rfl
  have herr : v.getLsbD 2 = v'.getLsbD 2 := getLsbD_eq_of_and_eq h rfl
  have halpha : v.getLsbD 3 = v'.getLsbD 3 := getLsbD_eq_of_and_eq h rfl
  simp only [clearStatus, hdone, herr, halpha]

/-- A write of FORMAT reads bits 15:0 of the value alone: CHANNELS and COLORSPACE. -/
theorem writeReg_format_congr {v v' : Word} (h : v &&& 0x0000FFFF#32 = v' &&& 0x0000FFFF#32) (s : State) :
    writeReg .format v s = writeReg .format v' s := by
  have hchannels : v.extractLsb' 0 8 = v'.extractLsb' 0 8 := extractLsb'_eq_of_and_eq h rfl
  have hcolorspace : v.extractLsb' 8 8 = v'.extractLsb' 8 8 := extractLsb'_eq_of_and_eq h rfl
  simp only [writeReg, writeConfig, hchannels, hcolorspace]

/-! ### Host accesses -/

theorem hostTurn_writeReg_ctrl (v : Word) (s : State) : hostTurn (.writeReg 0 4 v) s = writeCtrl v s := rfl

/-- An access to an aligned offset past the map reads 0 and writes nothing. -/
theorem hostTurn_reserved {offset : BitVec 8} (hge : 0x3C ≤ offset.toNat) (hal : offset.toNat % 4 = 0) (v : Word)
    (s : State) : regReads s offset 0 ∧ regWrites s offset v s := by
  have hr := regAt_eq_reserved_of_ge hge
  have ha := (alignedWord_eq_true_iff offset 4).2 ⟨rfl, hal⟩
  exact ⟨regReads_of hr ha rfl, regWrites_of hr (by decide) ha v s⟩

/-- An access of another shape has no meaning. -/
theorem hostTurn_refuses_misshapen {offset : BitVec 8} {bytes : Nat} (h : bytes ≠ 4 ∨ offset.toNat % 4 ≠ 0)
    (v : Word) (s : State) :
    hostTurn (.readReg offset bytes) s = .refused .registerAccessShape ∧
      hostTurn (.writeReg offset bytes v) s = .refused .registerAccessShape := by
  have ha : ¬ alignedWord offset bytes = true := by
    rw [alignedWord_eq_true_iff]
    omega
  exact ⟨if_neg ha, if_neg ha⟩

end Sys2Proof.Machine
end

section
/-! The reserved space of the register block and the interrupt output, settled. -/

namespace Sys2Proof.Machine

/-- Settles O57: the host reads IE, DONE and ERR at the bits the map gives them. -/
theorem irqIsEnableAndDoneOrErr : Obligations.IrqIsEnableAndDoneOrErr := by
  intro s
  rw [ctrlWord_getLsbD_ie, statusWord_getLsbD_done, statusWord_getLsbD_err, State.irq]

/-- Settles O56: the offsets past the map, the reserved bits as read, the reserved bits as written, and the access
shapes, one lemma for each. -/
theorem reservedSpaceReadsZero : Obligations.ReservedSpaceReadsZero := by
  refine ⟨fun offset v s hge hal => hostTurn_reserved hge hal v s,
    fun s => ⟨ctrlWord_reserved s, statusWord_reserved s, formatWord_reserved s⟩,
    fun v v' s => ⟨fun h => ?ctrl, fun h => ?status, fun h => ?format⟩,
    fun offset bytes v s h => hostTurn_refuses_misshapen h v s⟩
  case ctrl => rw [hostTurn_writeReg_ctrl, hostTurn_writeReg_ctrl, writeCtrl_congr h]
  case status => exact congrArg Host.Outcome.next (clearStatus_congr h s)
  case format => exact congrArg Host.Outcome.next (writeReg_format_congr h s)

end Sys2Proof.Machine
end

section
/-! A chunk told by the range of its first byte: the dispatch and the length (30_encoding.md R72 and R80). -/

namespace Sys2Proof

/-- Below the two exact bytes the tag alone decides: neither exact-byte test holds, and `b0[7:6]` is `b0 / 64`. -/
theorem tag_decides {b0 : Byte} (h : b0.toNat ≤ 0xFD) :
    b0 ≠ 0xFF ∧ b0 ≠ 0xFE ∧ field b0 6 2 = b0.toNat / 64 := by
  obtain ⟨hff, hfe, htop, -⟩ := first_byte_ranges b0
  exact ⟨mt hff.1 (by omega), mt hfe.1 (by omega), htop⟩

/-! ### The length of each range -/

theorem chunkLength_eq_one {b0 : Byte} (h : b0.toNat ≤ 0xFD) (hluma : b0.toNat / 64 ≠ 2) : chunkLength b0 = 1 := by
  obtain ⟨hff, hfe, htop⟩ := tag_decides h
  rw [chunkLength, if_neg hff, if_neg hfe, if_neg (by omega)]

/-- A chunk of one byte has no payload. -/
theorem payload_eq_nil {b0 : Byte} {payload : List Byte} (hlen : payload.length + 1 = chunkLength b0)
    (h : b0.toNat ≤ 0xFD) (hluma : b0.toNat / 64 ≠ 2) : payload = [] := by
  rw [chunkLength_eq_one h hluma] at hlen
  exact List.eq_nil_of_length_eq_zero (Nat.succ.inj hlen)

theorem chunkLength_eq_two {b0 : Byte} (h : b0.toNat / 64 = 2) : chunkLength b0 = 2 := by
  obtain ⟨hff, hfe, htop⟩ := tag_decides (b0 := b0) (by omega)
  rw [chunkLength, if_neg hff, if_neg hfe, if_pos (by omega)]

/-! ### The chunk of each range -/

theorem decodeChunk_index {b0 : Byte} (h : b0.toNat / 64 = 0) (bs : List Byte) :
    decodeChunk (b0 :: bs) = .ok (.index (b0.extractLsb' 0 6), bs) := by
  obtain ⟨hff, hfe, htop⟩ := tag_decides (b0 := b0) (by omega)
  simp only [decodeChunk]
  rw [if_neg hff, if_neg hfe, if_neg (by omega), if_neg (by omega), if_neg (by omega)]

theorem decodeChunk_diff {b0 : Byte} (h : b0.toNat / 64 = 1) (bs : List Byte) :
    decodeChunk (b0 :: bs) = .ok (.diff (unbias b0 4 2 2) (unbias b0 2 2 2) (unbias b0 0 2 2), bs) := by
  obtain ⟨hff, hfe, htop⟩ := tag_decides (b0 := b0) (by omega)
  simp only [decodeChunk]
  rw [if_neg hff, if_neg hfe, if_neg (by omega), if_neg (by omega), if_pos (by omega)]

theorem decodeChunk_luma {b0 : Byte} (h : b0.toNat / 64 = 2) (b1 : Byte) (bs : List Byte) :
    decodeChunk (b0 :: b1 :: bs) = .ok (.luma (unbias b0 0 6 32) (unbias b1 4 4 8) (unbias b1 0 4 8), bs) := by
  obtain ⟨hff, hfe, htop⟩ := tag_decides (b0 := b0) (by omega)
  simp only [decodeChunk]
  rw [if_neg hff, if_neg hfe, if_neg (by omega), if_pos (by omega)]

/-- The count is in the low six bits; the two largest would be the bytes of RGB and RGBA. -/
theorem decodeChunk_run {b0 : Byte} (h : b0.toNat / 64 = 3) (hle : b0.toNat ≤ 0xFD) (bs : List Byte) :
    decodeChunk (b0 :: bs) = .ok (.run (b0.toNat % 64 + 1), bs) := by
  obtain ⟨hff, hfe, htop⟩ := tag_decides hle
  obtain ⟨-, -, -, hlow⟩ := first_byte_ranges b0
  simp only [decodeChunk]
  rw [if_neg hff, if_neg hfe, if_pos (by omega), hlow]

end Sys2Proof
end

section
/-! The chunk kinds by first byte, settled. -/

namespace Sys2Proof

/-- Settles O3: the payload is as long as the length of the range says, so the chunk decodes, and the dispatch on the
first byte names it. -/
theorem firstByteGivesKindLengthAndPixels : Obligations.FirstByteGivesKindLengthAndPixels := by
  intro b0 payload rest hlen
  obtain ⟨i, hi⟩ := decodeChunk_total b0 payload rest hlen
  refine ⟨i, hi, fun h => ?index, fun ⟨h1, h2⟩ => ?diff, fun ⟨h1, h2⟩ => ?luma, fun ⟨h1, h2⟩ => ?run,
    fun h => ?rgb, fun h => ?rgba⟩
  case index =>
    obtain rfl := payload_eq_nil hlen (by omega) (by omega)
    cases (decodeChunk_index (by omega) rest).symm.trans hi
    exact ⟨hlen.symm, rfl, _, rfl⟩
  case diff =>
    obtain rfl := payload_eq_nil hlen (by omega) (by omega)
    cases (decodeChunk_diff (by omega) rest).symm.trans hi
    exact ⟨hlen.symm, rfl, _, _, _, rfl⟩
  case luma =>
    have hl : chunkLength b0 = 2 := chunkLength_eq_two (by omega)
    obtain ⟨b1, rfl⟩ := List.length_eq_one_iff.1 (Nat.succ.inj (hlen.trans hl))
    cases (decodeChunk_luma (by omega) b1 rest).symm.trans hi
    exact ⟨hl, rfl, _, _, _, rfl⟩
  case run =>
    obtain rfl := payload_eq_nil hlen h2 (by omega)
    cases (decodeChunk_run (by omega) h2 rest).symm.trans hi
    refine ⟨hlen.symm, rfl, rfl, Nat.le_add_left 1 _, ?_⟩
    simp only [Instr.pixelsMade]
    omega
  case rgb =>
    obtain rfl : b0 = 0xFE := BitVec.eq_of_toNat_eq h
    obtain ⟨r, g, b, rfl⟩ := List.length_eq_three.1 (Nat.succ.inj hlen)
    cases hi
    exact ⟨rfl, rfl, _, _, _, rfl⟩
  case rgba =>
    obtain rfl : b0 = 0xFF := BitVec.eq_of_toNat_eq h
    match payload, Nat.succ.inj hlen with
    | [r, g, b, a], _ =>
      cases hi
      exact ⟨rfl, rfl, _, _, _, _, rfl⟩

end Sys2Proof
end

section
/-! The header's magic and the reads of its fourteen bytes: what is fetched, case by case
(40_header_codec.md R102 and R103). -/

namespace Sys2Proof.Machine

/-- Reads none of which fails give some bytes. -/
theorem memReadList_of_noFault {s : State} {a len : Nat} (hf : noFault s .read a len) :
    ∃ bs, memReadList s a len = some bs := by
  have h := memReadList_eq ((List.range len).map fun j => s.mem.read (a + j)) s a (by simpa using hf)
    fun j hj => by simp
  rw [List.length_map, List.length_range] at h
  exact ⟨_, h⟩

/-! ### What is fetched -/

/-- A failing read of one of the magic's four bytes. -/
theorem fetchHeader_magic_fails {s : State} {j : Nat} (h4 : j < 4)
    (hj : portFault s.cfg .read (s.srcAddr.toNat + j) = true) : fetchHeader s = .error .busError := by
  rw [fetchHeader, memReadList_none s 4 _ j h4 hj]

/-- Four bytes that can be read and are not the magic. -/
theorem fetchHeader_badMagic {s : State} (hf : noFault s .read s.srcAddr.toNat 4)
    (hb : ¬ holdsAt s.mem s.srcAddr.toNat magic) : fetchHeader s = .error .badMagic := by
  obtain ⟨m, hm⟩ := memReadList_of_noFault hf
  obtain ⟨-, -, hread⟩ := memReadList_some hm
  have hne : m ≠ magic := fun h => hb (h ▸ hread)
  rw [fetchHeader, hm]
  exact if_pos hne

/-- With the magic there, a header is fetched or a field byte cannot be read. -/
theorem fetchHeader_of_magic {s : State} (hf : noFault s .read s.srcAddr.toNat 4)
    (hb : holdsAt s.mem s.srcAddr.toNat magic) :
    fetchHeader s = .error .busError ∨ ∃ w h c cs, fetchHeader s = .ok (.header w h c cs) := by
  have hm : memReadList s s.srcAddr.toNat 4 = some magic := memReadList_eq magic s _ hf hb
  cases hfields : memReadList s (s.srcAddr.toNat + 4) 10 with
  | none => exact .inl (by simp [fetchHeader, hm, hfields])
  | some fields =>
    obtain ⟨hlen, -, -⟩ := memReadList_some hfields
    obtain ⟨w, h, c, cs, hd, -⟩ := decodeHeader_magic fields hlen
    exact .inr ⟨w, h, c, cs, by simp [fetchHeader, hm, hfields, hd]⟩

/-! ### The engine's turn at the header -/

theorem engineTurn_header {s : State} (hp : s.phase = .decoding) (hs : s.stage = .header) :
    engineTurn s = runFetched (fetchHeader s) s := by
  rw [engineTurn_decoding hp, decodeTransition, hs]

theorem engineTurn_header_error {s : State} {code : ErrCode} (hp : s.phase = .decoding) (hs : s.stage = .header)
    (h : fetchHeader s = .error code) : engineTurn s = .next (raise code s) := by
  rw [engineTurn_header hp hs, h, runFetched]

/-- `raise` tells its code: different errors leave different states. -/
theorem next_raise_ne {code code' : ErrCode} (h : code ≠ code') (s t : State) :
    (.next (raise code s) : Host.Outcome State Fault Refusal) ≠ .next (raise code' t) :=
  fun e => h (congrArg State.errcode (Host.Outcome.next.inj e))

/-- HEADER in the decoder, once fetched, ends with another error or stays in the operation. -/
theorem exec_header_ne_badMagic {s : State} (hp : s.phase = .decoding) (w h : Word) (c cs : Byte) :
    exec (.header w h c cs) s ≠ .next (raise .badMagic s) := by
  rw [exec_header_decoding hp]
  rcases decodeHeaderFields_cases w h c cs s with ⟨-, he⟩ | ⟨-, -, he⟩ | ⟨-, -, he⟩
  · rw [he]
    exact next_raise_ne (by decide) _ _
  · rw [he]
    exact next_raise_ne (by decide) _ _
  · intro e
    rw [he] at e
    have hphase : s.phase = .idle := congrArg State.phase (Host.Outcome.next.inj e)
    rw [hp] at hphase
    cases hphase

/-- A channel count that is neither 3 nor 4 is reported after the latch (40_header_codec.md R104 and R105). -/
theorem decodeHeaderFields_badChannels {c : Byte} (h3 : c ≠ 3) (h4 : c ≠ 4) (w h : Word) (cs : Byte) (s : State) :
    decodeHeaderFields w h c cs s = .stop (raise .badChannels (latchHeader w h c cs s)) := by
  have hbad : goodChannels c = false := by rw [goodChannels, decide_eq_false h3, decide_eq_false h4, Bool.or_self]
  rw [decodeHeaderFields, latchHeader_channels, hbad]
  rfl

end Sys2Proof.Machine
end

section
/-! The header's magic and its channel count, settled. -/

namespace Sys2Proof.Machine

/-- Settles O26: what `fetchHeader` answers under each clause's condition, and the engine's turn raises that error;
a header that is fetched never ends with BAD_MAGIC. -/
theorem magicIsChecked : Obligations.MagicIsChecked := by
  intro s hp hs
  refine ⟨fun hf hb => ?differs, fun j h4 hj => ?magicFault, fun hf hb => ?equal,
    fun j h4 h14 hf hb hj => ?fieldFault⟩
  case differs => exact engineTurn_header_error hp hs (fetchHeader_badMagic hf hb)
  case magicFault => exact engineTurn_header_error hp hs (fetchHeader_magic_fails h4 hj)
  case equal =>
    rcases fetchHeader_of_magic hf hb with hbus | ⟨w, h, c, cs, hok⟩
    · rw [engineTurn_header_error hp hs hbus]
      exact next_raise_ne (by decide) _ _
    · rw [engineTurn_header hp hs, hok]
      exact exec_header_ne_badMagic hp w h c cs
  case fieldFault => exact engineTurn_header_error hp hs (fetchHeader_field_fails hf hb h4 h14 hj)

/-- Settles O25: the check stands after the latch, so the error is raised in the latched state. -/
theorem badChannelsAfterTheLatch : Obligations.BadChannelsAfterTheLatch := by
  intro w h c cs s hp h3 h4
  rw [exec_header_decoding hp, decodeHeaderFields_badChannels h3 h4]
  rfl

end Sys2Proof.Machine
end

section
/-! The pixel history cache: what HASH, LOOKUP and UPDATE give (41_pixel_history_cache.md R110 to R113). -/

namespace Sys2Proof.Machine

/-! ### HASH -/

/-- 64 divides 256, so the sum taken modulo 256 and the exact sum agree modulo 64 (R111). -/
theorem pixelHash_toNat (P : Pixel) :
    (pixelHash P).toNat = (3 * P.r.toNat + 5 * P.g.toNat + 7 * P.b.toNat + 11 * P.a.toNat) % 64 := by
  simp only [pixelHash, BitVec.extractLsb'_toNat, BitVec.toNat_add, BitVec.toNat_mul, BitVec.reduceToNat,
    Nat.shiftRight_zero]
  omega

/-- The slot depends on each channel modulo 64 only. -/
theorem pixelHash_eq_of_modEq {P Q : Pixel} (hr : P.r.toNat ≡ Q.r.toNat [MOD 64])
    (hg : P.g.toNat ≡ Q.g.toNat [MOD 64]) (hb : P.b.toNat ≡ Q.b.toNat [MOD 64])
    (ha : P.a.toNat ≡ Q.a.toNat [MOD 64]) : pixelHash P = pixelHash Q := by
  apply BitVec.eq_of_toNat_eq
  rw [pixelHash_toNat, pixelHash_toNat]
  exact (((hr.mul_left 3).add (hg.mul_left 5)).add (hb.mul_left 7)).add (ha.mul_left 11)

/-- A multiple of 64 added with wraparound keeps a channel modulo 64. -/
theorem channel_add_mul_64_modEq (x : Byte) (k : Nat) :
    (x + BitVec.ofNat 8 (64 * k)).toNat ≡ x.toNat [MOD 64] := by
  rw [Nat.ModEq, BitVec.toNat_add, BitVec.toNat_ofNat]
  omega

/-! ### LOOKUP after UPDATE -/

theorem lookup_update (t : Table) (P : Pixel) (k : BitVec 6) :
    lookup (update t P) k = if k = pixelHash P then P else lookup t k := by
  simp only [lookup, update, Vector.getElem_set, BitVec.toNat_inj, eq_comm]

@[simp] theorem lookup_update_self (t : Table) (P : Pixel) : lookup (update t P) (pixelHash P) = P := by
  rw [lookup_update, if_pos rfl]

/-- An UPDATE with the pixel its slot already holds changes nothing. -/
theorem update_eq_self {t : Table} {P : Pixel} (h : lookup t (pixelHash P) = P) : update t P = t := by
  calc update t P = t.set (pixelHash P).toNat (lookup t (pixelHash P)) (pixelHash P).isLt := by rw [h, update]
    _ = t := Vector.set_getElem_self _

end Sys2Proof.Machine
end

section
/-! The hash law and UPDATE, settled. -/

namespace Sys2Proof.Machine

/-- Settles O5: the exact sum modulo 64 fixes the slot, and a multiple of 64 in one channel keeps that sum modulo 64. -/
theorem hashIsWeightedSumModulo64 : Obligations.HashIsWeightedSumModulo64 := by
  refine ⟨pixelHash_toNat, fun P k => ⟨?red, ?green, ?blue, ?alpha⟩, by decide, by decide⟩
  case red => exact pixelHash_eq_of_modEq (channel_add_mul_64_modEq P.r k) rfl rfl rfl
  case green => exact pixelHash_eq_of_modEq rfl (channel_add_mul_64_modEq P.g k) rfl rfl
  case blue => exact pixelHash_eq_of_modEq rfl rfl (channel_add_mul_64_modEq P.b k) rfl
  case alpha => exact pixelHash_eq_of_modEq rfl rfl rfl (channel_add_mul_64_modEq P.a k)

/-- Settles O6: what LOOKUP reads after UPDATE, slot by slot; the pixel of the rule's example hashes to 9. -/
theorem updateWritesTheHashedSlot : Obligations.UpdateWritesTheHashedSlot := by
  refine ⟨lookup_update, fun _ _ => update_eq_self, fun t => ?_⟩
  have hslot : pixelHash ⟨74, 20, 30, 255⟩ = 9 := by decide
  rw [← hslot]
  exact lookup_update_self t _

end Sys2Proof.Machine
end

section
/-! A pixel equal to `prev`: counting it, and the RUN chunk of the 62nd (42_chunk_encoder.md R121 and R122). -/

namespace Sys2Proof.Machine

/-- A pixel equal to `prev` has been read and counted as the `run`-th of its run. -/
def afterRepeat (run : BitVec 6) (s : State) : State := { s with px := s.prev, i := s.i + 1, run := run }

/-- The repeat test comes before every other test of the step (R121). -/
theorem engineTurn_repeat {s : State} (hp : s.phase = .encoding) (hs : s.stage = .body) (hi : s.i < s.pixels)
    (hr : readPixel s = some s.prev) : engineTurn s = countRepeat (afterRepeat s.run s) := by
  rw [engineTurn_encoderStep hp hs hi, encoderStep_some hr, encodePixel]
  exact if_pos rfl

theorem countRepeat_below {s : State} (h : s.run.toNat < 61) :
    countRepeat s = .next { s with run := s.run + 1 } := by
  have hne : s.run + 1 ≠ 62 := by bv_omega
  rw [countRepeat, if_neg hne]

theorem countRepeat_at_cap {s : State} (hp : s.phase = .encoding) (h : s.run.toNat = 61) :
    countRepeat s = .next (emitRun 62 { s with run := 62 }).state := by
  have hcap : s.run + 1 = 62 := by bv_omega
  rw [countRepeat, if_pos hcap, hcap]
  exact exec_run_encoding hp

/-- The first byte to be emitted does not fit, or cannot be written. -/
theorem emitFailsAt_first {s : State} {len : Nat} {code : ErrCode} (hlen : 0 < len)
    (h : (code = .dstOverflow ∧ s.dstCap.toNat ≤ s.q) ∨
      (code = .busError ∧ s.q < s.dstCap.toNat ∧ portFault s.cfg .write (s.dstAddr.toNat + s.q) = true)) :
    emitFailsAt s len 0 code :=
  ⟨hlen, fun _ hk => absurd hk (Nat.not_lt_zero _), fun _ hk => absurd hk (Nat.not_lt_zero _), h⟩

/-- A RUN chunk whose byte cannot be written leaves the run pending. -/
theorem emitRun_fails {s : State} {code : ErrCode} (count : Nat) (h : emitFailsAt s 1 0 code) :
    emitRun count s = .stop (raise code s) := by
  rw [emitRun, emitList_fails (encodeBytes (.run count)) s 0 code h]
  rfl

/-- The 62nd repeat is counted, and its RUN chunk is due in the same turn. -/
theorem engineTurn_repeat_at_cap {s : State} (hp : s.phase = .encoding) (hs : s.stage = .body) (hi : s.i < s.pixels)
    (hr : readPixel s = some s.prev) (h : s.run.toNat = 61) :
    engineTurn s = .next (emitRun 62 (afterRepeat 62 s)).state :=
  (engineTurn_repeat hp hs hi hr).trans (countRepeat_at_cap (s := afterRepeat s.run s) hp h)

theorem engineTurn_repeat_at_cap_fails {s : State} {code : ErrCode} (hp : s.phase = .encoding) (hs : s.stage = .body)
    (hi : s.i < s.pixels) (hr : readPixel s = some s.prev) (h : s.run.toNat = 61) (hfail : emitFailsAt s 1 0 code) :
    engineTurn s = .next (raise code (afterRepeat 62 s)) := by
  rw [engineTurn_repeat_at_cap hp hs hi hr h, emitRun_fails (s := afterRepeat 62 s) 62 hfail, Flow.state_stop]

end Sys2Proof.Machine
end

section
/-! Repeated pixels, settled. -/

namespace Sys2Proof.Machine

/-- Settles O21: below 61 the turn only counts; at 61 it emits RUN 62, whose one byte is stored, does not fit, or
cannot be written. -/
theorem repeatedPixelsAreCounted : Obligations.RepeatedPixelsAreCounted := by
  intro s hp hs hi hr
  refine ⟨fun hrun => ?below, fun hrun hq hm hf => ?stored, fun hrun hq => ?overflow, fun hrun hq hf => ?fault⟩
  case below =>
    rw [engineTurn_repeat hp hs hi hr]
    exact countRepeat_below hrun
  case stored =>
    refine ⟨_, ?_, Memory.stored_writeList [0xFD] s.mem (s.dstAddr.toNat + s.q) hm⟩
    rw [engineTurn_repeat_at_cap hp hs hi hr hrun, emitRun_go 62 (afterRepeat 62 s) hq hf]
    rfl
  case overflow =>
    exact engineTurn_repeat_at_cap_fails hp hs hi hr hrun (emitFailsAt_first Nat.one_pos (.inl ⟨rfl, hq⟩))
  case fault =>
    exact engineTurn_repeat_at_cap_fails hp hs hi hr hrun (emitFailsAt_first Nat.one_pos (.inr ⟨rfl, hq, hf⟩))

end Sys2Proof.Machine
end

section
/-! The chunk at `p`: its truncation check and the engine's turn when it cannot be fetched
(43_chunk_decoder.md R150 and R151). -/

namespace Sys2Proof.Machine

/-- The truncation check stands between the first byte and the payload: the answer does not depend on the payload. -/
theorem fetchChunk_truncated {s : State} {b0 : Byte} (hb : memRead s (s.srcAddr.toNat + s.p) = some b0)
    (hlen : 1 < chunkLength b0) (hend : s.endOff < s.p + chunkLength b0) :
    fetchChunk s = .error .truncatedChunk := by
  rw [fetchChunk, hb]
  exact if_pos ⟨hlen, hend⟩

/-- What is fetched at `p` ends at or before `end`. -/
theorem fetchChunk_ok_le_endOff {s : State} {i : Instr} (hp : s.p < s.endOff) (h : fetchChunk s = .ok i) :
    s.p + (encodeBytes i).length ≤ s.endOff := by
  rcases fetchChunk_cases s hp with ⟨i', hok, -, -, hend, -, -⟩ | ⟨code, -, herr⟩
  · cases hok.symm.trans h
    exact hend
  · cases herr.symm.trans h

theorem engineTurn_chunk {s : State} (hp : s.phase = .decoding) (hs : s.stage = .body) (hlt : s.p < s.endOff) :
    engineTurn s = runFetched (fetchChunk s) s := by
  rw [engineTurn_decoding hp, decodeTransition, hs]
  simp only [fetchBody, if_pos hlt]

/-- A chunk that cannot be fetched changes nothing but what `raise` changes. -/
theorem engineTurn_chunk_error {s : State} {code : ErrCode} (hp : s.phase = .decoding) (hs : s.stage = .body)
    (hlt : s.p < s.endOff) (h : fetchChunk s = .error code) : engineTurn s = .next (raise code s) := by
  rw [engineTurn_chunk hp hs hlt, h, runFetched]

end Sys2Proof.Machine
end

section
/-! A chunk that reaches past `end` or cannot be read, settled. -/

namespace Sys2Proof.Machine

/-- Settles O30: what `fetchChunk` answers under each clause's condition, and the engine's turn raises that error in
the unchanged state. -/
theorem truncatedChunkRaised : Obligations.TruncatedChunkRaised := by
  refine ⟨fun s b0 hp hs hlt hb hlen hend => ?truncated, fun s i hlt hok => ?fetched,
    fun s hp hs hlt hf => ?firstFault, fun s b0 j hp hs hlt hb hend h1 hj hf => ?payloadFault⟩
  case truncated => exact engineTurn_chunk_error hp hs hlt (fetchChunk_truncated hb hlen hend)
  case fetched => exact fetchChunk_ok_le_endOff hlt hok
  case firstFault => exact engineTurn_chunk_error hp hs hlt (fetchChunk_first_fails hf)
  case payloadFault => exact engineTurn_chunk_error hp hs hlt (fetchChunk_payload_fails hb hend h1 hj hf)

end Sys2Proof.Machine
end

section
/-! `emit`, settled. -/

namespace Sys2Proof.Machine

/-- Settles O18: the room check stands before the write, the write before the advance of `q`, and the one byte written
is a list of one byte stored. -/
theorem emitChecksBeforeEachByte : Obligations.EmitChecksBeforeEachByte := by
  intro b s
  refine ⟨fun hfull => ?overflow, fun hroom hfail => ?fault, fun hroom hok hwf => ?stored⟩
  case overflow => exact emit_overflow b s hfull
  case fault => exact emit_fault b s hroom hfail
  case stored =>
    exact ⟨_, emit_go b s hroom hok, Memory.stored_writeList [b] s.mem (s.dstAddr.toNat + s.q) hwf⟩

end Sys2Proof.Machine
end

section
/-! Error entry as the host reads it in STATUS, the code a start check reports, and what it is for two address ranges
to share a byte (60_exceptions.md R204 and R209). -/

namespace Sys2Proof.Machine

/-! ### Fields of STATUS -/

theorem statusWord_extractLsb'_busy (s : State) : (statusWord s).extractLsb' 0 1 = BitVec.ofBool s.busy :=
  BitVec.extractLsb'_append_eq_right

theorem statusWord_extractLsb'_err (s : State) : (statusWord s).extractLsb' 2 1 = 1#1 ↔ s.err = true := by
  rw [← statusWord_getLsbD_err, BitVec.getLsbD_eq_extractLsb', beq_iff_eq]

/-- ERRCODE stands above BUSY, DONE, ERR, ALPHA3 and the four reserved bits 7:4. -/
theorem statusWord_extractLsb'_errcode (s : State) : (statusWord s).extractLsb' 8 4 = s.errcode.code := by
  rw [statusWord]
  iterate 5 rw [BitVec.extractLsb'_append_eq_of_le (by decide)]
  exact BitVec.extractLsb'_append_eq_right

/-- An error asserts the interrupt output when the interrupt is enabled. -/
theorem irq_raise (code : ErrCode) (s : State) : (raise code s).irq = s.ie := by
  rw [State.irq, raise_ie, raise_err, Bool.or_true, Bool.and_true]

/-! ### Ranges that share a byte -/

theorem inRange_eq_true_iff (lo len a : Nat) : inRange lo len a = true ↔ lo ≤ a ∧ a < lo + len := by
  simp [inRange]

/-- Two non-empty ranges share a byte when each starts before the other ends: the later start is such a byte. -/
theorem exists_inRange_both_iff {lo len lo' len' : Nat} (h : 0 < len) (h' : 0 < len') :
    (∃ a, inRange lo len a = true ∧ inRange lo' len' a = true) ↔ lo < lo' + len' ∧ lo' < lo + len := by
  simp only [inRange_eq_true_iff]
  constructor
  · rintro ⟨a, ⟨hlo, hhi⟩, hlo', hhi'⟩
    exact ⟨by omega, by omega⟩
  · rintro ⟨hlt, hlt'⟩
    exact ⟨max lo lo', ⟨le_max_left .., by omega⟩, le_max_right .., by omega⟩

theorem overlapFails_iff (s : State) :
    overlapFails s = true ↔
      0 < s.srcLen.toNat ∧ 0 < s.dstCap.toNat ∧
        s.srcAddr.toNat < s.dstAddr.toNat + s.dstCap.toNat ∧ s.dstAddr.toNat < s.srcAddr.toNat + s.srcLen.toNat := by
  simp only [overlapFails, Bool.and_eq_true, decide_eq_true_eq, and_assoc]

theorem overlapFails_iff_shared_byte (s : State) :
    overlapFails s = true ↔
      0 < s.srcLen.toNat ∧ 0 < s.dstCap.toNat ∧ ∃ a, s.inSrc a = true ∧ s.inDst a = true := by
  rw [overlapFails_iff]
  exact and_congr_right fun hsrc => and_congr_right fun hdst => (exists_inRange_both_iff hsrc hdst).symm

/-! ### The code the start checks report -/

/-- OVERLAP stands right after SIZE in the checks of ENCODE; no later check reports it. -/
theorem encodeCheck_eq_overlap_iff {s : State} (hsize : sizeFails s = false) :
    encodeCheck s = .overlap ↔ overlapFails s = true := by
  rw [encodeCheck, hsize]
  cases overlapFails s with
  | true => simp
  | false =>
    simp only [Bool.false_eq_true, if_false, iff_false]
    split
    · decide
    · split <;> decide

/-- OVERLAP stands right after SIZE in the checks of DECODE; no later check reports it. -/
theorem decodeCheck_eq_overlap_iff {s : State} (hsize : sizeFails s = false) :
    decodeCheck s = .overlap ↔ overlapFails s = true := by
  rw [decodeCheck, hsize]
  cases overlapFails s with
  | true => simp
  | false =>
    simp only [Bool.false_eq_true, if_false, iff_false]
    split <;> decide

/-- A turn that raises what a check answers, or goes on busy when it answers none, raises a code exactly when the
check answers that code. -/
theorem checked_turn_raises_iff {x : Host.Outcome State Fault Refusal} {check code : ErrCode} {s t : State}
    (hx : (check = .none ∧ x = .next t) ∨ (check ≠ .none ∧ x = .next (raise check s)))
    (ht : t.phase ≠ .idle) (hcode : code ≠ .none) : x = .next (raise code s) ↔ check = code := by
  rcases hx with ⟨rfl, rfl⟩ | ⟨-, rfl⟩
  · exact iff_of_false (fun e => ht (congrArg State.phase (Host.Outcome.next.inj e))) hcode.symm
  · exact ⟨fun e => congrArg State.errcode (Host.Outcome.next.inj e), fun e => by rw [e]⟩

theorem engineTurn_encode_start_raises_iff {s : State} {code : ErrCode} (hp : s.phase = .encoding)
    (hs : s.stage = .start) (hcode : code ≠ .none) :
    engineTurn s = .next (raise code s) ↔ encodeCheck s = code :=
  checked_turn_raises_iff (encodeStart_cases s hp hs) (by simp [hp]) hcode

theorem engineTurn_decode_start_raises_iff {s : State} {code : ErrCode} (hp : s.phase = .decoding)
    (hs : s.stage = .start) (hcode : code ≠ .none) :
    engineTurn s = .next (raise code s) ↔ decodeCheck s = code :=
  checked_turn_raises_iff (decodeStart_cases s hp hs) (by simp [hp]) hcode

end Sys2Proof.Machine
end

section
/-! OVERLAP, error entry and the idle engine, settled. -/

namespace Sys2Proof.Machine

/-- Settles O35: two non-empty ranges share a byte when each starts before the other ends, and both commands check
OVERLAP right after SIZE. -/
theorem overlapMeansASharedByte : Obligations.OverlapMeansASharedByte := by
  intro s
  refine ⟨overlapFails_iff_shared_byte s, overlapFails_iff s, fun hs hp hsize => ?reported⟩
  case reported =>
    rcases hp with henc | hdec
    · rw [engineTurn_encode_start_raises_iff henc hs (by decide), encodeCheck_eq_overlap_iff hsize]
    · rw [engineTurn_decode_start_raises_iff hdec hs (by decide), decodeCheck_eq_overlap_iff hsize]

/-- Settles O36: the record equation is `raise` itself, and the host reads its fields in STATUS and at `irq`. -/
theorem errorEntryChangesOnlyStatus : Obligations.ErrorEntryChangesOnlyStatus := by
  intro code s
  refine ⟨rfl, ?busy, ?err, ?errcode, irq_raise code s⟩
  case busy =>
    rw [statusWord_extractLsb'_busy, raise_busy]
    rfl
  case err => rw [statusWord_extractLsb'_err, raise_err]
  case errcode => rw [statusWord_extractLsb'_errcode, raise_errcode]

/-- Settles O50: an idle engine's turn leaves the state as it is, and with no turn scheduled a step is the engine's. -/
theorem idleEngineDoesNothing : Obligations.IdleEngineDoesNothing := by
  intro s hidle
  refine ⟨engineTurn_idle hidle, fun hnil => ?_⟩
  rw [step_of_schedule_nil hnil, engineTurn_idle hidle]

end Sys2Proof.Machine
end

section
/-! START while BUSY and right after reset, and when the interrupt output is up (70_reset_and_hazards.md R234 and
R240). -/

namespace Sys2Proof.Machine

/-! ### START -/

/-- A START while BUSY is no command: it is a write of IE. -/
theorem startOperation_of_busy {s : State} (h : s.busy = true) (m : Mode) (ie : Bool) :
    startOperation m ie s = { s with ie := ie } := if_pos h

theorem exec_encode_eq_startOperation (ie : Bool) (rsv : BitVec 29) (s : State) :
    exec (.encode ie rsv) s = .next (startOperation .encode ie s) := rfl

theorem exec_decode_eq_startOperation (ie : Bool) (rsv : BitVec 29) (s : State) :
    exec (.decode ie rsv) s = .next (startOperation .decode ie s) := rfl

/-- A CTRL value with START 0 is stored, whether the engine is busy or not. -/
theorem writeCtrl_of_start_clear {v : Word} (h : v.getLsbD 0 = false) (s : State) :
    writeCtrl v s = .next (storeCtrl v s) := by
  rw [writeCtrl_eq, h, if_neg Bool.false_ne_true]

/-- A CTRL value with START 1 starts the operation its MODE bit names. -/
theorem writeCtrl_of_start_set {v : Word} (h : v.getLsbD 0 = true) (s : State) :
    writeCtrl v s = .next (startOperation (if v.getLsbD 1 then .decode else .encode) (v.getLsbD 2) s) := by
  rw [writeCtrl_eq, h, if_pos rfl]

/-! ### The interrupt output -/

/-- Completion asserts the interrupt output when the interrupt is enabled. -/
theorem irq_complete (len : Nat) (s : State) : (complete len s).irq = s.ie := by
  rw [State.irq, complete_ie, complete_done, Bool.true_or, Bool.and_true]

/-- A write of CTRL leaves DONE and ERR, so the new IE alone decides on a pending interrupt. -/
theorem irq_storeCtrl (v : Word) (s : State) : (storeCtrl v s).irq = (v.getLsbD 2 && (s.done || s.err)) := rfl

/-! ### A scheduled host turn -/

/-- With a host turn at the head of the schedule, a step is that turn. -/
theorem step_of_schedule_host {s : State} {act : HostAction} {rest : List Turn}
    (h : s.schedule = .host act :: rest) : step s = hostTurn act { s with schedule := rest } := by
  rw [step, takeTurn, h]

/-! ### The start checks on cleared buffer registers -/

/-- Ranges that start at 0 and hold no byte end inside every address space. -/
theorem sizeFails_of_cleared {s : State} (hsrcAddr : s.srcAddr = 0) (hsrcLen : s.srcLen = 0)
    (hdstAddr : s.dstAddr = 0) (hdstCap : s.dstCap = 0) : sizeFails s = false := by
  simp [sizeFails, hsrcAddr, hsrcLen, hdstAddr, hdstCap]

/-- An empty source overlaps nothing. -/
theorem overlapFails_of_empty_source {s : State} (h : s.srcLen = 0) : overlapFails s = false := by
  simp [overlapFails, h]

/-- BAD_CHANNELS stands right after SIZE and OVERLAP in the checks of ENCODE. -/
theorem encodeCheck_eq_badChannels {s : State} (hsize : sizeFails s = false) (hoverlap : overlapFails s = false)
    (hchannels : goodChannels s.channels = false) : encodeCheck s = .badChannels := by
  rw [encodeCheck, hsize, hoverlap, hchannels]
  rfl

/-! ### ENCODE started right after reset -/

/-- The engine once a host has started ENCODE right after reset, with IE 0. -/
def encodeAfterReset (cfg : Config) (mem : Memory) : State :=
  startOperation .encode false (State.afterReset cfg mem)

/-- It is reached by the host's write of 1 to CTRL. -/
theorem step_start_afterReset (cfg : Config) (mem : Memory) :
    step { State.afterReset cfg mem with schedule := [.host (.writeReg 0 4 0x00000001)] } =
      .next (encodeAfterReset cfg mem) := by
  rw [step_of_schedule_host rfl, hostTurn_writeReg_ctrl, writeCtrl_of_start_set (by decide)]
  rfl

/-- The registers a start leaves are those of reset: all 0, CHANNELS among them. -/
theorem encodeCheck_encodeAfterReset (cfg : Config) (mem : Memory) :
    encodeCheck (encodeAfterReset cfg mem) = .badChannels :=
  encodeCheck_eq_badChannels (sizeFails_of_cleared rfl rfl rfl rfl) (overlapFails_of_empty_source rfl) rfl

theorem step_encodeAfterReset (cfg : Config) (mem : Memory) :
    step (encodeAfterReset cfg mem) = .next (raise .badChannels (encodeAfterReset cfg mem)) := by
  rw [step_of_schedule_nil rfl, engineTurn_encode_start_raises_iff rfl rfl (by decide), encodeCheck_encodeAfterReset]

end Sys2Proof.Machine
end

section
/-! START while BUSY and START right after reset, settled. -/

namespace Sys2Proof.Machine

/-- Settles O32: a busy START keeps all but IE; completion and error entry set a flag `irq` reads, and a write of IE
keeps the flags that are set. -/
theorem startWhileBusyOnlyStoresEnable : Obligations.StartWhileBusyOnlyStoresEnable := by
  refine ⟨fun ie rsv s hbusy => ⟨?encode, ?decode⟩,
    fun len code s hie => ⟨(irq_complete len s).trans hie, (irq_raise code s).trans hie⟩,
    fun s hidle hflag => ⟨storeCtrl 4 s, ?stored, ?irq, ?idle⟩⟩
  case encode => rw [exec_encode_eq_startOperation, startOperation_of_busy hbusy]
  case decode => rw [exec_decode_eq_startOperation, startOperation_of_busy hbusy]
  case stored => rw [hostTurn_writeReg_ctrl, writeCtrl_of_start_clear (by decide)]
  case irq =>
    rw [irq_storeCtrl, (Bool.or_eq_true _ _).mpr hflag]
    rfl
  case idle => rw [storeCtrl_phase, (busy_eq_false_iff s).1 hidle]

/-- Settles O40: the host's turn starts ENCODE, and the engine's turn after it raises BAD_CHANNELS from the start
checks, which read no memory. -/
theorem startAfterResetFailsOnChannels : Obligations.StartAfterResetFailsOnChannels := by
  intro cfg mem
  refine ⟨raise .badChannels (encodeAfterReset cfg mem), ?run, raise_err .., raise_errcode .., rfl, raise_outLen ..,
    rfl, raise_phase ..⟩
  case run =>
    rw [run_succ_of_step 1 (step_start_afterReset cfg mem), run_succ_of_step 0 (step_encodeAfterReset cfg mem),
      run_zero]

end Sys2Proof.Machine
end

section
/-! The codec both ways: what an encoding decodes to, and what bits that decode are the encoding of
(30_encoding.md sections 2, 3, 5 and 9; 10_state.md R31). -/

namespace Sys2Proof

/-! ### Encoded, then decoded -/

theorem encode_of_isChunk {i : Instr} (hc : i.isChunk = true) : encode i = .chunk (encodeBytes i) := by
  cases i <;> first | rfl | cases hc

/-- The fields of a well-formed chunk's bytes are its operands, and the tests of the dispatch before its own fail. -/
theorem decodeChunk_encodeBytes {i : Instr} (hc : i.isChunk = true) (hw : wellFormed i = true) :
    decodeChunk (encodeBytes i) = .ok (i, []) := by
  cases i with
  | rgba r g b a => rfl
  | rgb r g b => rfl
  | run count =>
    simp only [wellFormed, Bool.and_eq_true, decide_eq_true_eq] at hw
    obtain ⟨hff, hfe, htag, hcount⟩ := run_byte_fields count hw.1 hw.2
    simp only [encodeBytes, decodeChunk]
    rw [if_neg hff, if_neg hfe, if_pos htag, hcount]
  | luma dg drg dbg =>
    simp only [wellFormed, Bool.and_eq_true] at hw
    obtain ⟨⟨hdg, hdrg⟩, hdbg⟩ := hw
    obtain ⟨hff, hfe, htag, hg⟩ := luma_byte0_fields dg hdg
    obtain ⟨hr, hb⟩ := luma_byte1_fields drg dbg hdrg hdbg
    simp only [encodeBytes, decodeChunk]
    rw [if_neg hff, if_neg hfe, if_neg (by omega), if_pos htag, hg, hr, hb]
  | diff dr dg db =>
    simp only [wellFormed, Bool.and_eq_true] at hw
    obtain ⟨⟨hdr, hdg⟩, hdb⟩ := hw
    obtain ⟨hff, hfe, htag, hr, hg, hb⟩ := diff_byte_fields dr dg db hdr hdg hdb
    simp only [encodeBytes, decodeChunk]
    rw [if_neg hff, if_neg hfe, if_neg (by omega), if_neg (by omega), if_pos htag, hr, hg, hb]
  | index slot =>
    obtain ⟨hff, hfe, htag, hslot⟩ := index_byte_fields slot
    simp only [encodeBytes, decodeChunk]
    rw [if_neg hff, if_neg hfe, if_neg (by omega), if_neg (by omega), if_neg (by omega), hslot]
  | header | endMarker | encode | decode => cases hc

theorem decodeCtrl_ctrlValue (mode ie : Bool) (rsv : BitVec 29) :
    decodeCtrl (ctrlValue true mode ie rsv) = .ok (if mode then .decode ie rsv else .encode ie rsv) := by
  obtain ⟨hstart, hmode, hie, hrsv⟩ := ctrlValue_fields true mode ie rsv
  rw [decodeCtrl, hstart, hmode, hie, hrsv, if_pos rfl]
  cases mode <;> rfl

/-! ### Decoded, then encoded -/

/-- A chunk with no byte after it is its bytes. -/
theorem decode_chunk_ok {bs : List Byte} {i : Instr} (h : decode (.chunk bs) = .ok i) :
    decodeChunk bs = .ok (i, []) := by
  simp only [decode] at h
  split at h
  · rename_i hd
    cases h
    exact hd
  · cases h
  · cases h

theorem decodeHeader_ok {bs : List Byte} {i : Instr} (h : decodeHeader bs = .ok i) :
    ∃ w ht c cs, i = .header w ht c cs ∧ bs = encodeBytes (.header w ht c cs) := by
  have hd := h
  rw [decodeHeader] at h
  split at h
  · cases h
  split at h
  · cases h
  split at h
  · rename_i hshort hlong hmagic
    have hbs : magic ++ bs.drop 4 = bs := by rw [← hmagic, List.take_append_drop]
    obtain ⟨w, ht, c, cs, hok, henc⟩ := decodeHeader_magic (bs.drop 4) (by rw [List.length_drop]; omega)
    rw [hbs] at hok henc
    cases hok.symm.trans hd
    exact ⟨w, ht, c, cs, rfl, henc⟩
  · cases h

theorem decodeMarker_ok {bs : List Byte} {i : Instr} (h : decodeMarker bs = .ok i) :
    i = .endMarker ∧ bs = endMarkerBytes := by
  rw [decodeMarker] at h
  split at h
  · cases h
  split at h
  · cases h
  split at h
  · rename_i hbs
    cases h
    exact ⟨rfl, hbs⟩
  · cases h

/-- START is read from bit 0, MODE from bit 1, and IE and the reserved bits are operands: no bit is dropped. -/
theorem decodeCtrl_ok {v : Word} {i : Instr} (h : decodeCtrl v = .ok i) :
    ∃ ie rsv, (i = .encode ie rsv ∧ v = ctrlValue true false ie rsv) ∨
      (i = .decode ie rsv ∧ v = ctrlValue true true ie rsv) := by
  have hback := ctrlValue_back v
  rw [decodeCtrl] at h
  refine ⟨v.getLsbD 2, v.extractLsb' 3 29, ?_⟩
  cases hstart : v.getLsbD 0
  · simp only [hstart, Bool.false_eq_true, if_false] at h
    cases h
  · cases hmode : v.getLsbD 1 <;> rw [hstart, hmode] at hback
    · simp only [hstart, hmode, if_true, Bool.false_eq_true, if_false] at h
      cases h
      exact .inl ⟨rfl, hback.symm⟩
    · simp only [hstart, hmode, if_true] at h
      cases h
      exact .inr ⟨rfl, hback.symm⟩

end Sys2Proof
end

section
/-! The round trips and the words of the spec, settled. -/

namespace Sys2Proof

/-- Settles O1: a chunk's fields are its operands, and so are the header's and the commands'. -/
theorem decodeEncodeRoundTrip : Obligations.DecodeEncodeRoundTrip := by
  intro i hw
  cases hc : i.isChunk with
  | true => rw [encode_of_isChunk hc, decode, decodeChunk_encodeBytes hc hw]
  | false =>
    cases i with
    | header w h c cs => exact decodeHeader_encodeBytes w h c cs
    | endMarker => rfl
    | encode ie rsv => exact decodeCtrl_ctrlValue false ie rsv
    | decode ie rsv => exact decodeCtrl_ctrlValue true ie rsv
    | rgba | rgb | run | luma | diff | index => cases hc

/-- Settles O2: place by place, the decoder reads every bit into an operand. -/
theorem encodeDecodeRoundTrip : Obligations.EncodeDecodeRoundTrip := by
  intro c i h
  cases c with
  | chunk bs =>
    obtain ⟨hc, hw, hbs, -⟩ := decodeChunk_ok (decode_chunk_ok h)
    rw [List.append_nil] at hbs
    exact ⟨hw, by rw [encode_of_isChunk hc, hbs]⟩
  | header bs =>
    obtain ⟨w, ht, c, cs, rfl, rfl⟩ := decodeHeader_ok h
    exact ⟨rfl, rfl⟩
  | marker bs =>
    obtain ⟨rfl, rfl⟩ := decodeMarker_ok h
    exact ⟨rfl, rfl⟩
  | ctrl v =>
    obtain ⟨ie, rsv, ⟨rfl, rfl⟩ | ⟨rfl, rfl⟩⟩ := decodeCtrl_ok h
    · exact ⟨rfl, rfl⟩
    · exact ⟨rfl, rfl⟩

/-- Settles O4: the words are closed terms, so the decoder is run on each. -/
theorem specWordsDecode : Obligations.SpecWordsDecode := by
  unfold Obligations.SpecWordsDecode
  decide

end Sys2Proof
end

section
/-! What a step can do, said once: whose turn it is, what a host turn changes, and the fields an engine turn can move. -/

namespace Sys2Proof.Machine

open Sys2Proof

/-! ### A step -/

theorem step_of_engineMoves {s : State} (h : engineMoves s) : step s = engineTurn s.taken := by
  cases hsched : s.schedule with
  | nil =>
    have htaken : s.taken = s := by rw [State.taken, hsched, List.tail_nil, ← hsched]
    rw [step_of_schedule_nil hsched, htaken]
  | cons turn rest =>
    cases turn with
    | engine => simp only [step, takeTurn, hsched, State.taken, List.tail_cons]
    | host act => simp [engineMoves, hsched] at h

theorem step_of_hostMoves {s : State} {act : HostAction} (h : s.schedule.head? = some (.host act)) :
    step s = hostTurn act s.taken := by
  obtain ⟨rest, hsched⟩ : ∃ rest, s.schedule = .host act :: rest := List.head?_eq_some_iff.1 h
  rw [step_of_schedule_host hsched, State.taken, hsched, List.tail_cons]

/-- A step is a turn of the engine or of the host, with the turn taken off the schedule. -/
theorem step_cases {s t : State} (h : step s = .next t) :
    engineTurn s.taken = .next t ∨ ∃ act, hostTurn act s.taken = .next t := by
  by_cases he : engineMoves s
  · exact .inl (by rw [← step_of_engineMoves he, h])
  · cases hsched : s.schedule with
    | nil => exact absurd (.inl (by rw [hsched]; rfl)) he
    | cons turn rest =>
      cases turn with
      | engine => exact absurd (.inr (by rw [hsched]; rfl)) he
      | host act => exact .inr ⟨act, by rw [← step_of_hostMoves (by rw [hsched]; rfl), h]⟩

/-! ### The host's turns -/

theorem startOperation_of_idle {s : State} (h : s.busy = false) (m : Mode) (ie : Bool) :
    startOperation m ie s =
      freshOperation m { s with
        ie := ie, mode := m, done := false, err := false, alpha3 := false, errcode := .none, outLen := 0
        phase := m.phase, stage := .start } :=
  if_neg (by rw [h]; exact Bool.false_ne_true)

/-- A register write stores CTRL, clears flags, sets a configuration register of an idle engine, or does nothing. -/
theorem writeReg_cases (r : Reg) (v : Word) (s : State) :
    writeReg r v s = storeCtrl v s ∨ writeReg r v s = clearStatus v s ∨
      (s.busy = false ∧ writeReg r v s = writeConfig r v s) ∨ writeReg r v s = s := by
  cases r with
  | ctrl => exact .inl rfl
  | status => exact .inr (.inl rfl)
  | outLenLo | outLenHi | reserved => exact .inr (.inr (.inr rfl))
  | width | height | format | srcAddrLo | srcAddrHi | srcLenLo | srcLenHi | dstAddrLo | dstAddrHi | dstCapLo
  | dstCapHi =>
    cases hb : s.busy with
    | false => exact .inr (.inr (.inl ⟨rfl, if_neg (by rw [hb]; exact Bool.false_ne_true)⟩))
    | true => exact .inr (.inr (.inr (if_pos hb)))

/-- An address register as a write of the configuration leaves it: as before, or cut to `ADDR_W` bits. -/
def KeptOrImplemented (c : Config) (x y : Long) : Prop := y = x ∨ ∃ z, y = implemented c z

/-- A write of the configuration moves the configuration registers alone. -/
theorem writeConfig_frame (r : Reg) (v : Word) (s : State) :
    ∃ w h c cs sa sl da dc,
      writeConfig r v s =
        { s with
          width := w, height := h, channels := c, colorspace := cs, srcAddr := sa, srcLen := sl, dstAddr := da
          dstCap := dc } ∧
      KeptOrImplemented s.cfg s.srcAddr sa ∧ KeptOrImplemented s.cfg s.dstAddr da := by
  cases r with
  | srcAddrLo | srcAddrHi => exact ⟨_, _, _, _, _, _, _, _, rfl, .inr ⟨_, rfl⟩, .inl rfl⟩
  | dstAddrLo | dstAddrHi => exact ⟨_, _, _, _, _, _, _, _, rfl, .inl rfl, .inr ⟨_, rfl⟩⟩
  | ctrl | status | width | height | format | srcLenLo | srcLenHi | dstCapLo | dstCapHi | outLenLo | outLenHi
  | reserved => exact ⟨_, _, _, _, _, _, _, _, rfl, .inl rfl, .inl rfl⟩

/-- What a host turn that goes on leaves. -/
inductive HostEffect (s : State) : State → Prop where
  | read (v : Word) : HostEffect s { s with hostData := v }
  | nothing : HostEffect s s
  | ctrl (v : Word) : HostEffect s (storeCtrl v s)
  | status (v : Word) : HostEffect s (clearStatus v s)
  | config (r : Reg) (v : Word) (hidle : s.busy = false) : HostEffect s (writeConfig r v s)
  | startBusy (ie : Bool) (hbusy : s.busy = true) : HostEffect s { s with ie := ie }
  | start (m : Mode) (ie : Bool) (hidle : s.busy = false) :
    HostEffect s (freshOperation m { s with
      ie := ie, mode := m, done := false, err := false, alpha3 := false, errcode := .none, outLen := 0
      phase := m.phase, stage := .start })
  | store (a : Nat) (v : Byte) (ha : a < 2 ^ s.cfg.addrW) : HostEffect s { s with mem := s.mem.write a v }
  | reset : HostEffect s (hardReset s)

theorem hostTurn_effect {act : HostAction} {s t : State} (h : hostTurn act s = .next t) : HostEffect s t := by
  rcases hostTurn_cases h with ⟨v, rfl⟩ | ⟨r, v, rfl⟩ | ⟨m, ie, rfl⟩ | ⟨a, v, -, ha, -, rfl⟩ | ⟨-, rfl⟩
  · exact .read v
  · rcases writeReg_cases r v s with he | he | ⟨hidle, he⟩ | he <;> rw [he]
    · exact .ctrl v
    · exact .status v
    · exact .config r v hidle
    · exact .nothing
  · cases hb : s.busy with
    | true => rw [startOperation_of_busy hb]; exact .startBusy ie hb
    | false => rw [startOperation_of_idle hb]; exact .start m ie hb
  · exact .store a v ha
  · exact .reset

/-! ### The engine's turns: what they keep of an operation begun -/

/-- What the operation so far keeps and its continuation keeps, the whole keeps. -/
theorem Flow.andThen_keeps {K : State → Prop} {x : Flow} {f : State → Flow} (hx : K x.state)
    (hf : ∀ u, K u → K (f u).state) : K (x.andThen f).state := by
  cases x with
  | go u => exact hf u hx
  | stop u => exact hx

/-- What STATUS, OUT_LEN and the phase are made of agrees. -/
def SameStatus (s t : State) : Prop :=
  t.phase = s.phase ∧ t.done = s.done ∧ t.err = s.err ∧ t.errcode = s.errcode ∧ t.outLen = s.outLen

theorem sameStatus_refl (s : State) : SameStatus s s := ⟨rfl, rfl, rfl, rfl, rfl⟩

/-- How a turn of the engine leaves STATUS: as it was, or after `raise`, or after completion. -/
inductive StatusEffect (s : State) : State → Prop where
  | same {u : State} (hu : SameStatus s u) : StatusEffect s u
  | raised (code : ErrCode) {u : State} (hcode : code ≠ .none) (hu : SameStatus s u) : StatusEffect s (raise code u)
  | completed (len : Nat) {u : State} (hu : SameStatus s u) : StatusEffect s (complete len u)

theorem engineTurn_status {s t : State} (hb : s.busy = true) (h : engineTurn s = .next t) : StatusEffect s t := by
  have same : SameStatus s s := sameStatus_refl s
  cases hp : s.phase with
  | idle => simp [State.busy, hp] at hb
  | encoding =>
    cases hs : s.stage with
    | start =>
      rcases encodeStart_cases s hp hs with ⟨_, he⟩ | ⟨hc, he⟩ <;> cases he.symm.trans h
      · exact .same same
      · exact .raised _ hc same
    | header =>
      obtain ⟨_, he, ⟨bs, _, code, hc, rfl⟩ | ⟨_, rfl⟩⟩ := encodeHeader_cases s hp hs <;> cases he.symm.trans h
      · exact .raised code hc same
      · exact .same same
    | body =>
      by_cases hi : s.i < s.pixels
      · obtain ⟨_, he, ⟨P, i, run, bs, _, code, hc, rfl⟩ | ⟨P, _, ⟨_, _, rfl⟩ | ⟨_, _, _, rfl⟩ | ⟨_, _, rfl⟩⟩⟩ :=
          encoderStep_cases s hp hs hi <;> cases he.symm.trans h
        · exact .raised code hc same
        · exact .same same
        · exact .same same
        · exact .same same
      · obtain ⟨_, he, ⟨run, bs, _, code, hc, rfl⟩ | ⟨_, rfl⟩⟩ := finishEncode_cases s hp hs (Nat.not_lt.1 hi) <;>
          cases he.symm.trans h
        · exact .raised code hc same
        · exact .completed _ same
  | decoding =>
    cases hs : s.stage with
    | start =>
      rcases decodeStart_cases s hp hs with ⟨_, he⟩ | ⟨hc, he⟩ <;> cases he.symm.trans h
      · exact .same same
      · exact .raised _ hc same
    | header =>
      obtain ⟨_, he, ⟨code, hc, rfl⟩ | ⟨w, ht, c, cs, ⟨code, hc, rfl⟩ | ⟨_, _, rfl⟩⟩⟩ := decodeHeader_cases s hp hs <;>
        cases he.symm.trans h
      · exact .raised code hc same
      · exact .raised code hc same
      · exact .same same
    | body =>
      by_cases hlt : s.p < s.endOff
      · obtain ⟨_, he, P, p, n, a, m, tb, ⟨code, hc, rfl⟩ | ⟨_, rfl⟩⟩ := decodeChunk_shape s hp hs hlt <;>
          cases he.symm.trans h
        · exact .raised code hc same
        · exact .same same
      · rcases decodeEnd_cases s hp hs (Nat.not_lt.1 hlt) with ⟨_, he⟩ | ⟨code, hc, he⟩ <;> cases he.symm.trans h
        · exact .completed _ same
        · exact .raised code hc same

end Sys2Proof.Machine
end

section
/-! Memory through a turn: every byte the engine stores is at an address the port has (10_state.md R42). -/

namespace Sys2Proof.Machine

open Sys2Proof

theorem lt_of_portFault_eq_false {c : Config} {k : Access} {a : Nat} (h : portFault c k a = false) :
    a < 2 ^ c.addrW := by
  simp only [portFault, Bool.or_eq_false_iff, decide_eq_false_iff_not] at h
  omega

theorem memoryInv_write {s : State} (h : MemoryInv s) {a : Nat} (ha : a < 2 ^ s.cfg.addrW) (v : Byte) :
    MemoryInv { s with mem := s.mem.write a v } := by
  obtain ⟨hwf, hbelow⟩ := h
  exact ⟨Memory.wf_write a v hwf, Memory.write_below v hbelow ha⟩

theorem memoryInv_memWrite {s : State} (h : MemoryInv s) (a : Nat) (v : Byte) : MemoryInv (memWrite a v s).state := by
  cases hf : portFault s.cfg .write a with
  | true => rw [memWrite_stop a v s hf]; exact h
  | false => rw [memWrite_go a v s hf]; exact memoryInv_write h (lt_of_portFault_eq_false hf) v

theorem memoryInv_memWriteList (bs : List Byte) {s : State} (h : MemoryInv s) (a : Nat) :
    MemoryInv (memWriteList a bs s).state := by
  induction bs generalizing s a with
  | nil => exact h
  | cons b bs ih => exact Flow.andThen_keeps (memoryInv_memWrite h a b) fun u hu => ih hu (a + 1)

theorem memoryInv_emit {s : State} (h : MemoryInv s) (b : Byte) : MemoryInv (emit b s).state := by
  unfold emit
  split
  · exact h
  · exact Flow.andThen_keeps (memoryInv_memWrite h _ b) fun u hu => hu

theorem memoryInv_emitList (bs : List Byte) {s : State} (h : MemoryInv s) : MemoryInv (emitList bs s).state := by
  induction bs generalizing s with
  | nil => exact h
  | cons b bs ih => exact Flow.andThen_keeps (memoryInv_emit h b) fun u hu => ih hu

theorem memoryInv_writePixel (P : Pixel) {s : State} (h : MemoryInv s) : MemoryInv (writePixel P s).state :=
  Flow.andThen_keeps (memoryInv_memWriteList _ h _) fun _ hu => hu

theorem memoryInv_writePixels (P : Pixel) (k : Nat) {s : State} (h : MemoryInv s) :
    MemoryInv (writePixels P k s).state := by
  induction k generalizing s with
  | zero => exact h
  | succ k ih => exact Flow.andThen_keeps (memoryInv_writePixel P h) fun u hu => ih hu

theorem memoryInv_noteAlpha {s : State} (h : MemoryInv s) : MemoryInv (noteAlpha s) := by
  rw [noteAlpha_eq]
  exact h

theorem memoryInv_decodePixel (len : Nat) (P : Pixel) {s : State} (h : MemoryInv s) :
    MemoryInv (decodePixel len P s).state := by
  unfold decodePixel commonTail
  split
  · exact h
  · exact Flow.andThen_keeps (memoryInv_writePixel _ (memoryInv_noteAlpha h)) fun u hu => hu

theorem memoryInv_decodeRun (count : Nat) {s : State} (h : MemoryInv s) : MemoryInv (decodeRun count s).state := by
  unfold decodeRun
  split
  · exact h
  · exact Flow.andThen_keeps (memoryInv_writePixels _ count h) fun u hu => hu

theorem memoryInv_decodeHeaderFields (w ht : Word) (c cs : Byte) {s : State} (h : MemoryInv s) :
    MemoryInv (decodeHeaderFields w ht c cs s).state := by
  rcases decodeHeaderFields_cases w ht c cs s with ⟨-, he⟩ | ⟨-, -, he⟩ | ⟨-, -, he⟩ <;> rw [he] <;> exact h

theorem memoryInv_emitThen (bs : List Byte) {s : State} (h : MemoryInv s) {f : State → Flow}
    (hf : ∀ u, MemoryInv u → MemoryInv (f u).state) : MemoryInv ((emitList bs s).andThen f).state :=
  Flow.andThen_keeps (memoryInv_emitList bs h) hf

theorem memoryInv_flushRun {s : State} (h : MemoryInv s) : MemoryInv (flushRun s).state := by
  unfold flushRun
  split
  · exact h
  · exact memoryInv_emitThen _ h fun u hu => hu

theorem memoryInv_byPhase {enc dec : State → Flow} {s t : State} (ht : byPhase enc dec s = .next t)
    (h : MemoryInv s) (henc : MemoryInv (enc s).state) (hdec : MemoryInv (dec s).state) : MemoryInv t := by
  unfold byPhase at ht
  split at ht <;> cases ht
  · exact h
  · exact henc
  · exact hdec

/-- Every instruction keeps memory canonical and inside the address space. -/
theorem memoryInv_exec {i : Instr} {s t : State} (h : MemoryInv s) (ht : exec i s = .next t) : MemoryInv t := by
  cases i with
  | rgba | rgb | luma | diff | index =>
    exact memoryInv_byPhase ht h (memoryInv_emitThen _ h fun u hu => hu) (memoryInv_decodePixel _ _ h)
  | run count =>
    exact memoryInv_byPhase ht h (memoryInv_emitThen _ h fun u hu => hu) (memoryInv_decodeRun count h)
  | header w ht' c cs =>
    exact memoryInv_byPhase ht h (memoryInv_emitThen _ h fun u hu => hu) (memoryInv_decodeHeaderFields w ht' c cs h)
  | endMarker => exact memoryInv_byPhase ht h (memoryInv_emitThen _ h fun u hu => hu) h
  | encode ie rsv | decode ie rsv =>
    cases ht
    unfold startOperation
    split <;> exact h

theorem memoryInv_countRepeat {s t : State} (h : MemoryInv s) (ht : countRepeat s = .next t) : MemoryInv t := by
  unfold countRepeat at ht
  split at ht
  · exact memoryInv_exec (s := { s with run := s.run + 1 }) h ht
  · cases ht
    exact h

theorem memoryInv_encoderStep {s t : State} (h : MemoryInv s) (ht : encoderStep s = .next t) : MemoryInv t := by
  cases hr : readPixel s with
  | none =>
    cases (encoderStep_none hr).symm.trans ht
    exact h
  | some P =>
    rw [encoderStep_some hr, encodePixel] at ht
    have hread : MemoryInv { s with px := P, i := s.i + 1 } := h
    have hflush := memoryInv_flushRun hread
    split at ht
    · exact memoryInv_countRepeat hread ht
    · split at ht <;> rename_i u hu <;> rw [hu] at hflush
      · cases ht
        exact hflush
      · exact memoryInv_exec hflush ht

theorem memoryInv_finishEncode {s t : State} (h : MemoryInv s) (ht : finishEncode s = .next t) : MemoryInv t := by
  have hflush := memoryInv_flushRun h
  unfold finishEncode at ht
  split at ht <;> rename_i u hu <;> rw [hu] at hflush
  · cases ht
    exact hflush
  · exact memoryInv_exec hflush ht

theorem memoryInv_runFetched {f : Except ErrCode Instr} {s t : State} (h : MemoryInv s)
    (ht : runFetched f s = .next t) : MemoryInv t := by
  cases f with
  | ok i => exact memoryInv_exec h ht
  | error code =>
    cases ht
    exact h

theorem memoryInv_engineTurn {s t : State} (h : MemoryInv s) (ht : engineTurn s = .next t) : MemoryInv t := by
  cases hp : s.phase with
  | idle =>
    cases (engineTurn_idle hp).symm.trans ht
    exact h
  | encoding =>
    cases hs : s.stage with
    | start => rcases encodeStart_cases s hp hs with ⟨_, he⟩ | ⟨_, he⟩ <;> cases he.symm.trans ht <;> exact h
    | header =>
      rw [engineTurn_encoding hp, encodeTransition, hs] at ht
      exact memoryInv_exec h ht
    | body =>
      by_cases hi : s.i < s.pixels
      · exact memoryInv_encoderStep h (by rw [← engineTurn_encoderStep hp hs hi, ht])
      · exact memoryInv_finishEncode h (by rw [← engineTurn_finishEncode hp hs (Nat.not_lt.1 hi), ht])
  | decoding =>
    cases hs : s.stage with
    | start => rcases decodeStart_cases s hp hs with ⟨_, he⟩ | ⟨_, he⟩ <;> cases he.symm.trans ht <;> exact h
    | header | body =>
      rw [engineTurn_decoding hp, decodeTransition, hs] at ht
      exact memoryInv_runFetched h ht

theorem memoryInv_hardReset {s : State} (h : MemoryInv s) : MemoryInv (hardReset s) := by
  obtain ⟨hwf, hbelow⟩ := h
  unfold hardReset
  split
  · exact ⟨wf_scramble s _ _ hwf, scramble_below s _ _ hbelow⟩
  · exact ⟨hwf, hbelow⟩

theorem memoryInv_hostTurn {act : HostAction} {s t : State} (h : MemoryInv s) (ht : hostTurn act s = .next t) :
    MemoryInv t := by
  cases hostTurn_effect ht with
  | read | nothing | ctrl | status | startBusy => exact h
  | config r v =>
    obtain ⟨w, ht, c, cs, sa, sl, da, dc, he, -, -⟩ := writeConfig_frame r v s
    rw [he]
    exact h
  | start m ie => cases m <;> exact h
  | store a v ha => exact memoryInv_write h ha v
  | reset => exact memoryInv_hardReset h

end Sys2Proof.Machine
end

section
/-! The history table through a turn (41_pixel_history_cache.md R113 and R116). -/

namespace Sys2Proof.Machine

open Sys2Proof

theorem slotInv_of_fresh {t : State} (h : t.table = Vector.replicate 64 zeroPixel) : SlotInv t := by
  intro k
  left
  rw [h, lookup, Vector.getElem_replicate]

theorem slotInv_of_update {s t : State} (hs : SlotInv s) {P : Pixel} (h : t.table = update s.table P) : SlotInv t := by
  intro k
  rw [h, lookup_update]
  split
  · rename_i hk
    exact .inr hk.symm
  · exact hs k

/-- How a turn of the engine leaves the table. -/
inductive TableEffect (s t : State) : Prop where
  | same (h : t.table = s.table)
  | fresh (h : t.table = Vector.replicate 64 zeroPixel)
  | updated (P : Pixel) (h : t.table = update s.table P)

theorem writePixels_table (P : Pixel) (k : Nat) (s : State) : (writePixels P k s).state.table = s.table := by
  obtain ⟨m, n, he | he⟩ := writePixels_shape P k s <;> rw [he] <;> rfl

theorem decodeRun_table (count : Nat) (s : State) : (decodeRun count s).state.table = s.table := by
  unfold decodeRun
  split
  · rfl
  · exact Flow.andThen_keeps (K := fun u => u.table = s.table) (writePixels_table _ _ s) fun u hu => hu

theorem decodePixel_table (len : Nat) (P : Pixel) (s : State) : TableEffect s (decodePixel len P s).state := by
  rcases decodePixel_cases len P s with ⟨-, he⟩ | ⟨-, -, he⟩ | ⟨-, j, -, -, he⟩ <;> rw [he]
  · exact .same rfl
  · exact .updated P rfl
  · exact .same rfl

theorem engineTurn_table {s t : State} (h : engineTurn s = .next t) : TableEffect s t := by
  cases hp : s.phase with
  | idle =>
    cases (engineTurn_idle hp).symm.trans h
    exact .same rfl
  | encoding =>
    cases hs : s.stage with
    | start =>
      rcases encodeStart_cases s hp hs with ⟨_, he⟩ | ⟨_, he⟩ <;> cases he.symm.trans h
      · exact .fresh rfl
      · exact .same rfl
    | header =>
      obtain ⟨_, he, ⟨bs, _, code, _, rfl⟩ | ⟨_, rfl⟩⟩ := encodeHeader_cases s hp hs <;> cases he.symm.trans h <;>
        exact .same rfl
    | body =>
      by_cases hi : s.i < s.pixels
      · obtain ⟨_, he, ⟨P, i, run, bs, _, code, _, rfl⟩ | ⟨P, _, ⟨_, _, rfl⟩ | ⟨_, _, _, rfl⟩ | ⟨_, _, rfl⟩⟩⟩ :=
          encoderStep_cases s hp hs hi <;> cases he.symm.trans h
        · exact .same rfl
        · exact .same rfl
        · exact .same rfl
        · exact .updated P rfl
      · obtain ⟨_, he, ⟨run, bs, _, code, _, rfl⟩ | ⟨_, rfl⟩⟩ := finishEncode_cases s hp hs (Nat.not_lt.1 hi) <;>
          cases he.symm.trans h <;> exact .same rfl
  | decoding =>
    cases hs : s.stage with
    | start =>
      rcases decodeStart_cases s hp hs with ⟨_, he⟩ | ⟨_, he⟩ <;> cases he.symm.trans h <;> exact .same rfl
    | header =>
      obtain ⟨_, he, ⟨code, _, rfl⟩ | ⟨w, ht, c, cs, ⟨code, _, rfl⟩ | ⟨_, _, rfl⟩⟩⟩ := decodeHeader_cases s hp hs <;>
        cases he.symm.trans h
      · exact .same rfl
      · exact .same rfl
      · exact .fresh rfl
    | body =>
      by_cases hlt : s.p < s.endOff
      · rw [engineTurn_chunk hp hs hlt] at h
        rcases fetchChunk_cases s hlt with ⟨i, hi, hc, -⟩ | ⟨code, -, hf⟩
        · rw [hi, runFetched] at h
          rcases isChunk_cases hc with hpc | ⟨count, rfl⟩
          · cases (exec_pixelChunk_decoding hpc hp).symm.trans h
            exact decodePixel_table _ _ s
          · cases (exec_run_decoding hp).symm.trans h
            exact .same (decodeRun_table count s)
        · rw [hf, runFetched] at h
          cases h
          exact .same rfl
      · rcases decodeEnd_cases s hp hs (Nat.not_lt.1 hlt) with ⟨_, he⟩ | ⟨code, _, he⟩ <;> cases he.symm.trans h <;>
          exact .same rfl

theorem slotInv_engineTurn {s t : State} (h : SlotInv s) (ht : engineTurn s = .next t) : SlotInv t := by
  cases engineTurn_table ht with
  | same he => intro k; rw [he]; exact h k
  | fresh he => exact slotInv_of_fresh he
  | updated P he => exact slotInv_of_update h he

theorem hardReset_table (s : State) : (hardReset s).table = Vector.replicate 64 zeroPixel := by
  unfold hardReset
  split <;> rfl

theorem slotInv_hostTurn {act : HostAction} {s t : State} (h : SlotInv s) (ht : hostTurn act s = .next t) :
    SlotInv t := by
  cases hostTurn_effect ht with
  | read | nothing | ctrl | status | startBusy | store => exact h
  | config r v =>
    obtain ⟨w, ht, c, cs, sa, sl, da, dc, he, -, -⟩ := writeConfig_frame r v s
    rw [he]
    exact h
  | start m ie => cases m <;> exact slotInv_of_fresh rfl
  | reset => exact slotInv_of_fresh (hardReset_table s)

end Sys2Proof.Machine
end

section
/-! STATUS, OUT_LEN and the address registers through a turn (10_state.md R35 and R37, 60_exceptions.md R203). -/

namespace Sys2Proof.Machine

open Sys2Proof

theorem addressInv_engineTurn {s t : State} (h : AddressInv s) (ht : engineTurn s = .next t) : AddressInv t := by
  obtain ⟨hcfg, -, -, hsrc, -, hdst, -⟩ := engineTurn_frame ht
  rw [AddressInv, hcfg, hsrc, hdst]
  exact h

theorem toNat_lt_of_keptOrImplemented {c : Config} {x y : Long} (h : KeptOrImplemented c x y)
    (hx : x.toNat < 2 ^ c.addrW) : y.toNat < 2 ^ c.addrW := by
  rcases h with rfl | ⟨z, rfl⟩
  · exact hx
  · exact implemented_lt c z

theorem addressInv_hostTurn {act : HostAction} {s t : State} (h : AddressInv s) (ht : hostTurn act s = .next t) :
    AddressInv t := by
  cases hostTurn_effect ht with
  | read | nothing | ctrl | status | startBusy | store => exact h
  | config r v =>
    obtain ⟨hsrc, hdst⟩ := h
    obtain ⟨w, ht, c, cs, sa, sl, da, dc, he, hsa, hda⟩ := writeConfig_frame r v s
    rw [he]
    exact ⟨toNat_lt_of_keptOrImplemented hsa hsrc, toNat_lt_of_keptOrImplemented hda hdst⟩
  | start m ie => cases m <;> exact h
  | reset =>
    unfold hardReset
    split <;> exact ⟨Nat.two_pow_pos _, Nat.two_pow_pos _⟩

/-- `raise` enters with DONE clear, because it enters from BUSY. -/
theorem statusInv_engineTurn {s t : State} (h : StatusInv s) (ht : engineTurn s = .next t) : StatusInv t := by
  cases hb : s.busy with
  | false =>
    cases (engineTurn_idle ((busy_eq_false_iff s).1 hb)).symm.trans ht
    exact h
  | true =>
    obtain ⟨hdone, herr, hcode, hlen⟩ := h.1 hb
    cases engineTurn_status hb ht with
    | same hu =>
      obtain ⟨-, hudone, huerr, hucode, hulen⟩ := hu
      refine ⟨fun _ => ⟨hudone.trans hdone, huerr.trans herr, hucode.trans hcode, hulen.trans hlen⟩,
        fun he => ?_, fun _ => hucode.trans hcode⟩
      rw [huerr, herr] at he
      cases he
    | raised code hne hu =>
      obtain ⟨-, hudone, -⟩ := hu
      refine ⟨fun he => ?_, fun _ => ⟨hudone.trans hdone, hne, rfl⟩, fun he => ?_⟩
      · rw [raise_busy] at he
        cases he
      · rw [raise_done, hudone, hdone] at he
        cases he
    | completed len hu =>
      obtain ⟨-, -, huerr, hucode, -⟩ := hu
      refine ⟨fun he => ?_, fun he => ?_, fun _ => hucode.trans hcode⟩
      · rw [complete_busy] at he
        cases he
      · rw [complete_err, huerr, herr] at he
        cases he

/-- With the flags, ERRCODE and OUT_LEN clear everything STATUS may say holds. -/
theorem statusInv_of_clear {t : State} (hdone : t.done = false) (herr : t.err = false) (hcode : t.errcode = .none)
    (hlen : t.outLen = 0) : StatusInv t :=
  ⟨fun _ => ⟨hdone, herr, hcode, hlen⟩, fun he => absurd (herr.symm.trans he) Bool.false_ne_true, fun _ => hcode⟩

/-- Clearing flags contradicts nothing STATUS says. -/
theorem statusInv_clearStatus {s : State} (h : StatusInv s) (v : Word) : StatusInv (clearStatus v s) := by
  obtain ⟨hbusy, herr, hdone⟩ := h
  refine ⟨fun hb => ?_, fun he => ?_, fun hd => ?_⟩
  · obtain ⟨hd, he, hcode, hlen⟩ := hbusy hb
    exact ⟨by rw [clearStatus_done, hd, Bool.false_and], by rw [clearStatus_err, he, Bool.false_and], hcode, hlen⟩
  · rw [clearStatus_err, Bool.and_eq_true] at he
    obtain ⟨hd, hcode, hlen⟩ := herr he.1
    exact ⟨by rw [clearStatus_done, hd, Bool.false_and], hcode, hlen⟩
  · rw [clearStatus_done, Bool.and_eq_true] at hd
    exact hdone hd.1

theorem statusInv_hostTurn {act : HostAction} {s t : State} (h : StatusInv s) (ht : hostTurn act s = .next t) :
    StatusInv t := by
  cases hostTurn_effect ht with
  | read | nothing | ctrl | startBusy | store => exact h
  | status v => exact statusInv_clearStatus h v
  | config r v =>
    obtain ⟨w, ht, c, cs, sa, sl, da, dc, he, -, -⟩ := writeConfig_frame r v s
    rw [he]
    exact h
  | start m ie => cases m <;> exact statusInv_of_clear rfl rfl rfl rfl
  | reset =>
    unfold hardReset
    split <;> exact statusInv_of_clear rfl rfl rfl rfl

end Sys2Proof.Machine
end

section
/-! The registers of an operation through a turn (10_state.md R24 and R25, 42_chunk_encoder.md R133). -/

namespace Sys2Proof.Machine

open Sys2Proof

theorem operationInv_of_idle {s : State} (h : s.phase = .idle) : OperationInv s :=
  ⟨fun hp => absurd (h.symm.trans hp) (by decide), fun hp => absurd (h.symm.trans hp) (by decide)⟩

theorem encodeCheck_eq_none {s : State} (h : encodeCheck s = .none) :
    BuffersInv s ∧ goodChannels s.channels = true ∧ s.srcLen.toNat = s.pixels * s.chans := by
  unfold encodeCheck at h
  split at h
  · cases h
  split at h
  · cases h
  split at h
  · cases h
  split at h
  · cases h
  rename_i hsize hoverlap hgood hlen
  exact ⟨⟨by simpa using hsize, by simpa using hoverlap⟩, by simpa using hgood, by simpa using hlen⟩

theorem decodeCheck_eq_none {s : State} (h : decodeCheck s = .none) : BuffersInv s ∧ 22 ≤ s.srcLen.toNat := by
  unfold decodeCheck at h
  split at h
  · cases h
  split at h
  · cases h
  split at h
  · cases h
  rename_i hsize hoverlap hlen
  exact ⟨⟨by simpa using hsize, by simpa using hoverlap⟩, by omega⟩

/-- A pixel of three channels is read with alpha 255 (R120). -/
theorem readPixel_alpha {s : State} {P : Pixel} (h : readPixel s = some P) (hc : s.channels = 3) : P.a = 255 := by
  have hne : s.channels ≠ 4 := by rw [hc]; decide
  rw [readPixel, readPixelAt, if_neg hne] at h
  split at h <;> cases h
  rfl

/-- An ENCODE in its operation, in its later stages. -/
theorem operationInv_of_encoding {s : State} (hp : s.phase = .encoding) (hmode : s.mode = .encode)
    (hbuf : BuffersInv s) (hgood : goodChannels s.channels = true) (hlen : s.srcLen.toNat = s.pixels * s.chans)
    (hrun : s.run.toNat ≤ 61) (hi : s.i ≤ s.pixels) (hq : s.q ≤ s.dstCap.toNat)
    (halpha : s.channels = 3 → s.prev.a = 255) : OperationInv s :=
  ⟨fun _ => ⟨hmode, fun _ => ⟨hbuf, hgood, hlen, hrun, hi, hq, halpha⟩⟩,
    fun hd => absurd (hp.symm.trans hd) (by decide)⟩

theorem operationInv_encode_turn {s t : State} (hp : s.phase = .encoding) (h : OperationInv s)
    (ht : engineTurn s = .next t) : OperationInv t := by
  obtain ⟨hmode, hlate⟩ := h.1 hp
  cases hs : s.stage with
  | start =>
    rcases encodeStart_cases s hp hs with ⟨hcheck, he⟩ | ⟨_, he⟩ <;> cases he.symm.trans ht
    · obtain ⟨hbuf, hgood, hlen⟩ := encodeCheck_eq_none hcheck
      exact operationInv_of_encoding hp hmode hbuf hgood hlen (by simp) (Nat.zero_le _) (Nat.zero_le _) fun _ => rfl
    · exact operationInv_of_idle rfl
  | header =>
    obtain ⟨hbuf, hgood, hlen, hrun, hi, hq, halpha⟩ := hlate (by rw [hs]; decide)
    obtain ⟨_, he, ⟨bs, _, code, _, rfl⟩ | ⟨hq', rfl⟩⟩ := encodeHeader_cases s hp hs <;> cases he.symm.trans ht
    · exact operationInv_of_idle rfl
    · exact operationInv_of_encoding hp hmode hbuf hgood hlen hrun hi (by rwa [max_eq_right hq] at hq') halpha
  | body =>
    obtain ⟨hbuf, hgood, hlen, hrun, hi, hq, halpha⟩ := hlate (by rw [hs]; decide)
    by_cases hlt : s.i < s.pixels
    · obtain ⟨_, he, ⟨P, i, run, bs, _, code, _, rfl⟩ |
        ⟨P, hr, ⟨_, hcap, rfl⟩ | ⟨_, _, hq', rfl⟩ | ⟨_, hq', rfl⟩⟩⟩ := encoderStep_cases s hp hs hlt <;>
        cases he.symm.trans ht
      · exact operationInv_of_idle rfl
      · have hrun' : (s.run + 1).toNat ≤ 61 := by bv_omega
        exact operationInv_of_encoding hp hmode hbuf hgood hlen hrun' hlt hq halpha
      · exact operationInv_of_encoding hp hmode hbuf hgood hlen (by simp) hlt hq' halpha
      · have halpha' : s.channels = 3 → P.a = 255 := readPixel_alpha hr
        exact operationInv_of_encoding hp hmode hbuf hgood hlen (by simp) hlt (by rwa [max_eq_right hq] at hq') halpha'
    · obtain ⟨_, he, ⟨run, bs, _, code, _, rfl⟩ | ⟨_, rfl⟩⟩ := finishEncode_cases s hp hs (Nat.not_lt.1 hlt) <;>
        cases he.symm.trans ht <;> exact operationInv_of_idle rfl

/-- A DECODE in its chunk loop. -/
theorem operationInv_of_chunkLoop {s : State} (hp : s.phase = .decoding) (hmode : s.mode = .decode)
    (hbuf : BuffersInv s) (hlen : 22 ≤ s.srcLen.toNat) (hgood : goodChannels s.channels = true)
    (hcap : s.pixels * s.chans ≤ s.dstCap.toNat) (hend : s.endOff = s.srcLen.toNat - 8) (hp14 : 14 ≤ s.p)
    (hpend : s.p ≤ s.endOff) (hn : s.n ≤ s.pixels) : OperationInv s :=
  ⟨fun he => absurd (hp.symm.trans he) (by decide),
    fun _ => ⟨hmode, fun _ => ⟨hbuf, hlen⟩, fun _ => ⟨hgood, hcap, hend, hp14, hpend, hn⟩⟩⟩

theorem operationInv_decode_turn {s t : State} (hp : s.phase = .decoding) (h : OperationInv s)
    (ht : engineTurn s = .next t) : OperationInv t := by
  obtain ⟨hmode, hlate, hloop⟩ := h.2 hp
  cases hs : s.stage with
  | start =>
    rcases decodeStart_cases s hp hs with ⟨hcheck, he⟩ | ⟨_, he⟩ <;> cases he.symm.trans ht
    · exact ⟨fun hd => absurd (hp.symm.trans hd) (by decide),
        fun _ => ⟨hmode, fun _ => decodeCheck_eq_none hcheck, fun hb => by cases hb⟩⟩
    · exact operationInv_of_idle rfl
  | header =>
    obtain ⟨hbuf, hlen⟩ := hlate (by rw [hs]; decide)
    obtain ⟨_, he, ⟨code, _, rfl⟩ | ⟨w, ht', c, cs, ⟨code, _, rfl⟩ | ⟨hgood, hcap, rfl⟩⟩⟩ := decodeHeader_cases s hp hs <;>
      cases he.symm.trans ht
    · exact operationInv_of_idle rfl
    · exact operationInv_of_idle rfl
    · exact operationInv_of_chunkLoop hp hmode hbuf hlen hgood hcap rfl (Nat.le_refl 14)
        (show 14 ≤ s.srcLen.toNat - 8 by omega) (Nat.zero_le _)
  | body =>
    obtain ⟨hbuf, hlen⟩ := hlate (by rw [hs]; decide)
    obtain ⟨hgood, hcap, hend, hp14, hpend, hn⟩ := hloop hs
    by_cases hlt : s.p < s.endOff
    · obtain ⟨_, he, ⟨P, p, n, a, bs, _, code, _, rfl⟩ | ⟨i, _, hp', hn', rfl⟩ | ⟨count, _, _, hn', rfl⟩⟩ :=
        decodeChunk_cases s hp hs hlt hgood <;> cases he.symm.trans ht
      · exact operationInv_of_idle rfl
      · exact operationInv_of_chunkLoop hp hmode hbuf hlen hgood hcap hend (Nat.le_add_right_of_le hp14) hp' hn'
      · exact operationInv_of_chunkLoop hp hmode hbuf hlen hgood hcap hend (Nat.le_add_right_of_le hp14) hlt hn'
    · rcases decodeEnd_cases s hp hs (Nat.not_lt.1 hlt) with ⟨_, he⟩ | ⟨code, _, he⟩ <;> cases he.symm.trans ht <;>
        exact operationInv_of_idle rfl

theorem operationInv_engineTurn {s t : State} (h : OperationInv s) (ht : engineTurn s = .next t) :
    OperationInv t := by
  cases hp : s.phase with
  | idle =>
    cases (engineTurn_idle hp).symm.trans ht
    exact h
  | encoding => exact operationInv_encode_turn hp h ht
  | decoding => exact operationInv_decode_turn hp h ht

/-- MODE is locked while an operation runs. -/
theorem operationInv_storeCtrl {s : State} (h : OperationInv s) (v : Word) : OperationInv (storeCtrl v s) := by
  cases hb : s.busy with
  | false => exact operationInv_of_idle ((busy_eq_false_iff s).1 hb)
  | true =>
    have he : storeCtrl v s = { s with ie := v.getLsbD 2 } := by rw [storeCtrl, hb, if_pos rfl]
    rw [he]
    exact h

theorem operationInv_start (m : Mode) {s : State} (hp : s.phase = m.phase) (hm : s.mode = m) (hs : s.stage = .start) :
    OperationInv s := by
  cases m with
  | encode =>
    exact ⟨fun _ => ⟨hm, fun hne => absurd hs hne⟩, fun hd => absurd (hp.symm.trans hd) (by decide)⟩
  | decode =>
    exact ⟨fun he => absurd (hp.symm.trans he) (by decide),
      fun _ => ⟨hm, fun hne => absurd hs hne, fun hb => absurd (hs.symm.trans hb) (by decide)⟩⟩

theorem operationInv_hostTurn {act : HostAction} {s t : State} (h : OperationInv s) (ht : hostTurn act s = .next t) :
    OperationInv t := by
  cases hostTurn_effect ht with
  | read | nothing | status | startBusy | store => exact h
  | ctrl v => exact operationInv_storeCtrl h v
  | config r v hidle =>
    obtain ⟨w, ht, c, cs, sa, sl, da, dc, he, -, -⟩ := writeConfig_frame r v s
    rw [he]
    exact operationInv_of_idle ((busy_eq_false_iff s).1 hidle)
  | start m ie => cases m <;> exact operationInv_start _ rfl rfl rfl
  | reset =>
    obtain ⟨hidle, -⟩ := hardReset_phase s
    exact operationInv_of_idle hidle

end Sys2Proof.Machine
end

section
/-! The invariants, settled. -/

namespace Sys2Proof.Machine

open Sys2Proof

/-- Settles O41: the engine stores only where the port has an address, the host only below `2^ADDR_W`, and a reset only
at scrambled addresses. -/
theorem memoryInvariantKept : Obligations.MemoryInvariantKept := by
  intro s t h ht
  rcases step_cases ht with ht | ⟨act, ht⟩
  · exact memoryInv_engineTurn (s := s.taken) h ht
  · exact memoryInv_hostTurn (s := s.taken) h ht

/-- Settles O42: a turn keeps the table, makes it fresh, or makes one UPDATE. -/
theorem slotInvariantKept : Obligations.SlotInvariantKept := by
  intro s t h ht
  rcases step_cases ht with ht | ⟨act, ht⟩
  · exact slotInv_engineTurn (s := s.taken) h ht
  · exact slotInv_hostTurn (s := s.taken) h ht

/-- Settles O43: errors and completion are entered from BUSY, where STATUS is clear, and address writes are cut to
`ADDR_W` bits. -/
theorem statusAndAddressInvariantKept : Obligations.StatusAndAddressInvariantKept := by
  intro s t ha hs ht
  rcases step_cases ht with ht | ⟨act, ht⟩
  · exact ⟨addressInv_engineTurn (s := s.taken) ha ht, statusInv_engineTurn (s := s.taken) hs ht⟩
  · exact ⟨addressInv_hostTurn (s := s.taken) ha ht, statusInv_hostTurn (s := s.taken) hs ht⟩

/-- Settles O44: transition by transition for the engine, and the host moves nothing the invariant reads while BUSY. -/
theorem operationInvariantKept : Obligations.OperationInvariantKept := by
  intro s t h ht
  rcases step_cases ht with ht | ⟨act, ht⟩
  · exact operationInv_engineTurn (s := s.taken) h ht
  · exact operationInv_hostTurn (s := s.taken) h ht

end Sys2Proof.Machine
end

section
/-! The classifier's choice, told by the deltas, and the wrapped relative deltas (42_chunk_encoder.md R124 to R132). -/

namespace Sys2Proof.Machine

open Sys2Proof

theorem within_iff (lo hi d : Int) : within lo hi d = true ↔ lo ≤ d ∧ d ≤ hi := by simp [within]

/-- The three deltas fit a DIFF chunk (R126). -/
def SmallDeltas (d : Deltas) : Prop := (-2 ≤ d.dr ∧ d.dr ≤ 1) ∧ (-2 ≤ d.dg ∧ d.dg ≤ 1) ∧ (-2 ≤ d.db ∧ d.db ≤ 1)

/-- The green delta and the two relative deltas fit a LUMA chunk (R127). -/
def NearDeltas (d : Deltas) : Prop :=
  (-32 ≤ d.dg ∧ d.dg ≤ 31) ∧ (-8 ≤ d.drg ∧ d.drg ≤ 7) ∧ (-8 ≤ d.dbg ∧ d.dbg ≤ 7)

theorem alphaSame_iff (px prev : Pixel) : (deltas px prev).alphaSame = true ↔ px.a = prev.a := by
  simp only [deltas, decide_eq_true_eq, sub_eq_zero]

/-- The chunk the classifier gives a pixel, with the tests that led to it. -/
inductive Classified (px prev t : Pixel) : Instr → Prop where
  | index (hit : t = px) : Classified px prev t (.index (pixelHash px))
  | diff (miss : t ≠ px) (same : px.a = prev.a) (small : SmallDeltas (deltas px prev)) :
    Classified px prev t (.diff (deltas px prev).dr (deltas px prev).dg (deltas px prev).db)
  | luma (miss : t ≠ px) (same : px.a = prev.a) (large : ¬ SmallDeltas (deltas px prev))
    (near : NearDeltas (deltas px prev)) :
    Classified px prev t (.luma (deltas px prev).dg (deltas px prev).drg (deltas px prev).dbg)
  | rgb (miss : t ≠ px) (same : px.a = prev.a) (large : ¬ SmallDeltas (deltas px prev))
    (far : ¬ NearDeltas (deltas px prev)) : Classified px prev t (.rgb px.r px.g px.b)
  | rgba (miss : t ≠ px) (differs : px.a ≠ prev.a) : Classified px prev t (.rgba px.r px.g px.b px.a)

theorem classify_classified (px prev t : Pixel) : Classified px prev t (classify px prev t) := by
  simp only [classify, Bool.and_eq_true, within_iff, alphaSame_iff, and_assoc]
  split
  · rename_i hit
    exact .index hit
  split
  · rename_i miss h
    obtain ⟨same, hr, hr', hg, hg', hb⟩ := h
    exact .diff miss same ⟨⟨hr, hr'⟩, ⟨hg, hg'⟩, hb⟩
  split
  · rename_i miss hlarge h
    obtain ⟨same, hg, hg', hr, hr', hb⟩ := h
    exact .luma miss same (fun ⟨⟨hr, hr'⟩, ⟨hg, hg'⟩, hb⟩ => hlarge ⟨same, hr, hr', hg, hg', hb⟩)
      ⟨⟨hg, hg'⟩, ⟨hr, hr'⟩, hb⟩
  split
  · rename_i miss hlarge hfar same
    exact .rgb miss same (fun ⟨⟨hr, hr'⟩, ⟨hg, hg'⟩, hb⟩ => hlarge ⟨same, hr, hr', hg, hg', hb⟩)
      (fun ⟨⟨hg, hg'⟩, ⟨hr, hr'⟩, hb⟩ => hfar ⟨same, hg, hg', hr, hr', hb⟩)
  · rename_i miss _ _ differs
    exact .rgba miss differs

/-- The tests put the operands in the ranges of their fields. -/
theorem wellFormed_of_classified {px prev t : Pixel} {i : Instr} (h : Classified px prev t i) :
    wellFormed i = true := by
  cases h with
  | index | rgb | rgba => rfl
  | diff _ _ small =>
    obtain ⟨hr, hg, hb⟩ := small
    simp only [wellFormed, Bool.and_eq_true, within_iff]
    exact ⟨⟨hr, hg⟩, hb⟩
  | luma _ _ _ near =>
    obtain ⟨hg, hr, hb⟩ := near
    simp only [wellFormed, Bool.and_eq_true, within_iff]
    exact ⟨⟨hg, hr⟩, hb⟩

/-- Subtracting a delta of at most 32 wraps only far outside [-8, 7] (R125). -/
theorem within_wrapped_sub_iff {x y : Byte} (hlo : -32 ≤ y.toInt) (hhi : y.toInt ≤ 31) :
    within (-8) 7 (x - y).toInt = within (-8) 7 (x.toInt - y.toInt) := by
  have hxlo := x.le_two_mul_toInt
  have hxhi := x.two_mul_toInt_lt
  rw [Bool.eq_iff_iff, within_iff, within_iff, BitVec.toInt_sub, Int.bmod]
  omega

/-! ### The decoder undoes the choice -/

theorem addDelta_delta (x y : Byte) : addDelta y (delta x y) = x := by
  rw [addDelta, delta, BitVec.ofInt_toInt, add_sub_cancel]

/-- The relative delta and the green delta, added, give the channel's own delta back, whatever wrapped (R159). -/
theorem addDelta_relative (x y g : Byte) : addDelta y (delta (x - y) g + g.toInt) = x := by
  rw [addDelta, BitVec.ofInt_add, delta, BitVec.ofInt_toInt, BitVec.ofInt_toInt, sub_add_cancel, add_sub_cancel]

/-- A decoder with the encoder's `prev` and table reads the encoder's pixel from the chunk chosen. -/
theorem chunkPixel_classify (px : Pixel) (s : State) :
    chunkPixel (classify px s.prev (lookup s.table (pixelHash px))) s = px := by
  have h := classify_classified px s.prev (lookup s.table (pixelHash px))
  generalize classify px s.prev (lookup s.table (pixelHash px)) = i at h ⊢
  cases h with
  | index hit => exact hit
  | diff _ same =>
    simp only [chunkPixel, diffPixel, deltas, addDelta_delta, ← same]
  | luma _ same =>
    have hg : delta px.g s.prev.g = (px.g - s.prev.g).toInt := rfl
    simp only [chunkPixel, lumaPixel, deltas, addDelta_delta, ← same]
    rw [hg, addDelta_relative, addDelta_relative]
  | rgb _ same => simp only [chunkPixel, ← same]
  | rgba => rfl

end Sys2Proof.Machine
end

section
/-! The chunks of the decoder: the whole next state, or the state at the error (43_chunk_decoder.md). -/

namespace Sys2Proof.Machine

open Sys2Proof

/-! ### Done -/

theorem exec_pixelChunk_decoded {i : Instr} {s : State} (hi : i.isPixelChunk = true) (hp : s.phase = .decoding)
    (hn : s.n + 1 ≤ s.pixels)
    (hf : noFault s .write (s.dstAddr.toNat + s.n * s.chans) (pixelBytes s.channels (chunkPixel i s)).length) :
    exec i s = .next (afterChunk (encodeBytes i).length (chunkPixel i s) s) := by
  rw [exec_pixelChunk_decoding hi hp, decodePixel_go _ _ s hn hf, Flow.state_go]

/-- The 8-bit addition of a delta is the exact sum modulo 256 (R159). -/
theorem addDelta_eq_ofInt (c : Byte) (d : Int) : addDelta c d = BitVec.ofInt 8 (c.toNat + d) := by
  rw [addDelta, BitVec.ofInt_add, BitVec.ofInt_natCast, BitVec.ofNat_toNat, BitVec.setWidth_eq]

theorem lumaPixel_eq_exact_sums (prev : Pixel) (dg drg dbg : Int) :
    lumaPixel prev dg drg dbg =
      ⟨BitVec.ofInt 8 (prev.r.toNat + drg + dg), BitVec.ofInt 8 (prev.g.toNat + dg),
        BitVec.ofInt 8 (prev.b.toNat + dbg + dg), prev.a⟩ := by
  simp only [lumaPixel, addDelta_eq_ofInt, Int.add_assoc]

theorem diffPixel_eq_exact_sums (prev : Pixel) (dr dg db : Int) :
    diffPixel prev dr dg db =
      ⟨BitVec.ofInt 8 (prev.r.toNat + dr), BitVec.ofInt 8 (prev.g.toNat + dg), BitVec.ofInt 8 (prev.b.toNat + db),
        prev.a⟩ := by
  simp only [diffPixel, addDelta_eq_ofInt]

/-! ### A byte that cannot be written -/

/-- The first write that fails is where the writes stop. -/
theorem memWriteList_fails {bs : List Byte} {a j : Nat} {s : State} (hj : j < bs.length) (hf : noFault s .write a j)
    (hfail : portFault s.cfg .write (a + j) = true) :
    memWriteList a bs s = .stop (raise .busError { s with mem := s.mem.writeList a (bs.take j) }) := by
  rcases memWriteList_cases bs a s with ⟨hall, -⟩ | ⟨j', hj', hf', hfail', he⟩
  · exact absurd ((hall j hj).symm.trans hfail) Bool.false_ne_true
  · obtain rfl : j = j' := by
      rcases Nat.lt_trichotomy j j' with hlt | heq | hgt
      · exact absurd ((hf' j hlt).symm.trans hfail) Bool.false_ne_true
      · exact heq
      · exact absurd ((hf j' hgt).symm.trans hfail') Bool.false_ne_true
    exact he

theorem writePixel_fails {P : Pixel} {s : State} {j : Nat} (hj : j < (pixelBytes s.channels P).length)
    (hf : noFault s .write (s.dstAddr.toNat + s.n * s.chans) j)
    (hfail : portFault s.cfg .write (s.dstAddr.toNat + s.n * s.chans + j) = true) :
    writePixel P s = .stop (raise .busError { s with
      mem := s.mem.writeList (s.dstAddr.toNat + s.n * s.chans) ((pixelBytes s.channels P).take j) }) := by
  rw [writePixel, memWriteList_fails hj hf hfail, Flow.andThen_stop]

/-- The alpha is noted before the pixel is written, UPDATE comes after it. -/
theorem decodePixel_fails {len : Nat} {P : Pixel} {s : State} {j : Nat} (hn : s.n + 1 ≤ s.pixels)
    (hj : j < (pixelBytes s.channels P).length) (hf : noFault s .write (s.dstAddr.toNat + s.n * s.chans) j)
    (hfail : portFault s.cfg .write (s.dstAddr.toNat + s.n * s.chans + j) = true) :
    decodePixel len P s = .stop (raise .busError { s with
      prev := P, p := s.p + len
      alpha3 := s.alpha3 || (decide (s.channels = 3) && decide (P.a ≠ 255))
      mem := s.mem.writeList (s.dstAddr.toNat + s.n * s.chans) ((pixelBytes s.channels P).take j) }) := by
  have hroom : ¬ State.pixels { s with prev := P, p := s.p + len } < s.n + 1 := Nat.not_lt.2 hn
  have hwrite := writePixel_fails (P := P)
    (s := { s with
      prev := P, p := s.p + len
      alpha3 := s.alpha3 || (decide (s.channels = 3) && decide (P.a ≠ 255)) }) hj hf hfail
  simp only [decodePixel, commonTail, if_neg hroom, noteAlpha_eq]
  rw [hwrite]
  rfl

/-- Of `k` equal pixels the whole ones before the failing byte are counted in `n`. -/
theorem writePixels_fails {P : Pixel} {k : Nat} {s : State} {j : Nat} (hc : goodChannels s.channels = true)
    (hj : j < k * s.chans) (hf : noFault s .write (s.dstAddr.toNat + s.n * s.chans) j)
    (hfail : portFault s.cfg .write (s.dstAddr.toNat + s.n * s.chans + j) = true) :
    writePixels P k s = .stop (raise .busError { s with
      mem := s.mem.writeList (s.dstAddr.toNat + s.n * s.chans) ((pixelRun s.channels P k).take j)
      n := s.n + j / s.chans }) := by
  induction k generalizing s j with
  | zero => simp at hj
  | succ k ih =>
    have hl : (pixelBytes s.channels P).length = s.chans := pixelBytes_length P hc
    rw [Nat.add_one_mul] at hj
    by_cases hfirst : j < s.chans
    · rw [writePixels, writePixel_fails (by rw [hl]; exact hfirst) hf hfail, Flow.andThen_stop, pixelRun,
        List.take_append_of_le_length (by omega), Nat.div_eq_of_lt hfirst, Nat.add_zero]
    · have hpos : 0 < s.chans := by
        rcases Nat.eq_zero_or_pos s.chans with h0 | h0
        · rw [h0, Nat.mul_zero] at hj
          omega
        · exact h0
      obtain ⟨hfpx, hfrest⟩ := noFault_split (l := s.chans) (l' := j - s.chans)
        (by rwa [Nat.add_sub_cancel' (Nat.not_lt.1 hfirst)])
      have hnext : writePixels P k (afterPixel P s) = _ :=
        ih (s := afterPixel P s) (j := j - s.chans) hc (by show _ < k * s.chans; omega)
          (by rw [afterPixel_base]; exact hfrest)
          (by
            rw [afterPixel_base, Nat.add_assoc (s.dstAddr.toNat + s.n * s.chans),
              Nat.add_sub_cancel' (Nat.not_lt.1 hfirst)]
            exact hfail)
      rw [writePixels, writePixel_go P s (by rw [hl]; exact hfpx), Flow.andThen_go]
      refine hnext.trans ?_
      have hdiv : j / s.chans = (j - s.chans) / s.chans + 1 := Nat.div_eq_sub_div hpos (Nat.not_lt.1 hfirst)
      have hn : s.n + 1 + (j - s.chans) / s.chans = s.n + j / s.chans := by rw [hdiv]; omega
      rw [afterPixel_base, pixelRun, List.take_append, hl,
        List.take_of_length_le (l := pixelBytes s.channels P) (by omega), Memory.writeList_append, hl, ← hn]
      rfl

theorem decodeRun_fails {count : Nat} {s : State} {j : Nat} (hc : goodChannels s.channels = true)
    (hn : s.n + count ≤ s.pixels) (hj : j < count * s.chans)
    (hf : noFault s .write (s.dstAddr.toNat + s.n * s.chans) j)
    (hfail : portFault s.cfg .write (s.dstAddr.toNat + s.n * s.chans + j) = true) :
    decodeRun count s = .stop (raise .busError { s with
      mem := s.mem.writeList (s.dstAddr.toNat + s.n * s.chans) ((pixelRun s.channels s.prev count).take j)
      n := s.n + j / s.chans }) := by
  rw [decodeRun, if_neg (Nat.not_lt.2 hn), writePixels_fails hc hj hf hfail, Flow.andThen_stop]

end Sys2Proof.Machine
end

section
/-! The classifier, lockstep and the decoder's chunks, settled. -/

namespace Sys2Proof.Machine

open Sys2Proof

/-- Settles O7: the five choices exclude each other, and each carries the tests that led to it. -/
theorem classifierChoosesAWellFormedChunk : Obligations.ClassifierChoosesAWellFormedChunk := by
  intro px prev t dr dg db drg dbg small near i
  have hi : Classified px prev t i := classify_classified px prev t
  have hdeltas : deltas px prev = ⟨dr, dg, db, decide (px.a - prev.a = 0), drg, dbg⟩ := rfl
  have hsmall : SmallDeltas (deltas px prev) ↔ small := Iff.rfl
  have hnear : NearDeltas (deltas px prev) ↔ near := Iff.rfl
  refine ⟨⟨wellFormed_of_classified hi, classify_isPixelChunk px prev t⟩, ?_⟩
  generalize i = i' at hi
  cases hi with
  | index hit => simp [hit]
  | diff miss same hs => simp [miss, same, hsmall.1 hs, hdeltas]
  | luma miss same hl hn => simp [miss, same, mt hsmall.2 hl, hnear.1 hn, hdeltas]
  | rgb miss same hl hn => simp [miss, same, mt hsmall.2 hl, mt hnear.2 hn]
  | rgba miss differs => simp [miss, differs]

/-- Settles O8: the law of one relative delta, for red and for blue. -/
theorem relativeDeltasWrapHarmlessly : Obligations.RelativeDeltasWrapHarmlessly := by
  intro px prev h
  obtain ⟨hlo, hhi⟩ := (within_iff ..).1 h
  exact ⟨within_wrapped_sub_iff hlo hhi, within_wrapped_sub_iff hlo hhi⟩

/-- Settles O9: the decoder reads the encoder's pixel from the chunk, and both make UPDATE with it. -/
theorem lockstepOverOneChunk : Obligations.LockstepOverOneChunk := by
  intro e d he hd htable hprev _ i hq hfe hn hfd
  have hi : i.isPixelChunk = true := classify_isPixelChunk ..
  have hpx : chunkPixel i d = e.px := by
    show chunkPixel (classify e.px e.prev (lookup e.table (pixelHash e.px))) d = e.px
    rw [htable, hprev]
    exact chunkPixel_classify e.px d
  have hdec := exec_pixelChunk_decoded hi hd hn (by rw [hpx]; exact hfd)
  rw [hpx] at hdec
  refine ⟨recordPixel (afterEmit (encodeBytes i) e), afterChunk (encodeBytes i).length e.px d, ?_, hdec, rfl, rfl, ?_,
    he, hd, rfl, rfl, rfl⟩
  · rw [exec_pixelChunk_encoding hi he, emitPixelChunk_go i e hq hfe, Flow.state_go]
  · show update e.table e.px = update d.table e.px
    rw [htable]

/-- Settles O10: the general chunk, with the operands as its pixel. -/
theorem rgbaAndRgbDecode : Obligations.RgbaAndRgbDecode := by
  refine ⟨fun r g b a s hp hwf hn hf => ⟨_, ?rgba, Memory.stored_writeList _ _ _ hwf⟩, fun P => ⟨rfl, rfl⟩,
    fun r g b s hp hwf hn hf => ⟨_, ?rgb, Memory.stored_writeList _ _ _ hwf⟩⟩
  case rgba => exact exec_pixelChunk_decoded (i := .rgba r g b a) rfl hp hn hf
  case rgb => exact exec_pixelChunk_decoded (i := .rgb r g b) rfl hp hn hf

/-- Settles O11: the general chunk, with the exact sums as its pixel. -/
theorem lumaAndDiffDecode : Obligations.LumaAndDiffDecode := by
  constructor
  · intro dg drg dbg s hp hwf hn P hf
    have hP : lumaPixel s.prev dg drg dbg = P := lumaPixel_eq_exact_sums ..
    refine ⟨_, ?_, Memory.stored_writeList _ _ _ hwf⟩
    rw [← hP] at hf ⊢
    exact exec_pixelChunk_decoded (i := .luma dg drg dbg) rfl hp hn hf
  · intro dr dg db s hp hwf hn P hf
    have hP : diffPixel s.prev dr dg db = P := diffPixel_eq_exact_sums ..
    refine ⟨_, ?_, Memory.stored_writeList _ _ _ hwf⟩
    rw [← hP] at hf ⊢
    exact exec_pixelChunk_decoded (i := .diff dr dg db) rfl hp hn hf

/-- Settles O12: the general chunk, with the slot's pixel, read before UPDATE. -/
theorem indexDecodes : Obligations.IndexDecodes := fun slot _ hp hwf hn hf =>
  ⟨_, exec_pixelChunk_decoded (i := .index slot) rfl hp hn hf, Memory.stored_writeList _ _ _ hwf⟩

/-- Settles O13: whole pixels written one after another are their bytes written in one run. -/
theorem runDecodes : Obligations.RunDecodes := by
  intro count s hp hwf hc hn hf
  refine ⟨_, ?_, Memory.stored_writeList _ _ _ hwf⟩
  rw [exec_run_decoding hp, decodeRun_go count s hc hn hf, Flow.state_go]

/-- Settles O14: the count is checked after `prev` and before the first write. -/
theorem excessPixelsRaisePixelCount : Obligations.ExcessPixelsRaisePixelCount := by
  refine ⟨fun i s hi hp hn => ?pixel, fun count s hp hn => ?run⟩
  case pixel =>
    rw [exec_pixelChunk_decoding hi hp, decodePixel_excess _ _ s hn]
    rfl
  case run =>
    rw [exec_run_decoding hp, decodeRun_excess count s hn]
    rfl

/-- Settles O15: the general chunk at three channels. -/
theorem threeChannelAlphaSetsTheFlag : Obligations.ThreeChannelAlphaSetsTheFlag := by
  intro i s hi hp hwf hc hn hf
  have hchans : s.chans = 3 := by rw [State.chans, hc]; rfl
  have hbytes : ∀ P, pixelBytes s.channels P = [P.r, P.g, P.b] := fun P => by rw [hc]; rfl
  refine ⟨afterChunk (encodeBytes i).length (chunkPixel i s) s, ?_, hp, rfl, rfl, rfl, rfl,
    lookup_update_self s.table (chunkPixel i s), fun ha => ?_, fun ha => ?_, ?_⟩
  · exact exec_pixelChunk_decoded hi hp hn (by rw [hchans, hbytes]; exact hf)
  · show (s.alpha3 || (decide (s.channels = 3) && decide ((chunkPixel i s).a ≠ 255))) = true
    have ha : (chunkPixel i s).a ≠ 255 := ha
    rw [decide_eq_true hc, decide_eq_true ha, Bool.and_self, Bool.or_true]
  · show (s.alpha3 || (decide (s.channels = 3) && decide ((chunkPixel i s).a ≠ 255))) = s.alpha3
    have ha : (chunkPixel i s).a = 255 := ha
    rw [decide_eq_false (not_not.2 ha), Bool.and_false, Bool.or_false]
  · show Stored (s.mem.writeList (s.dstAddr.toNat + s.n * s.chans) (pixelBytes s.channels (chunkPixel i s))) ..
    rw [hchans, hbytes]
    exact Memory.stored_writeList _ _ _ hwf

/-- Settles O16: the writes stop at the first byte that fails, in one pixel and in a run of pixels. -/
theorem failingPixelWriteKeepsAPrefix : Obligations.FailingPixelWriteKeepsAPrefix := by
  refine ⟨fun i s j hi hp hwf hc hn hj hf hfail => ⟨_, ?pixel, Memory.stored_writeList _ _ _ hwf⟩,
    fun count s j hp hwf hc hn hj hf hfail => ⟨_, ?run, Memory.stored_writeList _ _ _ hwf⟩⟩
  case pixel =>
    have hj : j < (pixelBytes s.channels (chunkPixel i s)).length := by rw [pixelBytes_length _ hc]; exact hj
    rw [exec_pixelChunk_decoding hi hp, decodePixel_fails hn hj hf hfail]
    rfl
  case run =>
    rw [exec_run_decoding hp, decodeRun_fails hc hn hj hf hfail]
    rfl

end Sys2Proof.Machine
end

section
/-! The encoder's output: a pending RUN chunk and what follows it, all written or cut at the byte that fails
(42_chunk_encoder.md R120 to R132, 44_framing_and_commands.md R184). -/

namespace Sys2Proof.Machine

open Sys2Proof

/-! ### One instruction -/

/-- A first part of the bytes, as the fields it moves. -/
theorem afterEmit_take {bs : List Byte} {j : Nat} (h : j ≤ bs.length) (s : State) :
    afterEmit (bs.take j) s =
      { s with mem := s.mem.writeList (s.dstAddr.toNat + s.q) (bs.take j), q := s.q + j } := by
  rw [afterEmit, List.length_take, Nat.min_eq_left h]

/-- A stream instruction in the encoder emits its bytes and then does something else. -/
theorem exec_encoding_emits {i : Instr} {s : State} (hp : s.phase = .encoding) (hi : encodeBytes i ≠ []) :
    ∃ f, exec i s = .next ((emitList (encodeBytes i) s).andThen f).state := by
  cases i with
  | rgba | rgb | luma | diff | index => exact ⟨_, exec_pixelChunk_encoding rfl hp⟩
  | run count => exact ⟨_, exec_run_encoding hp⟩
  | header w h c cs => exact ⟨_, exec_header_encoding hp⟩
  | endMarker => exact ⟨_, exec_endMarker_encoding hp⟩
  | encode | decode => exact absurd rfl hi

/-- Whatever follows the bytes does not happen when one of them fails. -/
theorem exec_encoding_fails {i : Instr} {s : State} {j : Nat} {code : ErrCode} (hp : s.phase = .encoding)
    (h : emitFailsAt s (encodeBytes i).length j code) :
    exec i s = .next (raise code (afterEmit ((encodeBytes i).take j) s)) := by
  have hi : encodeBytes i ≠ [] := List.ne_nil_of_length_pos (Nat.zero_lt_of_lt h.1)
  obtain ⟨f, he⟩ := exec_encoding_emits hp hi
  rw [he, emitList_fails _ s j code h, Flow.andThen_stop, Flow.state_stop]

theorem run_byte_eq (count : Nat) (h1 : 1 ≤ count) (h62 : count ≤ 62) :
    encodeBytes (.run count) = [BitVec.ofNat 8 (0xC0 + (count - 1))] := by
  interval_cases count <;> rfl

/-! ### The pending run, then an instruction -/

/-- The state once the pending run has been emitted. -/
def afterFlush (s : State) : State := { afterEmit (pendingRun s) s with run := 0 }

/-- Emit the pending run, then execute the instruction that the state then asks for. -/
def flushThen (f : State → Instr) (s : State) : Host.Outcome State Fault Refusal :=
  match flushRun s with
  | .stop t => .next t
  | .go t => exec (f t) t

/-- The chunk the classifier chooses for the pixel that has been read (R132). -/
def chosenChunk (t : State) : Instr := classify t.px t.prev (lookup t.table (pixelHash t.px))

theorem finishEncode_eq_flushThen (s : State) : finishEncode s = flushThen (fun _ => .endMarker) s := rfl

theorem encodePixel_eq_flushThen {s : State} (h : s.px ≠ s.prev) :
    encodePixel s = flushThen chosenChunk s := if_neg h

theorem flushThen_go {f : State → Instr} {s : State} (hq : s.q + (pendingRun s).length ≤ s.dstCap.toNat)
    (hf : noFault s .write (s.dstAddr.toNat + s.q) (pendingRun s).length) :
    flushThen f s = exec (f (afterFlush s)) (afterFlush s) := by
  rw [flushThen, flushRun_go s hq hf]
  rfl

/-- The run's byte and the instruction's bytes are one output: the failing byte cuts it, and the counter returns to 0
when the run's byte was written before. -/
theorem flushThen_fails {f : State → Instr} {s : State} {j : Nat} {code : ErrCode} (hp : s.phase = .encoding)
    (h : emitFailsAt s (pendingRun s ++ encodeBytes (f (afterFlush s))).length j code) :
    flushThen f s = .next (raise code
      { afterEmit ((pendingRun s ++ encodeBytes (f (afterFlush s))).take j) s with
        run := if j < (pendingRun s).length then s.run else 0 }) := by
  by_cases hj : j < (pendingRun s).length
  · obtain ⟨rfl, hstop⟩ := flushRun_fails ⟨hj, h.2⟩
    rw [flushThen, hstop, if_pos hj]
    rfl
  · rw [List.length_append] at h
    obtain ⟨hgo, hlater⟩ := flushRun_of_later_fail (Nat.not_lt.1 hj) h
    have hexec := exec_encoding_fails (s := afterFlush s) hp hlater
    rw [flushThen, hgo, if_neg hj, List.take_append, List.take_of_length_le (Nat.not_lt.1 hj), ← afterEmit_append]
    exact hexec

/-! ### A differing pixel -/

/-- The state once a pixel has been read. -/
def afterRead (P : Pixel) (s : State) : State := { s with px := P, i := s.i + 1 }

theorem engineTurn_differs {s : State} {P : Pixel} (hp : s.phase = .encoding) (hs : s.stage = .body)
    (hi : s.i < s.pixels) (hr : readPixel s = some P) (hne : P ≠ s.prev) :
    engineTurn s = flushThen chosenChunk (afterRead P s) := by
  rw [engineTurn_encoderStep hp hs hi, encoderStep_some hr]
  exact encodePixel_eq_flushThen hne

theorem engineTurn_differs_go {s : State} {P : Pixel} (hp : s.phase = .encoding) (hs : s.stage = .body)
    (hi : s.i < s.pixels) (hr : readPixel s = some P) (hne : P ≠ s.prev)
    (hq : s.q + (pixelOutput P s).length ≤ s.dstCap.toNat)
    (hf : noFault s .write (s.dstAddr.toNat + s.q) (pixelOutput P s).length) :
    engineTurn s = .next { afterEmit (pixelOutput P s) s with
      px := P, i := s.i + 1, run := 0, prev := P, table := update s.table P } := by
  rw [pixelOutput, List.length_append] at hq hf
  obtain ⟨hfrun, hfchunk⟩ := noFault_split hf
  have hq' : (afterFlush (afterRead P s)).q +
      (encodeBytes (classify P s.prev (lookup s.table (pixelHash P)))).length ≤ s.dstCap.toNat := by
    rw [← Nat.add_assoc] at hq
    exact hq
  have hgo := emitPixelChunk_go (classify P s.prev (lookup s.table (pixelHash P))) (afterFlush (afterRead P s)) hq'
    (by rw [Nat.add_assoc] at hfchunk; exact hfchunk)
  rw [engineTurn_differs hp hs hi hr hne,
    flushThen_go (s := afterRead P s) (Nat.le_trans (Nat.add_le_add_left (Nat.le_add_right ..) _) hq) hfrun,
    exec_pixelChunk_encoding (i := chosenChunk _) (classify_isPixelChunk ..) (by exact hp), pixelOutput, ← afterEmit_append]
  exact congrArg (fun x : Flow => Host.Outcome.next x.state) hgo

/-! ### The end of the stream -/

theorem engineTurn_finish_go {s : State} (hp : s.phase = .encoding) (hs : s.stage = .body) (hi : s.pixels ≤ s.i)
    (hq : s.q + (pendingRun s ++ endMarkerBytes).length ≤ s.dstCap.toNat)
    (hf : noFault s .write (s.dstAddr.toNat + s.q) (pendingRun s ++ endMarkerBytes).length) :
    engineTurn s = .next (complete (s.q + (pendingRun s ++ endMarkerBytes).length)
      { afterEmit (pendingRun s ++ endMarkerBytes) s with run := 0 }) := by
  rw [List.length_append] at hq hf
  obtain ⟨hfrun, hfend⟩ := noFault_split hf
  have hq' : (afterFlush s).q + (encodeBytes .endMarker).length ≤ s.dstCap.toNat := by
    rw [← Nat.add_assoc] at hq
    exact hq
  have hgo := emitList_go (encodeBytes .endMarker) (afterFlush s) hq' (by rw [Nat.add_assoc] at hfend; exact hfend)
  rw [engineTurn_finishEncode hp hs hi, finishEncode_eq_flushThen,
    flushThen_go (Nat.le_trans (Nat.add_le_add_left (Nat.le_add_right ..) _) hq) hfrun,
    exec_endMarker_encoding (by exact hp), emitEndMarker, hgo, ← afterEmit_append, List.length_append, ← Nat.add_assoc]
  rfl

/-- A stream length that fits the destination fits OUT_LEN. -/
theorem toNat_ofNat_of_le {len : Nat} {x : Long} (h : len ≤ x.toNat) : (BitVec.ofNat 64 len).toNat = len := by
  rw [BitVec.toNat_ofNat, Nat.mod_eq_of_lt (Nat.lt_of_le_of_lt h x.isLt)]

/-! ### Reading a pixel -/

theorem readPixel_four {s : State} {r g b a : Byte} (hc : s.channels = 4)
    (h : memReadList s (s.srcAddr.toNat + s.i * s.chans) 4 = some [r, g, b, a]) : readPixel s = some ⟨r, g, b, a⟩ := by
  rw [readPixel, readPixelAt, if_pos hc, h]

theorem readPixel_three {s : State} {r g b : Byte} (hc : s.channels = 3)
    (h : memReadList s (s.srcAddr.toNat + s.i * s.chans) 3 = some [r, g, b]) : readPixel s = some ⟨r, g, b, 255⟩ := by
  rw [readPixel, readPixelAt, if_neg (by rw [hc]; decide), h]

/-- A pixel has as many bytes as the image has channels. -/
theorem readPixel_none {s : State} (hg : goodChannels s.channels = true)
    (h : memReadList s (s.srcAddr.toNat + s.i * s.chans) s.chans = none) : readPixel s = none := by
  simp only [goodChannels, Bool.or_eq_true, decide_eq_true_eq] at hg
  rcases hg with hc | hc
  · have hchans : s.chans = 3 := by rw [State.chans, hc]; rfl
    rw [hchans] at h
    rw [readPixel, readPixelAt, if_neg (by rw [hc]; decide), hchans, h]
  · have hchans : s.chans = 4 := by rw [State.chans, hc]; rfl
    rw [hchans] at h
    rw [readPixel, readPixelAt, if_pos hc, hchans, h]

end Sys2Proof.Machine
end

section
/-! The encoder's chunks, header and end, settled. -/

namespace Sys2Proof.Machine

open Sys2Proof

/-- Settles O17: the bytes are emitted whole, then the state is recorded, or for RUN the counter cleared. -/
theorem chunksEncode : Obligations.ChunksEncode := by
  refine ⟨fun i s hi hp hwf hq hf => ⟨_, ?chunk, Memory.stored_writeList _ _ _ hwf⟩,
    fun count s hp hwf hq hf h1 h62 => ⟨_, ?run, Memory.stored_writeList _ _ _ hwf⟩⟩
  case chunk =>
    rw [exec_pixelChunk_encoding hi hp, emitPixelChunk_go i s hq hf]
    rfl
  case run =>
    rw [exec_run_encoding hp, emitRun_go count s hq hf, run_byte_eq count h1 h62]
    rfl

/-- Settles O19: one output, cut at its first failing byte, whether it is one instruction's or the pending run's and the
next instruction's. -/
theorem encoderOverflowKeepsAPrefix : Obligations.EncoderOverflowKeepsAPrefix := by
  refine ⟨?one, ?pixel, ?finish⟩
  case one =>
    intro i s j code hp hwf h
    refine ⟨_, ?_, Memory.stored_writeList _ _ _ hwf⟩
    rw [exec_encoding_fails hp h, afterEmit_take (Nat.le_of_lt h.1)]
    rfl
  case pixel =>
    intro s P j code hp hs hi hr hne hwf out h
    refine ⟨_, ?_, Memory.stored_writeList _ _ _ hwf⟩
    have hcut : afterEmit (out.take j) s = _ := afterEmit_take (Nat.le_of_lt h.1) s
    rw [engineTurn_differs hp hs hi hr hne]
    refine (flushThen_fails (f := chosenChunk) (s := afterRead P s) hp h).trans ?_
    show Host.Outcome.next (raise code { afterEmit (out.take j) s with
      px := P, i := s.i + 1, run := if j < (pendingRun s).length then s.run else 0 }) = _
    rw [hcut]
    rfl
  case finish =>
    intro s j code hp hs hi hwf out h
    refine ⟨_, ?_, Memory.stored_writeList _ _ _ hwf⟩
    have hcut : afterEmit (out.take j) s = _ := afterEmit_take (Nat.le_of_lt h.1) s
    rw [engineTurn_finishEncode hp hs hi, finishEncode_eq_flushThen]
    refine (flushThen_fails (f := fun _ => .endMarker) hp h).trans ?_
    show Host.Outcome.next (raise code { afterEmit (out.take j) s with
      run := if j < (pendingRun s).length then s.run else 0 }) = _
    rw [hcut]
    rfl

/-- Settles O20: the reads give the channels in the order of the addresses, and fail when one of them does. -/
theorem pixelReadTakesChannelsInOrder : Obligations.PixelReadTakesChannelsInOrder := by
  intro s r g b a
  refine ⟨fun hc hf hb => ?four, fun hc hf hb => ?three, fun j hj hg hfail => ?fails⟩
  case four =>
    have hchans : s.chans = 4 := by rw [State.chans, hc]; rfl
    exact readPixel_four hc (by rw [hchans]; exact memReadList_eq [r, g, b, a] s _ hf hb)
  case three =>
    have hchans : s.chans = 3 := by rw [State.chans, hc]; rfl
    exact readPixel_three hc (by rw [hchans]; exact memReadList_eq [r, g, b] s _ hf hb)
  case fails =>
    have hnone := readPixel_none hg (memReadList_none s _ _ j hj hfail)
    refine ⟨hnone, fun hp hs hi => ?_⟩
    rw [engineTurn_encoderStep hp hs hi, encoderStep_none hnone]

/-- Settles O22: the run and the chunk are one output, written whole. -/
theorem differingPixelFlushesThenEncodes : Obligations.DifferingPixelFlushesThenEncodes := by
  intro s P hp hs hi hr hne hwf out hq hf
  exact ⟨_, engineTurn_differs_go hp hs hi hr hne hq hf, Memory.stored_writeList _ _ _ hwf⟩

/-- Settles O23: the run and the marker are one output, and its end is OUT_LEN. -/
theorem encodeEndsWithMarkerAndDone : Obligations.EncodeEndsWithMarkerAndDone := by
  intro s hp hs hi hwf out hq hf
  exact ⟨_, _, engineTurn_finish_go hp hs hi hq hf, rfl, toNat_ofNat_of_le hq, Memory.stored_writeList _ _ _ hwf⟩

/-- Settles O27: the fourteen bytes are emitted whole, with the registers as operands. -/
theorem headerEncodes : Obligations.HeaderEncodes := by
  refine ⟨fun w h c cs s hp hwf hq hf => ⟨_, ?bytes, Memory.stored_writeList _ _ _ hwf⟩, fun s hp hs => ?registers⟩
  case bytes =>
    rw [exec_header_encoding hp, emitHeader, emitList_go (encodeBytes (.header w h c cs)) s hq hf]
    rfl
  case registers => rw [engineTurn_encoding hp, encodeTransition, hs]

end Sys2Proof.Machine
end

section
/-! The header and the end marker of DECODE, and the start checks in their order (40_header_codec.md,
44_framing_and_commands.md R190, 60_exceptions.md R201 and R202). -/

namespace Sys2Proof.Machine

open Sys2Proof

/-! ### The header -/

theorem goodChannels_iff (c : Byte) : goodChannels c = true ↔ c = 3 ∨ c = 4 := by simp [goodChannels]

theorem decodeHeaderFields_fits {w h : Word} {c : Byte} {s : State} (cs : Byte) (hc : goodChannels c = true)
    (hfits : w.toNat * h.toNat * c.toNat ≤ s.dstCap.toNat) :
    decodeHeaderFields w h c cs s = .go (enterChunkLoop (latchHeader w h c cs s)) := by
  rcases decodeHeaderFields_cases w h c cs s with ⟨hbad, -⟩ | ⟨-, hlt, -⟩ | ⟨-, -, he⟩
  · exact absurd (hbad.symm.trans hc) Bool.false_ne_true
  · exact absurd hlt (Nat.not_lt.2 hfits)
  · exact he

theorem decodeHeaderFields_overflow {w h : Word} {c : Byte} {s : State} (cs : Byte) (hc : goodChannels c = true)
    (hlt : s.dstCap.toNat < w.toNat * h.toNat * c.toNat) :
    decodeHeaderFields w h c cs s = .stop (raise .dstOverflow (latchHeader w h c cs s)) := by
  rcases decodeHeaderFields_cases w h c cs s with ⟨hbad, -⟩ | ⟨-, -, he⟩ | ⟨-, hfits, -⟩
  · exact absurd (hbad.symm.trans hc) Bool.false_ne_true
  · exact he
  · exact absurd hlt (Nat.not_lt.2 hfits)

/-! ### The end marker -/

/-- The comparison stops at the first byte that cannot be read or differs, whatever stands after it. -/
theorem checkMarkerBytes_stops {s : State} {a j : Nat} {bs : List Byte} (hj : j < bs.length)
    (hf : noFault s .read a j) (hb : holdsAt s.mem a (bs.take j)) :
    (portFault s.cfg .read (a + j) = true → checkMarkerBytes s a bs = .busError) ∧
      (portFault s.cfg .read (a + j) = false → s.mem.read (a + j) ≠ bs[j] →
        checkMarkerBytes s a bs = .badEndMarker) := by
  induction bs generalizing a j with
  | nil => simp at hj
  | cons b bs ih =>
    cases j with
    | zero =>
      refine ⟨fun hfail => ?_, fun hok hne => ?_⟩
      · rw [checkMarkerBytes, memRead_none s a hfail]
      · rw [checkMarkerBytes, memRead_eq s a hok]
        exact if_neg hne
    | succ j =>
      obtain ⟨hok, hf'⟩ := noFault_succ hf
      rw [List.take_succ_cons] at hb
      obtain ⟨hb0, hb'⟩ := holdsAt_cons hb
      have hstep : checkMarkerBytes s a (b :: bs) = checkMarkerBytes s (a + 1) bs := by
        rw [checkMarkerBytes, memRead_eq s a hok]
        exact if_pos hb0
      have hrest := ih (a := a + 1) (j := j) (by simpa using hj) hf' hb'
      rw [Nat.add_assoc, Nat.add_comm 1 j] at hrest
      rw [hstep]
      exact hrest

theorem endMarkerBytes_getElem {j : Nat} (h : j < 8) : endMarkerBytes[j] = if j = 7 then 1 else 0 := by
  interval_cases j <;> rfl

theorem engineTurn_end {s : State} (hp : s.phase = .decoding) (hs : s.stage = .body) (hend : s.endOff ≤ s.p) :
    engineTurn s = runFetched (fetchEnd s) s := by
  rw [engineTurn_decoding hp, decodeTransition, hs]
  simp only [fetchBody, if_neg (Nat.not_lt.2 hend)]

theorem fetchEnd_of_marker_error {s : State} {code : ErrCode} (hn : s.n = s.pixels) (hcode : code ≠ .none)
    (h : checkMarkerBytes s (s.srcAddr.toNat + s.endOff) endMarkerBytes = code) : fetchEnd s = .error code := by
  rw [fetchEnd, if_neg (not_not.2 hn), fetchMarker, h]
  cases code with
  | none => exact absurd rfl hcode
  | _ => rfl

theorem engineTurn_marker_error {s : State} {code : ErrCode} (hp : s.phase = .decoding) (hs : s.stage = .body)
    (hend : s.endOff ≤ s.p) (hn : s.n = s.pixels) (hcode : code ≠ .none)
    (h : checkMarkerBytes s (s.srcAddr.toNat + s.endOff) endMarkerBytes = code) :
    engineTurn s = .next (raise code s) := by
  rw [engineTurn_end hp hs hend, fetchEnd_of_marker_error hn hcode h, runFetched]

/-! ### The start checks -/

theorem sizeFails_iff (s : State) :
    sizeFails s = true ↔ 2 ^ s.cfg.addrW < s.srcAddr.toNat + s.srcLen.toNat ∨
      2 ^ s.cfg.addrW < s.dstAddr.toNat + s.dstCap.toNat := by simp [sizeFails]

/-- A shared byte makes both ranges non-empty. -/
theorem overlapFails_iff_shared (s : State) :
    overlapFails s = true ↔ ∃ a, s.inSrc a = true ∧ s.inDst a = true := by
  rw [overlapFails_iff_shared_byte]
  refine ⟨fun ⟨_, _, h⟩ => h, fun h => ?_⟩
  obtain ⟨a, hsrc, hdst⟩ := h
  have hs := (inRange_eq_true_iff ..).1 hsrc
  have hd := (inRange_eq_true_iff ..).1 hdst
  exact ⟨by omega, by omega, a, hsrc, hdst⟩

theorem goodChannels_not_iff (c : Byte) : (!goodChannels c) = true ↔ c ≠ 3 ∧ c ≠ 4 := by simp [goodChannels]

end Sys2Proof.Machine
end

section
/-! The header, the end marker and the start checks, settled. -/

namespace Sys2Proof.Machine

open Sys2Proof

/-- Settles O24: the capacity check stands between the latch and the chunk loop. -/
theorem headerDecodesWhenTheImageFits : Obligations.HeaderDecodesWhenTheImageFits := by
  refine ⟨fun w h c cs s hp hc hfits => ?fits, fun w h c cs s hp hc hlt => ?overflow⟩
  case fits =>
    rw [exec_header_decoding hp, decodeHeaderFields_fits cs ((goodChannels_iff c).2 hc) hfits]
    rfl
  case overflow =>
    rw [exec_header_decoding hp, decodeHeaderFields_overflow cs ((goodChannels_iff c).2 hc) hlt]
    rfl

/-- Settles O28: the decoder only completes; the encoder emits the marker first. -/
theorem endCompletesTheOperation : Obligations.EndCompletesTheOperation := by
  refine ⟨fun s hp hfits => ?decoder, fun s hp hwf hq hf => ⟨_, ?encoder, Memory.stored_writeList _ _ _ hwf⟩⟩
  case decoder => exact ⟨_, exec_endMarker_decoding hp, rfl, toNat_ofNat_of_le hfits, complete_busy ..⟩
  case encoder =>
    rw [exec_endMarker_encoding hp, emitEndMarker, emitList_go (encodeBytes .endMarker) s hq hf]
    rfl

/-- Settles O29: the pixel count is compared before the marker's bytes, and these one at a time. -/
theorem endMarkerIsChecked : Obligations.EndMarkerIsChecked := by
  intro s hp hs hend
  refine ⟨fun hn => ?count, fun hn j hj hf hb => ?marker⟩
  case count => rw [engineTurn_end hp hs hend, fetchEnd, if_pos hn, runFetched]
  case marker =>
    obtain ⟨hfault, hdiffers⟩ := checkMarkerBytes_stops (bs := endMarkerBytes) hj hf hb
    rw [endMarkerBytes_getElem hj] at hdiffers
    exact ⟨fun hfail => engineTurn_marker_error hp hs hend hn (by decide) (hfault hfail),
      fun hok hne => engineTurn_marker_error hp hs hend hn (by decide) (hdiffers hok hne)⟩

/-- Settles O33: the code of each clause is the first branch of the checks that its conditions leave. -/
theorem encodeChecksInOrder : Obligations.EncodeChecksInOrder := by
  intro s hp hs size shared bad len
  have hsize : sizeFails s = true ↔ size := sizeFails_iff s
  have hshared : overlapFails s = true ↔ shared := overlapFails_iff_shared s
  have hbad : (!goodChannels s.channels) = true ↔ bad := goodChannels_not_iff s.channels
  have hlen : s.srcLen.toNat ≠ s.pixels * s.chans ↔ len := Iff.rfl
  refine ⟨fun h1 => ?_, fun h1 h2 => ?_, fun h1 h2 h3 => ?_, fun h1 h2 h3 h4 => ?_, fun h1 h2 h3 h4 => ?_⟩
  · rw [engineTurn_encode_start_raises_iff hp hs (by decide), encodeCheck, if_pos (hsize.2 h1)]
  · rw [engineTurn_encode_start_raises_iff hp hs (by decide), encodeCheck, if_neg (mt hsize.1 h1),
      if_pos (hshared.2 h2)]
  · rw [engineTurn_encode_start_raises_iff hp hs (by decide), encodeCheck, if_neg (mt hsize.1 h1),
      if_neg (mt hshared.1 h2), if_pos (hbad.2 h3)]
  · rw [engineTurn_encode_start_raises_iff hp hs (by decide), encodeCheck, if_neg (mt hsize.1 h1),
      if_neg (mt hshared.1 h2), if_neg (mt hbad.1 h3), if_pos (hlen.2 h4)]
  · have hcheck : encodeCheck s = .none := by
      rw [encodeCheck, if_neg (mt hsize.1 h1), if_neg (mt hshared.1 h2), if_neg (mt hbad.1 h3), if_neg (mt hlen.1 h4)]
    rcases encodeStart_cases s hp hs with ⟨-, he⟩ | ⟨hne, -⟩
    · exact he
    · exact absurd hcheck hne

/-- Settles O34: as for ENCODE, with the length check in the third place. -/
theorem decodeChecksInOrder : Obligations.DecodeChecksInOrder := by
  intro s hp hs size shared
  have hsize : sizeFails s = true ↔ size := sizeFails_iff s
  have hshared : overlapFails s = true ↔ shared := overlapFails_iff_shared s
  refine ⟨fun h1 => ?_, fun h1 h2 => ?_, fun h1 h2 h3 => ?_, fun h1 h2 h3 => ?_⟩
  · rw [engineTurn_decode_start_raises_iff hp hs (by decide), decodeCheck, if_pos (hsize.2 h1)]
  · rw [engineTurn_decode_start_raises_iff hp hs (by decide), decodeCheck, if_neg (mt hsize.1 h1),
      if_pos (hshared.2 h2)]
  · rw [engineTurn_decode_start_raises_iff hp hs (by decide), decodeCheck, if_neg (mt hsize.1 h1),
      if_neg (mt hshared.1 h2), if_pos h3]
  · have hcheck : decodeCheck s = .none := by
      rw [decodeCheck, if_neg (mt hsize.1 h1), if_neg (mt hshared.1 h2), if_neg (Nat.not_lt.2 h3)]
    rcases decodeStart_cases s hp hs with ⟨-, he⟩ | ⟨hne, -⟩
    · exact he
    · exact absurd hcheck hne

end Sys2Proof.Machine
end

section
/-! The instruction that stands where a step fetches it (43_chunk_decoder.md R150, 40_header_codec.md R102 and R103). -/

namespace Sys2Proof.Machine

open Sys2Proof

theorem encodeBytes_length_pos {i : Instr} (hc : i.isChunk = true) : 0 < (encodeBytes i).length := by
  rcases isChunk_cases hc with hp | ⟨count, rfl⟩
  · exact (encodeBytes_length_le i hp).1
  · exact Nat.one_pos

theorem holdsAt_append {m : Memory} {a : Nat} {bs cs : List Byte} (h : holdsAt m a (bs ++ cs)) :
    holdsAt m a bs ∧ holdsAt m (a + bs.length) cs := by
  refine ⟨fun j hj => ?_, fun j hj => ?_⟩
  · rw [h j (by rw [List.length_append]; omega), List.getElem_append_left hj]
  · rw [Nat.add_assoc, h (bs.length + j) (by rw [List.length_append]; omega),
      List.getElem_append_right (Nat.le_add_right ..)]
    simp

/-- The ten field bytes of a header. -/
def headerFields (w h : Word) (c cs : Byte) : List Byte := be32Bytes w ++ be32Bytes h ++ [c, cs]

theorem encodeBytes_header (w h : Word) (c cs : Byte) :
    encodeBytes (.header w h c cs) = magic ++ headerFields w h c cs := rfl

/-- The header that stands at the start of the source buffer is the header fetched. -/
theorem fetchHeader_eq {s : State} {w h : Word} {c cs : Byte} (hf : noFault s .read s.srcAddr.toNat 14)
    (hb : holdsAt s.mem s.srcAddr.toNat (encodeBytes (.header w h c cs))) :
    fetchHeader s = .ok (.header w h c cs) := by
  rw [encodeBytes_header] at hb
  obtain ⟨hfmagic, hffields⟩ := noFault_split (l := 4) (l' := 10) hf
  obtain ⟨hbmagic, hbfields⟩ := holdsAt_append hb
  have hmagic : memReadList s s.srcAddr.toNat 4 = some magic := memReadList_eq magic s _ hfmagic hbmagic
  have hfields : memReadList s (s.srcAddr.toNat + 4) 10 = some (headerFields w h c cs) :=
    memReadList_eq (headerFields w h c cs) s _ hffields hbfields
  have hdec := decodeHeader_encodeBytes w h c cs
  rw [encodeBytes_header] at hdec
  rw [fetchHeader, hmagic]
  simp only [ne_eq, not_true_eq_false, if_false, hfields, hdec]

/-- The end marker that stands at `end`, when all pixels are there, is what is fetched. -/
theorem fetchEnd_eq {s : State} (hn : s.n = s.pixels) (hf : noFault s .read (s.srcAddr.toNat + s.endOff) 8)
    (hb : holdsAt s.mem (s.srcAddr.toNat + s.endOff) endMarkerBytes) : fetchEnd s = .ok .endMarker := by
  rw [fetchEnd, if_neg (not_not.2 hn), fetchMarker, checkMarkerBytes_none hf hb]

theorem writeCtrl_of_command {v : Word} {i : Instr} (h : decodeCtrl v = .ok i) (s : State) :
    writeCtrl v s = exec i s := by
  rw [writeCtrl, h]

end Sys2Proof.Machine
end

section
/-! Whose step it is, what it runs, commands, and the state after reset, settled. -/

namespace Sys2Proof.Machine

open Sys2Proof

/-- Settles O31: an idle START, written out. -/
theorem commandsStartWhenIdle : Obligations.CommandsStartWhenIdle := by
  refine ⟨fun ie rsv s hidle => ?encode, fun ie rsv s hidle => ?decode⟩
  case encode =>
    rw [exec_encode_eq_startOperation, startOperation_of_idle hidle]
    rfl
  case decode =>
    rw [exec_decode_eq_startOperation, startOperation_of_idle hidle]
    rfl

/-- Settles O37: the turn at the head of the schedule, the engine's when there is none. -/
theorem stepTakesTheTurn : Obligations.StepTakesTheTurn :=
  fun _ => ⟨step_of_engineMoves, fun _ => step_of_hostMoves⟩

/-- Settles O38: what is fetched at each place is the instruction whose encoding stands there. -/
theorem stepRunsTheDecodedInstruction : Obligations.StepRunsTheDecodedInstruction := by
  refine ⟨fun i s hmoves hp hs hc hw hend hf hb => ?chunk, fun w h c cs s hmoves hp hs hf hb => ?header,
    fun s hmoves hp hs hend hn hf hb => ?marker, fun v i s hhead hdec => ?command⟩
  case chunk =>
    have hpos := encodeBytes_length_pos hc
    have hfetch : fetchChunk s.taken = .ok i := fetchChunk_eq (decodeChunk_encodeBytes hc hw) hend hf hb
    rw [step_of_engineMoves hmoves, engineTurn_chunk (by exact hp) (by exact hs) (by show s.p < s.endOff; omega),
      hfetch, runFetched]
  case header =>
    have hfetch : fetchHeader s.taken = .ok (.header w h c cs) := fetchHeader_eq hf hb
    rw [step_of_engineMoves hmoves, engineTurn_header (by exact hp) (by exact hs), hfetch, runFetched]
  case marker =>
    have hfetch : fetchEnd s.taken = .ok .endMarker := fetchEnd_eq hn hf hb
    rw [step_of_engineMoves hmoves, engineTurn_end (by exact hp) (by exact hs) (by exact hend), hfetch, runFetched]
  case command => rw [step_of_hostMoves hhead, hostTurn_writeReg_ctrl, writeCtrl_of_command hdec]

/-- Settles O39: the registers are the literals of reset; each invariant holds of an idle engine with a fresh table, an
empty memory, clear flags and cleared address registers. -/
theorem resetStateIsIdleAndMeetsTheInvariants : Obligations.ResetStateIsIdleAndMeetsTheInvariants := by
  refine ⟨⟨rfl, by decide, by decide, rfl, rfl, by decide, rfl, rfl, rfl, rfl, rfl, rfl⟩, ?memory,
    slotInv_of_fresh rfl, ⟨Nat.two_pow_pos _, Nat.two_pow_pos _⟩, statusInv_of_clear rfl rfl rfl rfl,
    operationInv_of_idle rfl⟩
  case memory => exact ⟨⟨List.Pairwise.nil, fun c hc => absurd hc List.not_mem_nil⟩,
    fun c hc => absurd hc List.not_mem_nil⟩

end Sys2Proof.Machine
end

section
/-! Where the engine writes (10_state.md R43). -/

namespace Sys2Proof.Machine

open Sys2Proof

/-- A turn that stores nothing, or bytes in a row inside the destination once the buffers have been checked. -/
inductive StoreEffect (s t : State) : Prop where
  | none (h : t.mem = s.mem)
  | stored (hbuf : BuffersInv s) (off : Nat) (bs : List Byte) (hroom : off + bs.length ≤ s.dstCap.toNat)
    (h : t.mem = s.mem.writeList (s.dstAddr.toNat + off) bs)

theorem storeEffect_encodeStopped {s t : State} {P : Pixel} {i : Nat} {run : BitVec 6} {bs : List Byte}
    (hbuf : BuffersInv s) (hq : s.q ≤ s.dstCap.toNat) (h : EncodeStopped s t P i run bs) : StoreEffect s t := by
  obtain ⟨hroom, code, -, rfl⟩ := h
  exact .stored hbuf s.q bs (by rwa [max_eq_right hq] at hroom) rfl

theorem engineTurn_stores {s t : State} (hinv : OperationInv s) (h : engineTurn s = .next t) : StoreEffect s t := by
  cases hp : s.phase with
  | idle =>
    cases (engineTurn_idle hp).symm.trans h
    exact .none rfl
  | encoding =>
    obtain ⟨-, hlate⟩ := hinv.1 hp
    cases hs : s.stage with
    | start => rcases encodeStart_cases s hp hs with ⟨_, he⟩ | ⟨_, he⟩ <;> cases he.symm.trans h <;> exact .none rfl
    | header =>
      obtain ⟨hbuf, -, -, -, -, hq, -⟩ := hlate (by rw [hs]; decide)
      obtain ⟨_, he, ⟨bs, hstop⟩ | ⟨hroom, rfl⟩⟩ := encodeHeader_cases s hp hs <;> cases he.symm.trans h
      · exact storeEffect_encodeStopped hbuf hq hstop
      · exact .stored hbuf s.q (encodeBytes (.header s.width s.height s.channels s.colorspace))
          (by rwa [max_eq_right hq] at hroom) rfl
    | body =>
      obtain ⟨hbuf, -, -, -, -, hq, -⟩ := hlate (by rw [hs]; decide)
      by_cases hi : s.i < s.pixels
      · obtain ⟨_, he, ⟨P, i, run, bs, hstop⟩ |
          ⟨P, _, ⟨_, _, rfl⟩ | ⟨_, _, hroom, rfl⟩ | ⟨_, hroom, rfl⟩⟩⟩ := encoderStep_cases s hp hs hi <;>
          cases he.symm.trans h
        · exact storeEffect_encodeStopped hbuf hq hstop
        · exact .none rfl
        · exact .stored hbuf s.q [0xFD] hroom rfl
        · exact .stored hbuf s.q (pixelOutput P s) (by rwa [max_eq_right hq] at hroom) rfl
      · obtain ⟨_, he, ⟨run, bs, hstop⟩ | ⟨hroom, rfl⟩⟩ := finishEncode_cases s hp hs (Nat.not_lt.1 hi) <;>
          cases he.symm.trans h
        · exact storeEffect_encodeStopped hbuf hq hstop
        · exact .stored hbuf s.q (pendingRun s ++ endMarkerBytes) (by rwa [max_eq_right hq] at hroom) rfl
  | decoding =>
    obtain ⟨-, hlate, hloop⟩ := hinv.2 hp
    cases hs : s.stage with
    | start => rcases decodeStart_cases s hp hs with ⟨_, he⟩ | ⟨_, he⟩ <;> cases he.symm.trans h <;> exact .none rfl
    | header =>
      obtain ⟨_, he, ⟨code, _, rfl⟩ | ⟨w, ht, c, cs, ⟨code, _, rfl⟩ | ⟨_, _, rfl⟩⟩⟩ := decodeHeader_cases s hp hs <;>
        cases he.symm.trans h <;> exact .none rfl
    | body =>
      obtain ⟨hbuf, -⟩ := hlate (by rw [hs]; decide)
      obtain ⟨hgood, hcap, -⟩ := hloop hs
      by_cases hlt : s.p < s.endOff
      · obtain ⟨_, he, ⟨P, p, n, a, bs, hroom, code, _, rfl⟩ | ⟨i, _, _, hn, rfl⟩ | ⟨count, _, _, hn, rfl⟩⟩ :=
          decodeChunk_cases s hp hs hlt hgood <;> cases he.symm.trans h
        · rcases hroom with rfl | hroom
          · exact .none rfl
          · exact .stored hbuf (s.n * s.chans) bs (Nat.le_trans hroom hcap) rfl
        · refine .stored hbuf (s.n * s.chans) (pixelBytes s.channels (chunkPixel i s)) ?_ rfl
          have := pixel_end_le (c := s.chans) hn
          rw [pixelBytes_length _ hgood, ← State.chans]
          omega
        · refine .stored hbuf (s.n * s.chans) (pixelRun s.channels s.prev count) ?_ rfl
          rw [pixelRun_length _ _ hgood]
          exact Nat.le_trans (pixel_end_le hn) hcap
      · rcases decodeEnd_cases s hp hs (Nat.not_lt.1 hlt) with ⟨_, he⟩ | ⟨code, _, he⟩ <;> cases he.symm.trans h <;>
          exact .none rfl

/-- A byte of the source is no byte of the destination once the buffers have been checked. -/
theorem inDst_eq_false_of_inSrc {s : State} (hbuf : BuffersInv s) {a : Nat} (ha : s.inSrc a = true) :
    s.inDst a = false := by
  obtain ⟨-, hoverlap⟩ := hbuf
  rw [← Bool.not_eq_true] at hoverlap ⊢
  exact fun hdst => hoverlap ((overlapFails_iff_shared s).2 ⟨a, ha, hdst⟩)

/-- Bytes stored in the destination leave every other byte. -/
theorem read_stored_outside {s : State} {off a : Nat} {bs : List Byte} (hroom : off + bs.length ≤ s.dstCap.toNat)
    (ha : s.inDst a = false) : (s.mem.writeList (s.dstAddr.toNat + off) bs).read a = s.mem.read a := by
  apply Memory.read_writeList_outside
  simp only [State.inDst, inRange, Bool.and_eq_false_iff, decide_eq_false_iff_not] at ha
  omega

end Sys2Proof.Machine
end

section
/-! How many turns an operation takes (44_framing_and_commands.md R194). -/

namespace Sys2Proof.Machine

open Sys2Proof

/-- A bound on the turns that an operation still takes: one for each pixel of an ENCODE, one for each byte of the chunk
stream of a DECODE, and those before and after. -/
def stepsLeft (s : State) : Nat :=
  match s.phase, s.stage with
  | .idle, _ => 0
  | .encoding, .start => s.pixels + 3
  | .encoding, .header => s.pixels - s.i + 2
  | .encoding, .body => s.pixels - s.i + 1
  | .decoding, .start => s.srcLen.toNat + 3
  | .decoding, .header => s.srcLen.toNat + 2
  | .decoding, .body => s.endOff - s.p + 1

theorem stepsLeft_encode_start {s : State} (hp : s.phase = .encoding) (hs : s.stage = .start) :
    stepsLeft s = s.pixels + 3 := by simp only [stepsLeft, hp, hs]

theorem stepsLeft_encode_header {s : State} (hp : s.phase = .encoding) (hs : s.stage = .header) :
    stepsLeft s = s.pixels - s.i + 2 := by simp only [stepsLeft, hp, hs]

theorem stepsLeft_encode_body {s : State} (hp : s.phase = .encoding) (hs : s.stage = .body) :
    stepsLeft s = s.pixels - s.i + 1 := by simp only [stepsLeft, hp, hs]

theorem stepsLeft_decode_start {s : State} (hp : s.phase = .decoding) (hs : s.stage = .start) :
    stepsLeft s = s.srcLen.toNat + 3 := by simp only [stepsLeft, hp, hs]

theorem stepsLeft_decode_header {s : State} (hp : s.phase = .decoding) (hs : s.stage = .header) :
    stepsLeft s = s.srcLen.toNat + 2 := by simp only [stepsLeft, hp, hs]

theorem stepsLeft_decode_body {s : State} (hp : s.phase = .decoding) (hs : s.stage = .body) :
    stepsLeft s = s.endOff - s.p + 1 := by simp only [stepsLeft, hp, hs]

theorem stepsLeft_le (s : State) : stepsLeft s ≤ s.pixels + s.srcLen.toNat + s.endOff + 4 := by
  unfold stepsLeft
  split <;> omega

/-- The operation has ended, with DONE or ERR. -/
def Ended (t : State) : Prop := t.phase = .idle ∧ (t.done = true ∨ t.err = true)

theorem ended_raise (code : ErrCode) (s : State) : Ended (raise code s) := ⟨rfl, .inr rfl⟩

theorem ended_complete (len : Nat) (s : State) : Ended (complete len s) := ⟨rfl, .inl rfl⟩

theorem encode_turn_progress {s t : State} (hp : s.phase = .encoding) (h : engineTurn s = .next t) :
    Ended t ∨ (t.busy = true ∧ stepsLeft t < stepsLeft s) := by
  have hb : s.busy = true := (busy_eq_true_iff s).2 (by rw [hp]; decide)
  cases hs : s.stage with
  | start =>
    rw [stepsLeft_encode_start hp hs]
    rcases encodeStart_cases s hp hs with ⟨_, he⟩ | ⟨_, he⟩ <;> cases he.symm.trans h
    · refine .inr ⟨hb, ?_⟩
      rw [stepsLeft_encode_header (by exact hp) (by exact rfl)]
      show s.pixels - 0 + 2 < s.pixels + 3
      omega
    · exact .inl (ended_raise _ _)
  | header =>
    rw [stepsLeft_encode_header hp hs]
    obtain ⟨_, he, ⟨bs, _, code, _, rfl⟩ | ⟨_, rfl⟩⟩ := encodeHeader_cases s hp hs <;> cases he.symm.trans h
    · exact .inl (ended_raise _ _)
    · refine .inr ⟨hb, ?_⟩
      rw [stepsLeft_encode_body (by exact hp) (by exact rfl)]
      exact Nat.lt_succ_self _
  | body =>
    rw [stepsLeft_encode_body hp hs]
    by_cases hi : s.i < s.pixels
    · have hless : s.pixels - (s.i + 1) + 1 < s.pixels - s.i + 1 := by omega
      obtain ⟨_, he, ⟨P, i, run, bs, _, code, _, rfl⟩ | ⟨P, _, ⟨_, _, rfl⟩ | ⟨_, _, _, rfl⟩ | ⟨_, _, rfl⟩⟩⟩ :=
        encoderStep_cases s hp hs hi <;> cases he.symm.trans h
      · exact .inl (ended_raise _ _)
      · exact .inr ⟨hb, by rw [stepsLeft_encode_body (by exact hp) (by exact hs)]; exact hless⟩
      · exact .inr ⟨hb, by rw [stepsLeft_encode_body (by exact hp) (by exact hs)]; exact hless⟩
      · exact .inr ⟨hb, by rw [stepsLeft_encode_body (by exact hp) (by exact hs)]; exact hless⟩
    · obtain ⟨_, he, ⟨run, bs, _, code, _, rfl⟩ | ⟨_, rfl⟩⟩ := finishEncode_cases s hp hs (Nat.not_lt.1 hi) <;>
        cases he.symm.trans h
      · exact .inl (ended_raise _ _)
      · exact .inl (ended_complete _ _)

theorem decode_turn_progress {s t : State} (hp : s.phase = .decoding) (h : engineTurn s = .next t) :
    Ended t ∨ (t.busy = true ∧ stepsLeft t < stepsLeft s) := by
  have hb : s.busy = true := (busy_eq_true_iff s).2 (by rw [hp]; decide)
  cases hs : s.stage with
  | start =>
    rw [stepsLeft_decode_start hp hs]
    rcases decodeStart_cases s hp hs with ⟨_, he⟩ | ⟨_, he⟩ <;> cases he.symm.trans h
    · refine .inr ⟨hb, ?_⟩
      rw [stepsLeft_decode_header (by exact hp) (by exact rfl)]
      exact Nat.lt_succ_self _
    · exact .inl (ended_raise _ _)
  | header =>
    rw [stepsLeft_decode_header hp hs]
    obtain ⟨_, he, ⟨code, _, rfl⟩ | ⟨w, ht, c, cs, ⟨code, _, rfl⟩ | ⟨_, _, rfl⟩⟩⟩ := decodeHeader_cases s hp hs <;>
      cases he.symm.trans h
    · exact .inl (ended_raise _ _)
    · exact .inl (ended_raise _ _)
    · refine .inr ⟨hb, ?_⟩
      rw [stepsLeft_decode_body (by exact hp) (by exact rfl)]
      show s.srcLen.toNat - 8 - 14 + 1 < s.srcLen.toNat + 2
      omega
  | body =>
    rw [stepsLeft_decode_body hp hs]
    by_cases hlt : s.p < s.endOff
    · obtain ⟨_, he, P, p, n, a, m, tb, ⟨code, _, rfl⟩ | ⟨hpp, rfl⟩⟩ := decodeChunk_shape s hp hs hlt <;>
        cases he.symm.trans h
      · exact .inl (ended_raise _ _)
      · refine .inr ⟨hb, ?_⟩
        rw [stepsLeft_decode_body (by exact hp) (by exact hs)]
        show s.endOff - p + 1 < s.endOff - s.p + 1
        omega
    · rcases decodeEnd_cases s hp hs (Nat.not_lt.1 hlt) with ⟨_, he⟩ | ⟨code, _, he⟩ <;> cases he.symm.trans h
      · exact .inl (ended_complete _ _)
      · exact .inl (ended_raise _ _)

theorem busy_turn_progress {s t : State} (hb : s.busy = true) (h : engineTurn s = .next t) :
    Ended t ∨ (t.busy = true ∧ stepsLeft t < stepsLeft s) := by
  cases hp : s.phase with
  | idle => exact absurd hp ((busy_eq_true_iff s).1 hb)
  | encoding => exact encode_turn_progress hp h
  | decoding => exact decode_turn_progress hp h

/-- An unattended step is the engine's and leaves the engine unattended. -/
theorem unattended_step {s : State} (hsched : s.schedule = []) :
    ∃ t, step s = .next t ∧ engineTurn s = .next t ∧ t.schedule = [] := by
  obtain ⟨t, ht⟩ := engineTurn_next s
  obtain ⟨-, -, -, -, -, -, -, hschedule, -⟩ := engineTurn_frame ht
  exact ⟨t, (step_of_schedule_nil hsched).trans ht, ht, hschedule.trans hsched⟩

theorem operation_ends (bound : Nat) {s : State} (hsched : s.schedule = []) (hb : s.busy = true)
    (hbound : stepsLeft s ≤ bound) : ∃ k t, k ≤ bound ∧ core.run k s = .next t ∧ Ended t := by
  induction bound generalizing s with
  | zero =>
    obtain ⟨t, -, ht, -⟩ := unattended_step hsched
    have hpos : 0 < stepsLeft s := by
      unfold stepsLeft
      split
      · rename_i hp
        exact absurd hp ((busy_eq_true_iff s).1 hb)
      all_goals exact Nat.succ_pos _
    omega
  | succ bound ih =>
    obtain ⟨t, hstep, ht, hsched'⟩ := unattended_step hsched
    rcases busy_turn_progress hb ht with hended | ⟨hb', hless⟩
    · exact ⟨1, t, by omega, by rw [run_succ_of_step 0 hstep, run_zero], hended⟩
    · obtain ⟨k, u, hk, hrun, hended⟩ := ih hsched' hb' (by omega)
      exact ⟨k + 1, u, by omega, by rw [run_succ_of_step k hstep, hrun], hended⟩

/-- An unattended engine runs on for ever. -/
theorem safeRun_of_unattended {s : State} (hsched : s.schedule = []) : SafeRun s := by
  intro k
  induction k generalizing s with
  | zero => exact ⟨s, run_zero s⟩
  | succ k ih =>
    obtain ⟨t, hstep, -, hsched'⟩ := unattended_step hsched
    obtain ⟨u, hrun⟩ := ih hsched'
    exact ⟨u, by rw [run_succ_of_step k hstep, hrun]⟩

/-- The idle engine executes no stream instruction (60_exceptions.md R219). -/
theorem exec_idle {i : Instr} {s : State} (hp : s.phase = .idle) (hi : encodeBytes i ≠ []) : exec i s = .next s := by
  cases i with
  | encode | decode => exact absurd rfl hi
  | _ => exact byPhase_idle _ _ hp

end Sys2Proof.Machine
end

section
/-! Where the engine writes, that it never stops, and that every operation ends, settled. -/

namespace Sys2Proof.Machine

open Sys2Proof

/-- Settles O45: what is stored lies in the destination, which shares no byte with the source. -/
theorem engineWritesOnlyTheDestination : Obligations.EngineWritesOnlyTheDestination := by
  intro s t hinv h
  cases engineTurn_stores hinv h with
  | none hmem => rw [hmem]; exact ⟨fun _ _ => rfl, fun _ _ => rfl⟩
  | stored hbuf off bs hroom hmem =>
    rw [hmem]
    exact ⟨fun a ha => read_stored_outside hroom ha,
      fun a ha => read_stored_outside hroom (inDst_eq_false_of_inSrc hbuf ha)⟩

/-- Settles O47: every turn of the engine and every instruction answers a next state. -/
theorem engineNeverStops : Obligations.EngineNeverStops := by
  refine ⟨fun s => safeRun_of_unattended, exec_next, fun i s hp hi => exec_idle hp ?_⟩
  rcases hi with hc | ⟨w, h, c, cs, rfl⟩ | rfl
  · exact List.ne_nil_of_length_pos (encodeBytes_length_pos hc)
  · exact List.cons_ne_nil _ _
  · exact List.cons_ne_nil _ _

/-- Settles O48: every busy turn ends the operation or leaves fewer turns. -/
theorem everyOperationEnds : Obligations.EveryOperationEnds := by
  intro s hsched hb
  obtain ⟨k, t, hk, hrun, hidle, hflag⟩ := operation_ends (stepsLeft s) hsched hb (Nat.le_refl _)
  exact ⟨k, t, Nat.le_trans hk (stepsLeft_le s), hrun, hidle, hflag⟩

end Sys2Proof.Machine
end

section
/-! An ENCODE with room: no step fails, and the stream's length stays between its bounds (42_chunk_encoder.md R134). -/

namespace Sys2Proof.Machine

open Sys2Proof

/-! ### One chunk -/

theorem pendingRun_length (s : State) : (pendingRun s).length = min 1 s.run.toNat := by
  unfold pendingRun
  split
  · rename_i h
    rw [h]
    rfl
  · rename_i h
    have hpos : 0 < s.run.toNat := Nat.pos_of_ne_zero fun h0 => h (BitVec.eq_of_toNat_eq h0)
    rw [min_eq_left hpos]
    rfl

theorem chans_cases {s : State} (hg : goodChannels s.channels = true) :
    (s.channels = 3 ∧ s.chans = 3) ∨ (s.channels = 4 ∧ s.chans = 4) := by
  rcases (goodChannels_iff _).1 hg with hc | hc
  · exact .inl ⟨hc, by rw [State.chans, hc]; rfl⟩
  · exact .inr ⟨hc, by rw [State.chans, hc]; rfl⟩

/-- A chunk is at most one byte longer than a pixel: RGBA, the longest, is chosen only when alpha differs, which it
never does in an image of three channels. -/
theorem classify_length_le {s : State} {P t : Pixel} (hg : goodChannels s.channels = true)
    (halpha : s.channels = 3 → P.a = s.prev.a) : (encodeBytes (classify P s.prev t)).length ≤ s.chans + 1 := by
  have h := classify_classified P s.prev t
  generalize classify P s.prev t = i at h ⊢
  rcases chans_cases hg with ⟨hc, hchans⟩ | ⟨-, hchans⟩ <;> rw [hchans]
  · cases h with
    | rgba _ differs => exact absurd (halpha hc) differs
    | index | diff | luma | rgb => simp [encodeBytes]
  · cases h with
    | rgba | index | diff | luma | rgb => simp [encodeBytes]

/-- A pixel whose bytes can be read is read. -/
theorem readPixel_of_noFault {s : State} (hg : goodChannels s.channels = true)
    (hf : noFault s .read (s.srcAddr.toNat + s.i * s.chans) s.chans) : ∃ P, readPixel s = some P := by
  obtain ⟨bs, hbs⟩ := memReadList_of_noFault hf
  obtain ⟨hlen, -, -⟩ := memReadList_some hbs
  rcases chans_cases hg with ⟨hc, hchans⟩ | ⟨hc, hchans⟩
  · obtain ⟨r, g, b, rfl⟩ := List.length_eq_three.1 (hlen.trans hchans)
    exact ⟨_, readPixel_three hc (by rw [← hbs, hchans])⟩
  · match bs, hlen.trans hchans with
    | [r, g, b, a], _ => exact ⟨_, readPixel_four hc (by rw [← hbs, hchans])⟩

/-- Accesses inside a range none of which fails. -/
theorem noFault_inside {s : State} {k : Access} {a len off l : Nat} (h : noFault s k a len) (hl : off + l ≤ len) :
    noFault s k (a + off) l := fun j hj => by
  rw [Nat.add_assoc]
  exact h (off + j) (by omega)

/-! ### The pixel loop -/

/-- An unattended ENCODE in its pixel loop, with room for every chunk and no failing access; `lower` and `upper` bound
the bytes written so far by the pixels read. -/
structure Streaming (s : State) : Prop where
  phase : s.phase = .encoding
  stage : s.stage = .body
  schedule : s.schedule = []
  good : goodChannels s.channels = true
  srcLen : s.srcLen.toNat = s.pixels * s.chans
  room : 22 + s.pixels * (s.chans + 1) ≤ s.dstCap.toNat
  reads : noFault s .read s.srcAddr.toNat s.srcLen.toNat
  writes : noFault s .write s.dstAddr.toNat s.dstCap.toNat
  i_le : s.i ≤ s.pixels
  run_le : s.run.toNat ≤ 61
  q_ge : 14 ≤ s.q
  lower : s.i ≤ 62 * (s.q - 14) + s.run.toNat
  upper : s.q + min 1 s.run.toNat ≤ 14 + s.i * (s.chans + 1)
  alpha : s.channels = 3 → s.prev.a = 255

/-- What every pixel written so far may take leaves the eight bytes of the marker. -/
theorem Streaming.written_le {s : State} (h : Streaming s) : s.q + min 1 s.run.toNat + 8 ≤ s.dstCap.toNat := by
  have hroom := h.room
  have hupper := h.upper
  have hmul : s.i * (s.chans + 1) ≤ s.pixels * (s.chans + 1) := Nat.mul_le_mul_right _ h.i_le
  omega

/-- A chunk of the next pixel fits as well. -/
theorem Streaming.chunk_fits {s : State} (h : Streaming s) (hi : s.i < s.pixels) {len : Nat}
    (hlen : len ≤ s.chans + 1) :
    s.q + (min 1 s.run.toNat + len) ≤ 14 + (s.i + 1) * (s.chans + 1) ∧
      14 + (s.i + 1) * (s.chans + 1) ≤ s.dstCap.toNat := by
  have hroom := h.room
  have hupper := h.upper
  have hmul : (s.i + 1) * (s.chans + 1) ≤ s.pixels * (s.chans + 1) := Nat.mul_le_mul_right _ hi
  have hsucc : (s.i + 1) * (s.chans + 1) = s.i * (s.chans + 1) + (s.chans + 1) := Nat.add_one_mul ..
  omega

/-- One pixel read, and the loop goes on over the same image. -/
def PixelStep (s t : State) : Prop :=
  engineTurn s = .next t ∧ Streaming t ∧ t.i = s.i + 1 ∧ t.err = s.err ∧ t.pixels = s.pixels ∧ t.chans = s.chans

theorem Streaming.reads_pixel {s : State} (h : Streaming s) (hi : s.i < s.pixels) : ∃ P, readPixel s = some P := by
  apply readPixel_of_noFault h.good
  have hlen := h.srcLen
  have := pixel_end_le (c := s.chans) (k := 1) (show s.i + 1 ≤ s.pixels from hi)
  exact noFault_inside h.reads (by omega)

/-- A repeat below the cap takes no byte. -/
theorem Streaming.repeat_below {s : State} (h : Streaming s) (hi : s.i < s.pixels)
    (hr : readPixel s = some s.prev) (hrun : s.run.toNat < 61) :
    PixelStep s { s with px := s.prev, i := s.i + 1, run := s.run + 1 } := by
  obtain ⟨hupper, -⟩ := h.chunk_fits hi (len := 1) (by omega)
  have hlower := h.lower
  have hrun' : (s.run + 1).toNat = s.run.toNat + 1 := by bv_omega
  refine ⟨?_, { h with
    i_le := hi, run_le := ?_, lower := ?_, upper := ?_ }, rfl, rfl, rfl, rfl⟩
  · rw [engineTurn_repeat h.phase h.stage hi hr]
    exact countRepeat_below hrun
  · show (s.run + 1).toNat ≤ 61
    omega
  · show s.i + 1 ≤ 62 * (s.q - 14) + (s.run + 1).toNat
    omega
  · show s.q + min 1 (s.run + 1).toNat ≤ 14 + (s.i + 1) * (s.chans + 1)
    omega

/-- The 62nd repeat takes one byte, for 62 pixels. -/
theorem Streaming.repeat_at_cap {s : State} (h : Streaming s) (hi : s.i < s.pixels)
    (hr : readPixel s = some s.prev) (hrun : s.run.toNat = 61) :
    PixelStep s { afterEmit [0xFD] s with px := s.prev, i := s.i + 1, run := 0 } := by
  obtain ⟨hupper, -⟩ := h.chunk_fits hi (len := 1) (by omega)
  have hlower := h.lower
  have hge := h.q_ge
  have hroom : s.q < s.dstCap.toNat := by have := h.written_le; omega
  have hemit := emitRun_go 62 (afterRepeat 62 s) hroom (h.writes s.q hroom)
  refine ⟨?_, { h with
    i_le := hi, run_le := Nat.zero_le _, q_ge := Nat.le_succ_of_le hge, lower := ?_, upper := ?_ }, rfl, rfl, rfl, rfl⟩
  · rw [engineTurn_repeat_at_cap h.phase h.stage hi hr hrun, hemit]
    rfl
  · show s.i + 1 ≤ 62 * (s.q + 1 - 14) + 0
    omega
  · show s.q + 1 + 0 ≤ 14 + (s.i + 1) * (s.chans + 1)
    omega

/-- A differing pixel takes at least one byte, two when a run was pending, and at most one more than its channels. -/
theorem Streaming.differs {s : State} {P : Pixel} (h : Streaming s) (hi : s.i < s.pixels)
    (hr : readPixel s = some P) (hne : P ≠ s.prev) :
    PixelStep s { afterEmit (pixelOutput P s) s with
      px := P, i := s.i + 1, run := 0, prev := P, table := update s.table P } := by
  have halpha : s.channels = 3 → P.a = 255 := readPixel_alpha hr
  have hlen := classify_length_le (P := P) (t := lookup s.table (pixelHash P)) h.good
    fun hc => (halpha hc).trans (h.alpha hc).symm
  have hpos := (encodeBytes_length_le _ (classify_isPixelChunk P s.prev (lookup s.table (pixelHash P)))).1
  obtain ⟨hupper, hcap⟩ := h.chunk_fits hi hlen
  have hout : (pixelOutput P s).length =
      min 1 s.run.toNat + (encodeBytes (classify P s.prev (lookup s.table (pixelHash P)))).length := by
    rw [pixelOutput, List.length_append, pendingRun_length]
  rw [← hout] at hupper
  have hlower := h.lower
  have hge := h.q_ge
  have hrun := h.run_le
  have hq : s.q + (pixelOutput P s).length ≤ s.dstCap.toNat := Nat.le_trans hupper hcap
  refine ⟨engineTurn_differs_go h.phase h.stage hi hr hne hq (noFault_inside h.writes hq),
    { h with
      i_le := hi, run_le := Nat.zero_le _, q_ge := Nat.le_add_right_of_le hge, lower := ?_, upper := hupper
      alpha := halpha }, rfl, rfl, rfl, rfl⟩
  · show s.i + 1 ≤ 62 * (s.q + (pixelOutput P s).length - 14) + 0
    omega

theorem Streaming.pixel_step {s : State} (h : Streaming s) (hi : s.i < s.pixels) : ∃ t, PixelStep s t := by
  obtain ⟨P, hr⟩ := h.reads_pixel hi
  by_cases hP : P = s.prev
  · rw [hP] at hr
    rcases Nat.lt_or_eq_of_le h.run_le with hrun | hrun
    · exact ⟨_, h.repeat_below hi hr hrun⟩
    · exact ⟨_, h.repeat_at_cap hi hr hrun⟩
  · exact ⟨_, h.differs hi hr hP⟩

/-- DONE, with OUT_LEN within the bounds of an image of that size. -/
def DoneWithin (pixels chans : Nat) (err : Bool) (t : State) : Prop :=
  t.phase = .idle ∧ t.done = true ∧ t.err = err ∧ 22 + (pixels + 61) / 62 ≤ t.outLen.toNat ∧
    t.outLen.toNat ≤ 22 + pixels * (chans + 1)

/-- After the last pixel the pending run and the marker fit, and their end is OUT_LEN. -/
theorem Streaming.finish {s : State} (h : Streaming s) (hi : s.i = s.pixels) :
    ∃ t, engineTurn s = .next t ∧ DoneWithin s.pixels s.chans s.err t := by
  have hout : (pendingRun s ++ endMarkerBytes).length = min 1 s.run.toNat + 8 := by
    rw [List.length_append, pendingRun_length, endMarkerBytes_length]
  have hq : s.q + (pendingRun s ++ endMarkerBytes).length ≤ s.dstCap.toNat := by
    have := h.written_le
    omega
  have hlower := h.lower
  have hupper := h.upper
  have hge := h.q_ge
  have hrun := h.run_le
  rw [hi] at hlower hupper
  refine ⟨_, engineTurn_finish_go h.phase h.stage (Nat.le_of_eq hi.symm) hq (noFault_inside h.writes hq), rfl, rfl, rfl,
    ?_, ?_⟩
  · rw [complete_outLen, toNat_ofNat_of_le hq, hout]
    omega
  · rw [complete_outLen, toNat_ofNat_of_le hq, hout]
    omega

/-- The rest of the loop takes one step for each pixel, and one for the end. -/
theorem Streaming.completes {s : State} (h : Streaming s) :
    ∃ t, core.run (s.pixels - s.i + 1) s = .next t ∧ DoneWithin s.pixels s.chans s.err t := by
  generalize hleft : s.pixels - s.i = left
  induction left generalizing s with
  | zero =>
    have hi : s.i = s.pixels := by have := h.i_le; omega
    obtain ⟨t, ht, hdone⟩ := h.finish hi
    have hstep : step s = .next t := (step_of_schedule_nil h.schedule).trans ht
    exact ⟨t, by rw [run_succ_of_step 0 hstep, run_zero], hdone⟩
  | succ left ih =>
    obtain ⟨u, hu, hstream, hi, herr, hpixels, hchans⟩ := h.pixel_step (by omega)
    have hstep : step s = .next u := (step_of_schedule_nil h.schedule).trans hu
    obtain ⟨t, hrun, hdone⟩ := ih hstream (by omega)
    rw [hpixels, hchans, herr] at hdone
    exact ⟨t, by rw [run_succ_of_step _ hstep, hrun], hdone⟩

/-! ### Before the loop -/

theorem engineTurn_encodeHeader_go {s : State} (hp : s.phase = .encoding) (hs : s.stage = .header)
    (hq : s.q + 14 ≤ s.dstCap.toNat) (hf : noFault s .write (s.dstAddr.toNat + s.q) 14) :
    engineTurn s = .next { afterEmit (encodeBytes (.header s.width s.height s.channels s.colorspace)) s with
      stage := .body } := by
  have hgo := emitList_go (encodeBytes (.header s.width s.height s.channels s.colorspace)) s hq hf
  rw [engineTurn_encoding hp, encodeTransition, hs]
  simp only
  rw [exec_header_encoding hp, emitHeader, hgo]
  rfl

/-- An ENCODE whose start checks have passed. -/
def afterChecks (s : State) : State := { freshOperation .encode s with stage := .header }

/-- The same once the header is written, whatever it left in memory. -/
def afterHeader (m : Memory) (s : State) : State :=
  { s with
    prev := opaqueBlack, table := Vector.replicate 64 zeroPixel, run := 0, i := 0, q := 14, stage := .body, mem := m }

theorem streaming_afterHeader {s : State} (hsched : s.schedule = []) (hp : s.phase = .encoding)
    (hcheck : encodeCheck s = .none) (hroom : 22 + s.pixels * (s.chans + 1) ≤ s.dstCap.toNat)
    (hreads : noFault s .read s.srcAddr.toNat s.srcLen.toNat)
    (hwrites : noFault s .write s.dstAddr.toNat s.dstCap.toNat) (m : Memory) : Streaming (afterHeader m s) := by
  obtain ⟨-, hgood, hlen⟩ := encodeCheck_eq_none hcheck
  exact
    { phase := hp, stage := rfl, schedule := hsched, good := hgood, srcLen := hlen, room := hroom, reads := hreads
      writes := hwrites, i_le := Nat.zero_le _, run_le := Nat.zero_le _, q_ge := Nat.le_refl 14
      lower := Nat.zero_le _, upper := Nat.le_add_right 14 _, alpha := fun _ => rfl }

end Sys2Proof.Machine
end

section
/-! The bounds of the stream's length, settled. -/

namespace Sys2Proof.Machine

open Sys2Proof

/-- Settles O49: the checks, the header, and then the pixel loop within its bounds. -/
theorem encodeCompletesWithinLengthBounds : Obligations.EncodeCompletesWithinLengthBounds := by
  intro s hsched hp hs hcheck hroom hreads hwrites
  have hchecks : step s = .next (afterChecks s) := by
    rw [step_of_schedule_nil hsched]
    rcases encodeStart_cases s hp hs with ⟨-, he⟩ | ⟨hne, -⟩
    · exact he
    · exact absurd hcheck hne
  obtain ⟨m, hheader⟩ : ∃ m, step (afterChecks s) = .next (afterHeader m s) := by
    rw [step_of_schedule_nil (by exact hsched)]
    exact ⟨_, engineTurn_encodeHeader_go hp rfl (show 0 + 14 ≤ s.dstCap.toNat by omega)
      (noFault_mono hwrites (by omega))⟩
  obtain ⟨t, hrun, hdone⟩ := (streaming_afterHeader hsched hp hcheck hroom hreads hwrites m).completes
  have hrun : core.run (s.pixels + 1) (afterHeader m s) = .next t := hrun
  obtain ⟨hidle, hflag, herr, hbounds⟩ := hdone
  exact ⟨t, by rw [run_succ_of_step _ hchecks, run_succ_of_step _ hheader, hrun], hidle, hflag, herr, hbounds⟩

end Sys2Proof.Machine
end

section
/-! The addresses of an operation fit the port and lie in their ranges (60_exceptions.md R208, 20_memory.md R51). -/

namespace Sys2Proof.Machine

open Sys2Proof

theorem src_address_fits {s : State} (hbuf : BuffersInv s) {off : Nat} (h : off < s.srcLen.toNat) :
    s.srcAddr.toNat + off < 2 ^ s.cfg.addrW ∧ s.inSrc (s.srcAddr.toNat + off) = true := by
  have hsize : ¬ sizeFails s = true := by rw [hbuf.1]; exact Bool.false_ne_true
  rw [sizeFails_iff] at hsize
  exact ⟨by omega, (inRange_eq_true_iff ..).2 ⟨by omega, by omega⟩⟩

theorem dst_address_fits {s : State} (hbuf : BuffersInv s) {off : Nat} (h : off < s.dstCap.toNat) :
    s.dstAddr.toNat + off < 2 ^ s.cfg.addrW ∧ s.inDst (s.dstAddr.toNat + off) = true := by
  have hsize : ¬ sizeFails s = true := by rw [hbuf.1]; exact Bool.false_ne_true
  rw [sizeFails_iff] at hsize
  exact ⟨by omega, (inRange_eq_true_iff ..).2 ⟨by omega, by omega⟩⟩

/-- Byte `j` of pixel `i` stands inside an image that holds pixel `i`. -/
theorem pixel_byte_lt {i pixels c j : Nat} (hi : i < pixels) (hj : j < c) : i * c + j < pixels * c := by
  have := pixel_end_le (c := c) (k := 1) (show i + 1 ≤ pixels from hi)
  omega

end Sys2Proof.Machine
end

section
/-! A turn of the engine in two states that differ only outside the buffers (10_state.md R43, 70_reset_and_hazards.md
R235). -/

namespace Sys2Proof.Machine

open Sys2Proof

section

variable {m₀ m₀' m : Memory} {c : Config} {s : State}

/-! ### ENCODE -/

theorem encodeCheck_alike (h : Alike m₀ m₀' c s m) : encodeCheck (s.elsewhere m c) = encodeCheck s := by
  simp only [encodeCheck, h.sizeFails]
  rfl

theorem flushRun_go_phase {u : State} (h : flushRun s = .go u) : u.phase = s.phase := by
  rcases flushRun_cases s with ⟨-, -, he⟩ | ⟨code, -, he⟩ <;> cases he.symm.trans h
  rfl

/-- The pending run, and then one and the same stream instruction. -/
theorem flushThen_alike (h : Alike m₀ m₀' c s m) (hp : s.phase = .encoding) {f : State → Instr}
    (hsame : ∀ u m', f (State.elsewhere u m' c) = f u) (hstream : ∀ u, (f u).isChunk = true ∨ f u = .endMarker) :
    TurnAlike m₀ m₀' c (flushThen f s) (flushThen f (s.elsewhere m c)) := by
  obtain ⟨u, m', ha, ⟨hx, hy⟩ | ⟨hx, hy⟩⟩ := h.flushRun
  · have hexec := ha.exec_encoding ((flushRun_go_phase hx).trans hp) (i := f u) ((hstream u).imp_right .inr)
    rw [flushThen, flushThen, hx, hy]
    simp only [hsame]
    exact hexec
  · rw [flushThen, flushThen, hx, hy]
    exact TurnAlike.next ha

theorem isChunk_of_isPixelChunk {i : Instr} (h : i.isPixelChunk = true) : i.isChunk = true := by
  cases i <;> first | rfl | cases h

theorem countRepeat_alike (h : Alike m₀ m₀' c s m) (hp : s.phase = .encoding) :
    TurnAlike m₀ m₀' c (countRepeat s) (countRepeat (s.elsewhere m c)) := by
  have hcounted : Alike m₀ m₀' c { s with run := s.run + 1 } m := h.of_frame rfl rfl rfl rfl
  have hcap : (s.elsewhere m c).run + 1 = 62 ↔ s.run + 1 = 62 := Iff.rfl
  unfold countRepeat
  by_cases h62 : s.run + 1 = 62
  · rw [if_pos h62, if_pos (hcap.2 h62)]
    exact hcounted.exec_encoding hp (.inl rfl)
  · rw [if_neg h62, if_neg (mt hcap.1 h62)]
    exact TurnAlike.next hcounted

theorem encodePixel_alike (h : Alike m₀ m₀' c s m) (hp : s.phase = .encoding) :
    TurnAlike m₀ m₀' c (encodePixel s) (encodePixel (s.elsewhere m c)) := by
  by_cases hrep : s.px = s.prev
  · rw [encodePixel, encodePixel, if_pos hrep, if_pos (by exact hrep)]
    exact countRepeat_alike h hp
  · rw [encodePixel_eq_flushThen hrep, encodePixel_eq_flushThen (s := s.elsewhere m c) hrep]
    exact flushThen_alike h hp (fun _ _ => rfl) fun u => .inl (isChunk_of_isPixelChunk (classify_isPixelChunk ..))

theorem encode_turn_alike (h : Alike m₀ m₀' c s m) (hinv : OperationInv s) (hp : s.phase = .encoding) :
    TurnAlike m₀ m₀' c (engineTurn s) (engineTurn (s.elsewhere m c)) := by
  obtain ⟨-, hlate⟩ := hinv.1 hp
  cases hs : s.stage with
  | start =>
    have hcheck := encodeCheck_alike h
    rcases encodeStart_cases s hp hs with ⟨h0, he⟩ | ⟨h0, he⟩ <;>
      rcases encodeStart_cases (s.elsewhere m c) hp hs with ⟨h0', he'⟩ | ⟨h0', he'⟩
    · rw [he, he']
      exact TurnAlike.next (h.of_frame (u := { freshOperation .encode s with stage := .header }) rfl rfl rfl rfl)
    · exact absurd (hcheck.trans h0) h0'
    · exact absurd (hcheck.symm.trans h0') h0
    · rw [he, he', hcheck]
      exact TurnAlike.next (h.raise (encodeCheck s))
  | header =>
    have hturn : ∀ u : State, u.phase = .encoding → u.stage = .header →
        engineTurn u = exec (.header u.width u.height u.channels u.colorspace) u := fun u hup hus => by
      rw [engineTurn_encoding hup, encodeTransition, hus]
    rw [hturn s hp hs, hturn (s.elsewhere m c) hp hs]
    exact h.exec_encoding hp (.inr (.inl ⟨_, _, _, _, rfl⟩))
  | body =>
    obtain ⟨-, hgood, hlen, -⟩ := hlate (by rw [hs]; decide)
    by_cases hi : s.i < s.pixels
    · have hread := h.readPixel hgood hi hlen
      rw [engineTurn_encoderStep hp hs hi, engineTurn_encoderStep (s := s.elsewhere m c) hp hs hi]
      cases hr : readPixel s with
      | none =>
        rw [encoderStep_none hr, encoderStep_none (hread.trans hr)]
        exact TurnAlike.next (h.raise .busError)
      | some P =>
        rw [encoderStep_some hr, encoderStep_some (hread.trans hr)]
        exact encodePixel_alike (h.of_frame (u := { s with px := P, i := s.i + 1 }) rfl rfl rfl rfl) hp
    · have hge := Nat.not_lt.1 hi
      rw [engineTurn_finishEncode hp hs hge, engineTurn_finishEncode (s := s.elsewhere m c) hp hs hge]
      exact flushThen_alike h hp (fun _ _ => rfl) fun _ => .inr rfl

/-! ### DECODE -/

theorem decodeCheck_alike (h : Alike m₀ m₀' c s m) : decodeCheck (s.elsewhere m c) = decodeCheck s := by
  simp only [decodeCheck, h.sizeFails]
  rfl

/-- The header's fourteen bytes are source bytes. -/
theorem fetchHeader_alike (h : Alike m₀ m₀' c s m) (hlen : 22 ≤ s.srcLen.toNat) :
    fetchHeader (s.elsewhere m c) = fetchHeader s := by
  have hsrc : (s.elsewhere m c).srcAddr = s.srcAddr := rfl
  have h4 := h.memReadList 4 (a := s.srcAddr.toNat) fun j hj => (inRange_eq_true_iff ..).2 ⟨by omega, by omega⟩
  have h10 := h.memReadList 10 (a := s.srcAddr.toNat + 4) fun j hj =>
    (inRange_eq_true_iff ..).2 ⟨by omega, by omega⟩
  simp only [fetchHeader, hsrc, h4, h10]

/-- A chunk that does not reach past `end` is made of source bytes; one that does is not read beyond its first. -/
theorem fetchChunk_alike (h : Alike m₀ m₀' c s m) (hlt : s.p < s.endOff) (hend : s.endOff ≤ s.srcLen.toNat) :
    fetchChunk (s.elsewhere m c) = fetchChunk s := by
  have hsrc : (s.elsewhere m c).srcAddr = s.srcAddr := rfl
  have hregs : (s.elsewhere m c).p = s.p ∧ (s.elsewhere m c).endOff = s.endOff := ⟨rfl, rfl⟩
  have hfirst := h.memRead (a := s.srcAddr.toNat + s.p) ((inRange_eq_true_iff ..).2 ⟨by omega, by omega⟩)
  simp only [fetchChunk, hsrc, hregs.1, hregs.2, hfirst]
  cases memRead s (s.srcAddr.toNat + s.p) with
  | none => rfl
  | some b0 =>
    simp only
    split
    · rfl
    · rename_i htrunc
      rw [h.memReadList (chunkLength b0 - 1) fun j hj => (inRange_eq_true_iff ..).2 ⟨by omega, by omega⟩]

theorem fetchEnd_alike (h : Alike m₀ m₀' c s m) (hend : s.endOff + 8 ≤ s.srcLen.toNat) :
    fetchEnd (s.elsewhere m c) = fetchEnd s := by
  have hregs : (s.elsewhere m c).srcAddr = s.srcAddr ∧ (s.elsewhere m c).endOff = s.endOff ∧
      (s.elsewhere m c).n = s.n ∧ (s.elsewhere m c).pixels = s.pixels := ⟨rfl, rfl, rfl, rfl⟩
  obtain ⟨hsrc, hendOff, hn, hpixels⟩ := hregs
  have hbytes := h.checkMarkerBytes endMarkerBytes (a := s.srcAddr.toNat + s.endOff) fun j hj =>
    (inRange_eq_true_iff ..).2 ⟨by omega, by rw [endMarkerBytes_length] at hj; omega⟩
  simp only [fetchEnd, fetchMarker, hsrc, hendOff, hn, hpixels, hbytes]

theorem decodeHeaderFields_alike (h : Alike m₀ m₀' c s m) (w ht : Word) (ch cs : Byte) :
    FlowAlike m₀ m₀' c (decodeHeaderFields w ht ch cs s) (decodeHeaderFields w ht ch cs (s.elsewhere m c)) := by
  have hlatch : Alike m₀ m₀' c (latchHeader w ht ch cs s) m := h.of_frame rfl rfl rfl rfl
  rcases decodeHeaderFields_cases w ht ch cs s with ⟨hbad, he⟩ | ⟨hgood, hlt, he⟩ | ⟨hgood, hfits, he⟩
  · obtain ⟨h3, h4⟩ := (goodChannels_not_iff ch).1 (by rw [hbad]; rfl)
    rw [he, decodeHeaderFields_badChannels h3 h4]
    exact FlowAlike.raise hlatch .badChannels
  · rw [he, decodeHeaderFields_overflow (s := s.elsewhere m c) cs hgood hlt]
    exact FlowAlike.raise hlatch .dstOverflow
  · rw [he, decodeHeaderFields_fits (s := s.elsewhere m c) cs hgood hfits]
    exact FlowAlike.go (hlatch.of_frame (u := enterChunkLoop (latchHeader w ht ch cs s)) rfl rfl rfl rfl)

theorem exec_header_alike (h : Alike m₀ m₀' c s m) (hp : s.phase = .decoding) (w ht : Word) (ch cs : Byte) :
    TurnAlike m₀ m₀' c (exec (.header w ht ch cs) s) (exec (.header w ht ch cs) (s.elsewhere m c)) := by
  rw [exec_header_decoding hp, exec_header_decoding (s := s.elsewhere m c) hp]
  exact (decodeHeaderFields_alike h w ht ch cs).outcome

theorem decode_turn_alike (h : Alike m₀ m₀' c s m) (hinv : OperationInv s) (hp : s.phase = .decoding) :
    TurnAlike m₀ m₀' c (engineTurn s) (engineTurn (s.elsewhere m c)) := by
  obtain ⟨-, hlate, hloop⟩ := hinv.2 hp
  cases hs : s.stage with
  | start =>
    have hcheck := decodeCheck_alike h
    rcases decodeStart_cases s hp hs with ⟨h0, he⟩ | ⟨h0, he⟩ <;>
      rcases decodeStart_cases (s.elsewhere m c) hp hs with ⟨h0', he'⟩ | ⟨h0', he'⟩
    · rw [he, he']
      exact TurnAlike.next (h.of_frame (u := { s with stage := .header }) rfl rfl rfl rfl)
    · exact absurd (hcheck.trans h0) h0'
    · exact absurd (hcheck.symm.trans h0') h0
    · rw [he, he', hcheck]
      exact TurnAlike.next (h.raise (decodeCheck s))
  | header =>
    obtain ⟨-, hlen⟩ := hlate (by rw [hs]; decide)
    rw [engineTurn_header hp hs, engineTurn_header (s := s.elsewhere m c) hp hs, fetchHeader_alike h hlen]
    rcases fetchHeader_cases s with ⟨w, ht, ch, cs, hok, -, -⟩ | ⟨code, -, herr⟩
    · rw [hok]
      exact exec_header_alike h hp w ht ch cs
    · rw [herr]
      exact TurnAlike.next (h.raise code)
  | body =>
    obtain ⟨-, hlen⟩ := hlate (by rw [hs]; decide)
    obtain ⟨hgood, hcap, hend, -⟩ := hloop hs
    by_cases hlt : s.p < s.endOff
    · rw [engineTurn_chunk hp hs hlt, engineTurn_chunk (s := s.elsewhere m c) hp hs hlt,
        fetchChunk_alike h hlt (by omega)]
      rcases fetchChunk_cases s hlt with ⟨i, hok, hc, -⟩ | ⟨code, -, herr⟩
      · rw [hok]
        exact h.exec_chunk_decoding hp hc hgood hcap
      · rw [herr]
        exact TurnAlike.next (h.raise code)
    · have hge := Nat.not_lt.1 hlt
      rw [engineTurn_end hp hs hge, engineTurn_end (s := s.elsewhere m c) hp hs hge, fetchEnd_alike h (by omega)]
      rcases fetchEnd_cases s with ⟨hok, -⟩ | ⟨code, -, herr⟩
      · rw [hok, runFetched, runFetched, exec_endMarker_decoding hp,
          exec_endMarker_decoding (s := s.elsewhere m c) hp]
        exact TurnAlike.next (h.of_frame (u := complete (s.pixels * s.chans) s) rfl rfl rfl rfl)
      · rw [herr]
        exact TurnAlike.next (h.raise code)

/-- A turn of the engine does one and the same in states that are alike. -/
theorem engineTurn_alike (h : Alike m₀ m₀' c s m) (hinv : OperationInv s) :
    TurnAlike m₀ m₀' c (engineTurn s) (engineTurn (s.elsewhere m c)) := by
  cases hp : s.phase with
  | idle =>
    rw [engineTurn_idle hp, engineTurn_idle (s := s.elsewhere m c) hp]
    exact TurnAlike.next h
  | encoding => exact encode_turn_alike h hinv hp
  | decoding => exact decode_turn_alike h hinv hp

end

/-- What `SameBuffers` says of two states is that they are alike, with their own memories as the ones before. -/
theorem alike_of_sameBuffers {s t : State} (h : SameBuffers s t) :
    t = s.elsewhere t.mem t.cfg ∧ Alike s.mem t.mem t.cfg s t.mem := by
  obtain ⟨he, hwf, hwf', hsrc, hdst⟩ := h
  have hcfg : t.cfg = { s.cfg with faults := t.cfg.faults } := congrArg State.cfg he
  refine ⟨he.trans ?_,
    { cfg := hcfg, wf := hwf, wf' := hwf', src := fun a ha => (hsrc a ha).1, reads := fun a ha => (hsrc a ha).2
      writes := hdst, same := fun a => .inr ⟨rfl, rfl⟩ }⟩
  rw [State.elsewhere, ← hcfg]

theorem sameBuffers_of_alike {m₀ m₀' m : Memory} {c : Config} {s : State} (h : Alike m₀ m₀' c s m) :
    SameBuffers s (s.elsewhere m c) := by
  refine ⟨?_, h.wf, h.wf', fun a ha => ⟨h.src a ha, h.reads a ha⟩, h.writes⟩
  have hcfg := h.cfg
  show State.elsewhere s m c = State.elsewhere s m { s.cfg with faults := c.faults }
  rw [← hcfg]

end Sys2Proof.Machine
end

section
/-! The addresses and the accesses of the engine, settled. -/

namespace Sys2Proof.Machine

open Sys2Proof

/-- Settles O46: offsets inside the buffers give addresses that fit, and a turn of the engine does the same in states
that are alike. -/
theorem engineAddressesFitThePort : Obligations.EngineAddressesFitThePort := by
  refine ⟨fun s hinv hs => ?addresses, fun s t hinv hsame => ?accesses⟩
  case addresses =>
    refine ⟨fun hp hi j hj => ?_, fun hp q hq => ?_, fun hp j hj => ?_, fun hp hb j hj => ?_, fun hp hb j hj => ?_,
      fun hp hb n hn j hj => ?_⟩
    · obtain ⟨-, hlate⟩ := hinv.1 hp
      obtain ⟨hbuf, -, hlen, -⟩ := hlate hs
      rw [Nat.add_assoc]
      exact src_address_fits hbuf (by rw [hlen]; exact pixel_byte_lt hi hj)
    · obtain ⟨-, hlate⟩ := hinv.1 hp
      exact dst_address_fits (hlate hs).1 hq
    · obtain ⟨-, hlate, -⟩ := hinv.2 hp
      obtain ⟨hbuf, hlen⟩ := hlate hs
      exact src_address_fits hbuf (by omega)
    · obtain ⟨-, hlate, hloop⟩ := hinv.2 hp
      obtain ⟨hbuf, hlen⟩ := hlate hs
      obtain ⟨-, -, hend, -⟩ := hloop hb
      rw [Nat.add_assoc]
      exact src_address_fits hbuf (by omega)
    · obtain ⟨-, hlate, hloop⟩ := hinv.2 hp
      obtain ⟨hbuf, hlen⟩ := hlate hs
      obtain ⟨-, -, hend, -⟩ := hloop hb
      rw [Nat.add_assoc]
      exact src_address_fits hbuf (by omega)
    · obtain ⟨-, hlate, hloop⟩ := hinv.2 hp
      obtain ⟨hbuf, -⟩ := hlate hs
      obtain ⟨-, hcap, -⟩ := hloop hb
      rw [Nat.add_assoc]
      exact dst_address_fits hbuf (Nat.lt_of_lt_of_le (pixel_byte_lt hn hj) hcap)
  case accesses =>
    obtain ⟨ht, halike⟩ := alike_of_sameBuffers hsame
    obtain ⟨u, m, hu, hturn, hturn'⟩ := engineTurn_alike halike hinv
    rw [← ht] at hturn'
    obtain ⟨hcfg, -⟩ := engineTurn_frame hturn
    exact ⟨u, u.elsewhere m t.cfg, hturn, hturn', ⟨hcfg, rfl, hu.same⟩, sameBuffers_of_alike hu⟩

end Sys2Proof.Machine
end

section
/-! The host's turns: the register words bit by bit, what a register write does while BUSY, and what a turn reads and
writes of the state the host never reaches (10_state.md R30 to R38 and R48). -/

namespace Sys2Proof.Machine

open Sys2Proof

/-! ### Register words, bit by bit -/

theorem statusWord_getLsbD (s : State) (k : Nat) :
    (statusWord s).getLsbD k =
      match k with
      | 0 => s.busy
      | 1 => s.done
      | 2 => s.err
      | 3 => s.alpha3
      | k + 4 => (0#20 ++ s.errcode.code ++ 0#4).getLsbD k := by
  simp only [statusWord, BitVec.getLsbD_append]
  rcases k with _ | _ | _ | _ | k <;> simp

theorem ctrlWord_getLsbD (s : State) (k : Nat) :
    (ctrlWord s).getLsbD k = ((decide (k = 1) && decide (s.mode = .decode)) || (decide (k = 2) && s.ie)) := by
  simp only [ctrlWord, BitVec.getLsbD_append]
  rcases k with _ | _ | _ | k <;> simp

/-- The four reserved bits of STATUS above ALPHA3. -/
theorem statusWord_extractLsb'_reservedLow (s : State) : (statusWord s).extractLsb' 4 4 = 0 := by
  rw [statusWord]
  iterate 4 rw [BitVec.extractLsb'_append_eq_of_le (by decide)]
  exact BitVec.extractLsb'_append_eq_right

/-- The reserved bits of STATUS above ERRCODE. -/
theorem statusWord_extractLsb'_reservedHigh (s : State) : (statusWord s).extractLsb' 12 20 = 0 := by
  rw [statusWord]
  iterate 6 rw [BitVec.extractLsb'_append_eq_of_le (by decide)]
  rfl

theorem loWord_getLsbD (x : Long) {k : Nat} (hk : k < 32) : (loWord x).getLsbD k = x.getLsbD k := by
  rw [loWord, BitVec.getLsbD_extractLsb', Nat.zero_add, decide_eq_true hk, Bool.true_and]

theorem hiWord_getLsbD (x : Long) {k : Nat} (hk : k < 32) : (hiWord x).getLsbD k = x.getLsbD (k + 32) := by
  rw [hiWord, BitVec.getLsbD_extractLsb', Nat.add_comm 32, decide_eq_true hk, Bool.true_and]

/-- An address pair written low, then high: each word keeps its implemented bits. -/
theorem address_pair_getLsbD (c : Config) (x : Long) (v w : Word) {k : Nat} (hk : k < 32) :
    (loWord (implemented c (withHi (implemented c (withLo x v)) w))).getLsbD k =
        (decide (k < c.addrW) && v.getLsbD k) ∧
      (hiWord (implemented c (withHi (implemented c (withLo x v)) w))).getLsbD k =
        (decide (k + 32 < c.addrW) && w.getLsbD k) := by
  constructor
  · rw [loWord_getLsbD _ hk, implemented_getLsbD, withHi_getLsbD, if_pos hk, implemented_getLsbD, withLo_getLsbD,
      if_pos hk, ← Bool.and_assoc, Bool.and_self]
  · rw [hiWord_getLsbD _ hk, implemented_getLsbD, withHi_getLsbD, if_neg (by omega), Nat.add_sub_cancel]

/-! ### The words read back after a write -/

/-- CTRL reads back MODE and IE as stored. -/
theorem ctrlWord_storeCtrl {s : State} (hb : s.busy = false) (v : Word) :
    ctrlWord (storeCtrl v s) = v &&& 0x00000006#32 := by
  have hmode : decide ((storeCtrl v s).mode = .decode) = v.getLsbD 1 := by
    simp only [storeCtrl, hb, Bool.false_eq_true, if_false]
    cases v.getLsbD 1 <;> rfl
  refine BitVec.eq_of_getLsbD_eq fun k hk => ?_
  rw [ctrlWord_getLsbD, hmode, show (storeCtrl v s).ie = v.getLsbD 2 from rfl, BitVec.getLsbD_and]
  have hmask : (0x00000006#32).getLsbD k = (decide (k = 1) || decide (k = 2)) := by
    revert hk
    revert k
    decide
  rw [hmask]
  by_cases h1 : k = 1
  · subst h1
    simp
  · by_cases h2 : k = 2
    · subst h2
      simp
    · simp [h1, h2]

/-- FORMAT reads back the two fields it has. -/
theorem formatWord_fields (v : Word) :
    0#16 ++ v.extractLsb' 8 8 ++ v.extractLsb' 0 8 = v &&& 0x0000FFFF#32 := by
  refine BitVec.eq_of_getLsbD_eq fun k hk => ?_
  have hmask : (0x0000FFFF#32).getLsbD k = decide (k < 16) := by
    revert hk
    revert k
    decide
  rw [BitVec.getLsbD_and, hmask, BitVec.getLsbD_append, BitVec.getLsbD_append, BitVec.getLsbD_extractLsb',
    BitVec.getLsbD_extractLsb', BitVec.getLsbD_zero]
  by_cases h8 : k < 8
  · simp [h8, show k < 16 by omega]
  · by_cases h16 : k < 16
    · simp [h8, h16, show k - 8 < 8 by omega, show 8 + (k - 8) = k by omega]
    · simp [h8, h16, show ¬ k - 8 < 8 by omega]

/-! ### Register writes by offset -/

theorem regAt_eq_ctrl_iff (offset : BitVec 8) : regAt offset = .ctrl ↔ offset = 0 := by
  revert offset
  decide

theorem regAt_eq_status_iff (offset : BitVec 8) : regAt offset = .status ↔ offset = 4 := by
  revert offset
  decide

/-- While BUSY a write of a register other than CTRL and STATUS does nothing. -/
theorem writeReg_of_busy {r : Reg} {s : State} (hc : r ≠ .ctrl) (hs : r ≠ .status) (hb : s.busy = true) (v : Word) :
    writeReg r v s = s := by
  cases r with
  | ctrl => exact absurd rfl hc
  | status => exact absurd rfl hs
  | outLenLo | outLenHi | reserved => rfl
  | _ => exact if_pos hb

/-- While BUSY a write of CTRL stores IE alone, with START or without. -/
theorem writeCtrl_of_busy {s : State} (hb : s.busy = true) (v : Word) :
    writeCtrl v s = .next { s with ie := v.getLsbD 2 } := by
  cases hv : v.getLsbD 0 with
  | false => rw [writeCtrl_of_start_clear hv, storeCtrl, if_pos hb]
  | true => rw [writeCtrl_of_start_set hv, startOperation_of_busy hb]

theorem hostTurn_writeReg_status (v : Word) (s : State) :
    hostTurn (.writeReg 4 4 v) s = .next (clearStatus v s) := rfl

/-- A register write by its register: CTRL as a command or a store, another as `writeReg` says. -/
theorem hostTurn_writeReg_cases {offset : BitVec 8} {bytes : Nat} {v : Word} {s t : State}
    (h : hostTurn (.writeReg offset bytes v) s = .next t) :
    (offset = 0 ∧ writeCtrl v s = .next t) ∨ (offset ≠ 0 ∧ t = writeReg (regAt offset) v s) := by
  by_cases ha : alignedWord offset bytes = true
  · obtain ⟨rfl, -⟩ := (alignedWord_eq_true_iff offset bytes).1 ha
    by_cases h0 : offset = 0
    · subst h0
      exact .inl ⟨rfl, h⟩
    · have hw := regWrites_of rfl (mt (regAt_eq_ctrl_iff offset).1 h0) ha v s
      exact .inr ⟨h0, Host.Outcome.next.inj (h.symm.trans hw)⟩
  · cases (if_neg ha).symm.trans h

/-- `offset` is the aligned offset of a register other than CTRL and STATUS. -/
abbrev ConfigAt (offset : BitVec 8) (r : Reg) : Prop :=
  regAt offset = r ∧ alignedWord offset 4 = true ∧ r ≠ .ctrl ∧ r ≠ .status

theorem ConfigAt.writes {offset : BitVec 8} {r : Reg} (h : ConfigAt offset r) {s : State} (hb : s.busy = false)
    (v : Word) : regWrites s offset v (writeConfig r v s) := by
  obtain ⟨hr, ha, hc, hs⟩ := h
  exact regWrites_config hr hc hs ha v hb

theorem ConfigAt.reads {offset : BitVec 8} {r : Reg} (h : ConfigAt offset r) (s : State) :
    regReads s offset (readReg r s) := by
  obtain ⟨hr, ha, -, -⟩ := h
  exact regReads_of hr ha rfl

theorem ConfigAt.reads_back {offset : BitVec 8} {r : Reg} (h : ConfigAt offset r) {s : State} (hb : s.busy = false)
    (v : Word) :
    regWrites s offset v (writeConfig r v s) ∧ regReads (writeConfig r v s) offset (readReg r (writeConfig r v s)) :=
  ⟨h.writes hb v, h.reads _⟩

theorem writeConfig_busy (r : Reg) (v : Word) (s : State) : (writeConfig r v s).busy = s.busy := by
  obtain ⟨w, ht, c, cs, sa, sl, da, dc, he, -, -⟩ := writeConfig_frame r v s
  rw [he]
  rfl

/-- The two words of a pair, written one after the other and read back. -/
theorem ConfigAt.pair_reads_back {lo hi : BitVec 8} {rl rh : Reg} (hl : ConfigAt lo rl) (hh : ConfigAt hi rh)
    {s : State} (hb : s.busy = false) {v w a b : Word}
    (ha : readReg rl (writeConfig rh w (writeConfig rl v s)) = a)
    (hb' : readReg rh (writeConfig rh w (writeConfig rl v s)) = b) :
    regWrites s lo v (writeConfig rl v s) ∧
      regWrites (writeConfig rl v s) hi w (writeConfig rh w (writeConfig rl v s)) ∧
      regReads (writeConfig rh w (writeConfig rl v s)) lo a ∧
      regReads (writeConfig rh w (writeConfig rl v s)) hi b :=
  ⟨hl.writes hb v, hh.writes ((writeConfig_busy rl v s).trans hb) w, ha ▸ hl.reads _, hb' ▸ hh.reads _⟩

/-! ### The state the host never reaches -/

theorem internalAgree_refl (s : State) : internalAgree s s :=
  ⟨rfl, rfl, rfl, rfl, rfl, rfl, rfl, rfl, rfl, rfl, rfl⟩

theorem internalAgree_writeReg (r : Reg) (v : Word) (s : State) : internalAgree (writeReg r v s) s := by
  rcases writeReg_cases r v s with he | he | ⟨-, he⟩ | he
  · rw [he]
    exact internalAgree_refl s
  · rw [he]
    exact internalAgree_refl s
  · obtain ⟨w, ht, c, cs, sa, sl, da, dc, hframe, -, -⟩ := writeConfig_frame r v s
    rw [he, hframe]
    exact internalAgree_refl s
  · rw [he]
    exact internalAgree_refl s

/-- A write of CTRL that starts nothing leaves the internal state. -/
theorem internalAgree_writeCtrl {v : Word} {s t : State} (hv : v.getLsbD 0 = false ∨ s.busy = true)
    (h : writeCtrl v s = .next t) : internalAgree t s := by
  rcases hv with hv | hb
  · cases (writeCtrl_of_start_clear hv s).symm.trans h
    exact internalAgree_refl s
  · cases (writeCtrl_of_busy hb v).symm.trans h
    exact internalAgree_refl s

/-- An access that starts no operation and is no reset leaves the internal state. -/
theorem internalAgree_hostTurn {act : HostAction} {s t : State} (hreset : act ≠ .reset)
    (hstart : ∀ bytes v, act = .writeReg 0 bytes v → v.getLsbD 0 = false ∨ s.busy = true)
    (h : hostTurn act s = .next t) : internalAgree t s := by
  cases act with
  | readReg offset bytes =>
    simp only [hostTurn] at h
    split at h <;> cases h
    exact internalAgree_refl s
  | writeReg offset bytes v =>
    rcases hostTurn_writeReg_cases h with ⟨rfl, hw⟩ | ⟨-, rfl⟩
    · exact internalAgree_writeCtrl (hstart bytes v rfl) hw
    · exact internalAgree_writeReg (regAt offset) v s
  | readMem a =>
    simp only [hostTurn] at h
    split at h
    · cases h
    · split at h <;> cases h
      exact internalAgree_refl s
  | writeMem a v =>
    simp only [hostTurn] at h
    split at h
    · cases h
    · split at h <;> cases h
      exact internalAgree_refl s
  | reset => exact absurd rfl hreset

/-! ### What the host can see -/

/-- `s` as the host sees it, over the internal state, the schedule and the free values of `i`. -/
def State.over (s i : State) : State :=
  { s with
    phase := i.phase, prev := i.prev, px := i.px, run := i.run, i := i.i, q := i.q, p := i.p, n := i.n
    endOff := i.endOff, table := i.table, stage := i.stage, schedule := i.schedule, freeCount := i.freeCount }

theorem hostAgree_over {s i : State} (hb : s.busy = i.busy) : hostAgree s (s.over i) :=
  ⟨rfl, rfl, rfl, rfl, rfl, rfl, rfl, rfl, rfl, rfl, rfl, rfl, rfl, rfl, rfl, rfl, hb, rfl, rfl⟩

/-- What the host sees is the whole state but the internal state, the schedule and the free values. -/
theorem eq_over_of_hostAgree {s s' : State} (h : hostAgree s s') : s' = s.over s' ∧ s.busy = s'.busy := by
  obtain ⟨hcfg, hmode, hie, hdone, herr, halpha, hcode, hw, hht, hc, hcs, hsa, hsl, hda, hdc, hout, hb, hm,
    hdata⟩ := h
  refine ⟨?_, hb⟩
  rw [State.over, hcfg, hmode, hie, hdone, herr, halpha, hcode, hw, hht, hc, hcs, hsa, hsl, hda, hdc, hout, hm, hdata]

section

variable {s i : State} (hb : s.busy = i.busy)

include hb

/-- A register reads alike: STATUS shows of the phase only BUSY. -/
theorem readReg_over (r : Reg) : readReg r (s.over i) = readReg r s := by
  cases r with
  | status =>
    have hbusy : (s.over i).busy = s.busy := hb.symm
    simp only [readReg, statusWord, hbusy]
    rfl
  | _ => rfl

theorem storeCtrl_over (v : Word) : storeCtrl v (s.over i) = (storeCtrl v s).over i := by
  have hbusy : (s.over i).busy = s.busy := hb.symm
  simp only [storeCtrl, hbusy]
  rfl

theorem hostAgree_writeReg (r : Reg) (v : Word) : hostAgree (writeReg r v s) (writeReg r v (s.over i)) := by
  have hbusy : (s.over i).busy = s.busy := hb.symm
  cases r with
  | ctrl =>
    rw [writeReg, writeReg, storeCtrl_over hb]
    exact hostAgree_over hb
  | status => exact hostAgree_over (s := clearStatus v s) hb
  | outLenLo | outLenHi | reserved => exact hostAgree_over hb
  | width | height | format | srcAddrLo | srcAddrHi | srcLenLo | srcLenHi | dstAddrLo | dstAddrHi | dstCapLo
  | dstCapHi =>
    simp only [writeReg, hbusy]
    split
    · exact hostAgree_over hb
    · exact hostAgree_over (s := writeConfig _ v s) hb

/-- A START begins an operation in both states or in neither. -/
theorem hostAgree_startOperation (m : Mode) (ie : Bool) :
    hostAgree (startOperation m ie s) (startOperation m ie (s.over i)) := by
  have hbusy : (s.over i).busy = s.busy := hb.symm
  cases h : s.busy with
  | true =>
    rw [startOperation_of_busy h, startOperation_of_busy (hbusy.trans h)]
    exact hostAgree_over (s := { s with ie := ie }) hb
  | false =>
    rw [startOperation_of_idle h, startOperation_of_idle (hbusy.trans h)]
    cases m <;>
      exact ⟨rfl, rfl, rfl, rfl, rfl, rfl, rfl, rfl, rfl, rfl, rfl, rfl, rfl, rfl, rfl, rfl, rfl, rfl, rfl⟩

theorem hostAgree_writeCtrl (v : Word) {t : State} (h : writeCtrl v s = .next t) :
    ∃ t', writeCtrl v (s.over i) = .next t' ∧ hostAgree t t' := by
  cases hv : v.getLsbD 0 with
  | false =>
    cases (writeCtrl_of_start_clear hv s).symm.trans h
    refine ⟨_, writeCtrl_of_start_clear hv _, ?_⟩
    rw [storeCtrl_over hb]
    exact hostAgree_over hb
  | true =>
    cases (writeCtrl_of_start_set hv s).symm.trans h
    exact ⟨_, writeCtrl_of_start_set hv _, hostAgree_startOperation hb _ _⟩

theorem forbidsRead_over (a : Nat) : (s.over i).forbidsRead a = s.forbidsRead a := by
  have hbusy : (s.over i).busy = s.busy := hb.symm
  rw [State.forbidsRead, hbusy]
  rfl

theorem forbidsWrite_over (a : Nat) : (s.over i).forbidsWrite a = s.forbidsWrite a := by
  have hbusy : (s.over i).busy = s.busy := hb.symm
  rw [State.forbidsWrite, hbusy]
  rfl

/-- What a host turn other than reset does depends on what the host sees alone. -/
theorem hostTurn_over {act : HostAction} {t : State} (h : hostTurn act s = .next t) (hreset : act ≠ .reset) :
    ∃ t', hostTurn act (s.over i) = .next t' ∧ hostAgree t t' := by
  cases act with
  | readReg offset bytes =>
    by_cases ha : alignedWord offset bytes = true
    · cases (if_pos ha).symm.trans h
      refine ⟨_, if_pos ha, ?_⟩
      rw [readReg_over hb]
      exact hostAgree_over (s := { s with hostData := readReg (regAt offset) s }) hb
    · cases (if_neg ha).symm.trans h
  | writeReg offset bytes v =>
    by_cases ha : alignedWord offset bytes = true
    · obtain ⟨rfl, -⟩ := (alignedWord_eq_true_iff offset bytes).1 ha
      rcases hostTurn_writeReg_cases h with ⟨rfl, hw⟩ | ⟨h0, rfl⟩
      · exact hostAgree_writeCtrl hb v hw
      · exact ⟨_, regWrites_of rfl (mt (regAt_eq_ctrl_iff offset).1 h0) ha v _,
          hostAgree_writeReg hb (regAt offset) v⟩
    · cases (if_neg ha).symm.trans h
  | readMem a =>
    have hforbids := forbidsRead_over hb a
    simp only [hostTurn] at h ⊢
    rw [hforbids]
    split at h
    · cases h
    · rename_i hin
      split at h <;> cases h
      rename_i hfree
      exact ⟨_, (if_neg hin).trans (if_neg hfree),
        hostAgree_over (s := { s with hostData := (s.mem.read a).setWidth 32 }) hb⟩
  | writeMem a v =>
    have hforbids := forbidsWrite_over hb a
    simp only [hostTurn] at h ⊢
    rw [hforbids]
    split at h
    · cases h
    · rename_i hin
      split at h <;> cases h
      rename_i hfree
      exact ⟨_, (if_neg hin).trans (if_neg hfree), hostAgree_over (s := { s with mem := s.mem.write a v }) hb⟩
  | reset => exact absurd rfl hreset

end

end Sys2Proof.Machine
end

section
/-! The host's turns, settled. -/

namespace Sys2Proof.Machine

open Sys2Proof

/-- Settles O52: by the kind of access; what the host sees fixes BUSY and every register. -/
theorem hostNeverReachesInternalState : Obligations.HostNeverReachesInternalState := by
  refine ⟨fun act s t hreset hstart h => internalAgree_hostTurn hreset hstart h,
    fun act s s' t hagree h hreset => ?_⟩
  obtain ⟨he, hb⟩ := eq_over_of_hostAgree hagree
  rw [he]
  exact hostTurn_over hb h hreset

/-- Settles O53: CTRL and STATUS by their own rules, every other register by the lock. -/
theorem configurationIsLockedWhileBusy : Obligations.ConfigurationIsLockedWhileBusy := by
  intro offset v s hb hal
  have ha := (alignedWord_eq_true_iff offset 4).2 ⟨rfl, hal⟩
  by_cases h0 : offset = 0
  · rw [if_pos h0, h0, hostTurn_writeReg_ctrl, writeCtrl_of_busy hb]
  · by_cases h4 : offset = 4
    · rw [if_neg h0, if_pos h4, h4]
      exact hostTurn_writeReg_status v s
    · have hc := mt (regAt_eq_ctrl_iff offset).1 h0
      have hs := mt (regAt_eq_status_iff offset).1 h4
      have hw := regWrites_of rfl hc ha v s
      rw [writeReg_of_busy hc hs hb] at hw
      rw [if_neg h0, if_neg h4]
      exact hw

/-- Settles O55: the flags are the bits 1, 2 and 3; BUSY and ERRCODE stay. -/
theorem statusIsWriteOneToClear : Obligations.StatusIsWriteOneToClear := by
  intro v s
  refine ⟨clearStatus v s, hostTurn_writeReg_status v s, rfl, fun k _ => ?_⟩
  rw [statusWord_getLsbD, statusWord_getLsbD]
  match k with
  | 0 =>
    have hbusy : (clearStatus v s).busy = s.busy := rfl
    simp [hbusy]
  | 1 | 2 | 3 => simp
  | k + 4 => simp

/-- Settles O54: reads by the register at the offset, writes by the configuration register, and bit by bit what comes
back. -/
theorem configurationReadsBack : Obligations.ConfigurationReadsBack := by
  refine ⟨fun s => ?reads, fun v s hb => ?writes, fun v w s hb => ?back⟩
  case reads =>
    exact ⟨⟨_, regReads_of (r := .ctrl) rfl rfl rfl, fun k _ => ctrlWord_getLsbD s k⟩,
      ⟨_, regReads_of (r := .status) rfl rfl rfl, statusWord_getLsbD s 0, statusWord_getLsbD s 1,
        statusWord_getLsbD s 2, statusWord_getLsbD s 3, statusWord_extractLsb'_reservedLow s,
        statusWord_extractLsb'_errcode s, statusWord_extractLsb'_reservedHigh s⟩,
      regReads_of (r := .width) rfl rfl rfl, regReads_of (r := .height) rfl rfl rfl,
      regReads_of (r := .format) rfl rfl rfl,
      ⟨regReads_of (r := .srcAddrLo) rfl rfl rfl, regReads_of (r := .srcAddrHi) rfl rfl rfl⟩,
      ⟨regReads_of (r := .srcLenLo) rfl rfl rfl, regReads_of (r := .srcLenHi) rfl rfl rfl⟩,
      ⟨regReads_of (r := .dstAddrLo) rfl rfl rfl, regReads_of (r := .dstAddrHi) rfl rfl rfl⟩,
      ⟨regReads_of (r := .dstCapLo) rfl rfl rfl, regReads_of (r := .dstCapHi) rfl rfl rfl⟩,
      regReads_of (r := .outLenLo) rfl rfl rfl, regReads_of (r := .outLenHi) rfl rfl rfl⟩
  case writes =>
    refine ⟨fun hv => ?_, ConfigAt.writes (r := .width) (by decide) hb v,
      ConfigAt.writes (r := .height) (by decide) hb v,
      ConfigAt.writes (r := .format) (by decide) hb v,
      ⟨_, ConfigAt.writes (r := .srcAddrLo) (by decide) hb v, fun k => by rw [implemented_getLsbD, withLo_getLsbD]⟩,
      ⟨_, ConfigAt.writes (r := .srcAddrHi) (by decide) hb v, fun k => by rw [implemented_getLsbD, withHi_getLsbD]⟩,
      ConfigAt.writes (r := .srcLenLo) (by decide) hb v, ConfigAt.writes (r := .srcLenHi) (by decide) hb v,
      ⟨_, ConfigAt.writes (r := .dstAddrLo) (by decide) hb v, fun k => by rw [implemented_getLsbD, withLo_getLsbD]⟩,
      ⟨_, ConfigAt.writes (r := .dstAddrHi) (by decide) hb v, fun k => by rw [implemented_getLsbD, withHi_getLsbD]⟩,
      ConfigAt.writes (r := .dstCapLo) (by decide) hb v, ConfigAt.writes (r := .dstCapHi) (by decide) hb v,
      ConfigAt.writes (r := .outLenLo) (by decide) hb v, ConfigAt.writes (r := .outLenHi) (by decide) hb v⟩
    rw [regWrites, hostTurn_writeReg_ctrl, writeCtrl_of_start_clear hv, storeCtrl, if_neg (by rw [hb]; decide)]
  case back =>
    refine ⟨fun hv => ⟨storeCtrl v s, writeCtrl_of_start_clear hv s, regReads_of rfl rfl (ctrlWord_storeCtrl hb v)⟩,
      ⟨_, ConfigAt.reads_back (r := .width) (by decide) hb v⟩,
      ⟨_, ConfigAt.reads_back (r := .height) (by decide) hb v⟩,
      ?format, ?srcAddr, ?srcLen, ?dstAddr, ?dstCap⟩
    case format =>
      rw [← formatWord_fields]
      exact ⟨_, ConfigAt.reads_back (r := .format) (by decide) hb v⟩
    case srcAddr =>
      obtain ⟨hw, hw', hr, hr'⟩ := ConfigAt.pair_reads_back (lo := 0x14) (hi := 0x18) (rl := .srcAddrLo)
        (rh := .srcAddrHi) (by decide) (by decide) hb rfl rfl
      exact ⟨_, _, _, _, hw, hw', hr, hr', fun k hk => address_pair_getLsbD s.cfg s.srcAddr v w hk⟩
    case srcLen =>
      exact ⟨_, _, ConfigAt.pair_reads_back (rl := .srcLenLo) (rh := .srcLenHi) (by decide) (by decide) hb
        (loWord_withHi_withLo s.srcLen v w) (hiWord_withHi _ w)⟩
    case dstAddr =>
      obtain ⟨hw, hw', hr, hr'⟩ := ConfigAt.pair_reads_back (lo := 0x24) (hi := 0x28) (rl := .dstAddrLo)
        (rh := .dstAddrHi) (by decide) (by decide) hb rfl rfl
      exact ⟨_, _, _, _, hw, hw', hr, hr', fun k hk => address_pair_getLsbD s.cfg s.dstAddr v w hk⟩
    case dstCap =>
      exact ⟨_, _, ConfigAt.pair_reads_back (rl := .dstCapLo) (rh := .dstCapHi) (by decide) (by decide) hb
        (loWord_withHi_withLo s.dstCap v w) (hiWord_withHi _ w)⟩

end Sys2Proof.Machine
end

section
/-! Host accesses to memory, the reset input, and a platform of several engines (10_state.md R42 and R46,
70_reset_and_hazards.md R230, R231 and R238, 60_exceptions.md R217). -/

namespace Sys2Proof.Machine

open Sys2Proof

/-! ### Memory accesses of the host -/

section

variable {a : Nat} {v : Byte} {s : State}

theorem hostTurn_outside_space (ha : 2 ^ s.cfg.addrW ≤ a) :
    hostTurn (.writeMem a v) s = .fault .noSuchAddress ∧ hostTurn (.readMem a) s = .fault .noSuchAddress :=
  ⟨if_pos ha, if_pos ha⟩

theorem hostTurn_writeMem (ha : a < 2 ^ s.cfg.addrW) :
    hostTurn (.writeMem a v) s =
      if s.forbidsWrite a then .refused .bufferInUse else .next { s with mem := s.mem.write a v } :=
  if_neg (Nat.not_le.2 ha)

theorem hostTurn_readMem (ha : a < 2 ^ s.cfg.addrW) :
    hostTurn (.readMem a) s =
      if s.forbidsRead a then .refused .bufferInUse else .next { s with hostData := (s.mem.read a).setWidth 32 } :=
  if_neg (Nat.not_le.2 ha)

theorem forbidsWrite_eq_true_iff :
    s.forbidsWrite a = true ↔ s.busy = true ∧ (s.inSrc a = true ∨ s.inDst a = true) := by
  rw [State.forbidsWrite, Bool.and_eq_true, Bool.or_eq_true]

theorem forbidsRead_eq_true_iff : s.forbidsRead a = true ↔ s.busy = true ∧ s.inDst a = true := by
  rw [State.forbidsRead, Bool.and_eq_true]

/-- One byte written is a list of one byte stored. -/
theorem Memory.stored_write (m : Memory) (a : Nat) (v : Byte) (hm : m.wf) : Stored (m.write a v) m a [v] :=
  Memory.stored_writeList [v] m a hm

end

/-! ### Reset -/

theorem scrambled_eq_false {s : State} {a : Nat} (h : s.inDst a = false ∨ s.inSrc a = true) :
    s.scrambled a = false := by
  rcases h with h | h <;> simp [State.scrambled, h]

/-- What reset leaves is the reset state over some memory, but for the model's own fields. -/
theorem hardReset_eq (s : State) :
    ∃ m free, hardReset s = { State.afterReset s.cfg m with
        schedule := s.schedule, hostData := s.hostData, freeCount := free } ∧
      (∀ a, s.inDst a = false ∨ s.inSrc a = true → m.read a = s.mem.read a) ∧ (s.busy = false → m = s.mem) := by
  cases hb : s.busy with
  | true =>
    exact ⟨_, _, if_pos hb, fun a ha => read_scramble_outside s _ _ a (scrambled_eq_false ha), fun h => by cases h⟩
  | false => exact ⟨_, _, if_neg (by rw [hb]; decide), fun _ _ => rfl, fun _ => rfl⟩

theorem formatWord_of_zero {s : State} (hc : s.channels = 0) (hcs : s.colorspace = 0) : formatWord s = 0 := by
  rw [formatWord, hc, hcs]
  rfl

theorem ctrlWord_of_clear {s : State} (hie : s.ie = false) (hm : s.mode = .encode) : ctrlWord s = 0 := by
  rw [ctrlWord, hie, hm]
  rfl

theorem statusWord_of_clear {s : State} (hp : s.phase = .idle) (hd : s.done = false) (he : s.err = false)
    (ha : s.alpha3 = false) (hc : s.errcode = .none) : statusWord s = 0 := by
  rw [statusWord, (busy_eq_false_iff s).2 hp, hd, he, ha, hc]
  rfl

/-! ### A platform of engines -/

/-- A step of one engine leaves the others in their places. -/
theorem stepAt_engines {P Q : Platform} {k : Nat} (h : P.stepAt k = .next Q) :
    Q.engines.length = P.engines.length ∧ ∀ j ≠ k, Q.engines[j]? = P.engines[j]? := by
  unfold Platform.stepAt at h
  split at h
  · cases h
    exact ⟨rfl, fun _ _ => rfl⟩
  · split at h
    · cases h
    · split at h <;> cases h
      exact ⟨List.length_set, fun j hj => List.getElem?_set_ne (Ne.symm hj)⟩

/-- The register blocks of a legal platform are aligned, and no two stand at one place. -/
theorem legal_blocks {P : Platform} (h : P.legal = true) :
    (∀ e ∈ P.engines, e.cfg.regBase % 256 = 0) ∧ (P.engines.map (·.cfg.regBase)).Nodup := by
  simp only [Platform.legal, Config.legal, Bool.and_eq_true, decide_eq_true_eq, List.all_eq_true] at h
  obtain ⟨⟨-, hlegal⟩, hnodup⟩ := h
  exact ⟨fun e he => (hlegal e he).2, hnodup⟩

/-- Aligned blocks that share an address are one block. -/
theorem regBase_eq_of_shared {b b' addr : Nat} (hb : b % 256 = 0) (hb' : b' % 256 = 0)
    (h : inRange b 256 addr = true) (h' : inRange b' 256 addr = true) : b = b' := by
  rw [inRange_eq_true_iff] at h h'
  omega

/-- On a legal platform an address lies in the block of one engine at most. -/
theorem engine_of_address {P : Platform} (h : P.legal = true) {j k addr : Nat} (hj : j < P.engines.length)
    (hk : k < P.engines.length) (haj : inRange P.engines[j].cfg.regBase 256 addr = true)
    (hak : inRange P.engines[k].cfg.regBase 256 addr = true) : j = k := by
  obtain ⟨halign, hnodup⟩ := legal_blocks h
  have hbase := regBase_eq_of_shared (halign _ (List.getElem_mem hj)) (halign _ (List.getElem_mem hk)) haj hak
  exact (hnodup.getElem_inj_iff (hi := by simpa using hj) (hj := by simpa using hk)).1 (by simpa using hbase)

theorem findIdx?_engine {P : Platform} (h : P.legal = true) {k addr : Nat} (hk : k < P.engines.length)
    (ha : inRange P.engines[k].cfg.regBase 256 addr = true) :
    P.engines.findIdx? (fun e => inRange e.cfg.regBase 256 addr) = some k := by
  refine List.findIdx?_eq_some_iff_getElem.2 ⟨hk, ha, fun j hjk hj => ?_⟩
  exact absurd (engine_of_address h (by omega) hk hj ha) (by omega)

theorem offset_of_address {b : Nat} (hb : b % 256 = 0) (offset : BitVec 8) :
    BitVec.ofNat 8 ((b + offset.toNat) % 256) = offset := by
  have hlt := offset.isLt
  refine BitVec.eq_of_toNat_eq ?_
  rw [BitVec.toNat_ofNat]
  omega

end Sys2Proof.Machine
end

section
/-! Host memory accesses, reset and platforms, settled. -/

namespace Sys2Proof.Machine

open Sys2Proof

/-- Settles O58: an access to a byte that exists is refused exactly where the buffers forbid it. -/
theorem hostMemoryAccesses : Obligations.HostMemoryAccesses := by
  refine fun a v s => ⟨hostTurn_outside_space, fun ha hb hin => ?_, fun ha hb hin => ?_, fun ha hwf hfree => ?_,
    fun ha hfree => ?_⟩
  · rw [hostTurn_writeMem ha, if_pos (forbidsWrite_eq_true_iff.2 ⟨hb, hin⟩)]
  · rw [hostTurn_readMem ha, if_pos (forbidsRead_eq_true_iff.2 ⟨hb, hin⟩)]
  · have hallowed : ¬ s.forbidsWrite a = true := by
      rw [forbidsWrite_eq_true_iff]
      rcases hfree with hb | ⟨hsrc, hdst⟩
      · simp [hb]
      · simp [hsrc, hdst]
    exact ⟨_, by rw [hostTurn_writeMem ha, if_neg hallowed], Memory.stored_write s.mem a v hwf⟩
  · have hallowed : ¬ s.forbidsRead a = true := by
      rw [forbidsRead_eq_true_iff]
      rcases hfree with h | h <;> simp [h]
    rw [hostTurn_readMem ha, if_neg hallowed]

/-- Settles O59: reset leaves the reset state over a memory that is changed in the destination alone. -/
theorem resetAbandonsTheOperation : Obligations.ResetAbandonsTheOperation := by
  intro s
  obtain ⟨m, free, he, hread, hidle⟩ := hardReset_eq s
  refine ⟨hardReset s, rfl, ?_⟩
  rw [he]
  exact ⟨rfl, rfl, rfl, rfl, statusWord_of_clear rfl rfl rfl rfl rfl, ctrlWord_of_clear rfl rfl, rfl, rfl,
    formatWord_of_zero rfl rfl, rfl, rfl, rfl, rfl, rfl, rfl, hread, hidle⟩

/-- Settles O60: a step sets one place of the list of engines; the blocks of a legal platform are disjoint. -/
theorem instancesShareNothing : Obligations.InstancesShareNothing := by
  refine ⟨fun P Q k h => stepAt_engines h, fun P k e offset hlegal he => ?_⟩
  obtain ⟨hk, rfl⟩ := List.getElem?_eq_some_iff.1 he
  obtain ⟨halign, -⟩ := legal_blocks hlegal
  have hin := (inRange_eq_true_iff P.engines[k].cfg.regBase 256 (P.engines[k].cfg.regBase + offset.toNat)).2
    ⟨by omega, by have := offset.isLt; omega⟩
  rw [Platform.route, findIdx?_engine hlegal hk hin]
  simp only [offset_of_address (halign _ (List.getElem_mem hk))]

end Sys2Proof.Machine
end

section
/-! What an operation does not use of the state the one before left: `px` and the decoder's cursors in ENCODE, `px`, the
run and the encoder's cursors in DECODE (70_reset_and_hazards.md R235).  A turn commutes with setting them. -/

namespace Sys2Proof.Machine

open Sys2Proof

/-! ### Operations that commute with a change of the state -/

/-- The operation so far, in the changed state. -/
def Flow.map (h : State → State) : Flow → Flow
  | .go s => .go (h s)
  | .stop s => .stop (h s)

/-- The second turn does in the changed state what the first does. -/
def UpTo (h : State → State) (x y : Host.Outcome State Fault Refusal) : Prop := ∃ t, x = .next t ∧ y = .next (h t)

theorem UpTo.next (h : State → State) (t : State) : UpTo h (.next t) (.next (h t)) := ⟨t, rfl, rfl⟩

section

variable {h : State → State}

theorem Flow.map_andThen {f g : State → Flow} (hfg : ∀ u, g (h u) = (f u).map h) (x : Flow) :
    (x.map h).andThen g = (x.andThen f).map h := by
  cases x with
  | go u => exact hfg u
  | stop u => rfl

theorem UpTo.of_map {x y : Flow} (he : y = x.map h) : UpTo h (.next x.state) (.next y.state) := by
  subst he
  cases x with
  | go u => exact UpTo.next h u
  | stop u => exact UpTo.next h u

end

/-- Reads depend on the platform and the memory alone. -/
theorem memReadList_congr {s t : State} (hc : t.cfg = s.cfg) (hm : t.mem = s.mem) (k a : Nat) :
    memReadList t a k = memReadList s a k := by
  induction k generalizing a with
  | zero => rfl
  | succ k ih => rw [memReadList, memReadList, ih, memRead, memRead, hc, hm]

theorem checkMarkerBytes_congr {s t : State} (hc : t.cfg = s.cfg) (hm : t.mem = s.mem) (bs : List Byte) (a : Nat) :
    checkMarkerBytes t a bs = checkMarkerBytes s a bs := by
  induction bs generalizing a with
  | nil => rfl
  | cons b bs ih => rw [checkMarkerBytes, checkMarkerBytes, ih, memRead, memRead, hc, hm]

/-! ### ENCODE -/

/-- The state with `px` changed by `f` and other values in the decoder's cursors. -/
def encodeLeftover (f : Pixel → Pixel) (p n endOff : Nat) (s : State) : State :=
  { s with px := f s.px, p := p, n := n, endOff := endOff }

section

variable {f : Pixel → Pixel} {p n endOff : Nat}

theorem emit_encodeLeftover (b : Byte) (s : State) :
    emit b (encodeLeftover f p n endOff s) = (emit b s).map (encodeLeftover f p n endOff) := by
  by_cases hq : s.dstCap.toNat ≤ s.q
  · rw [emit_overflow b s hq, emit_overflow b (encodeLeftover f p n endOff s) hq]
    rfl
  · have hlt := Nat.not_le.1 hq
    cases hf : portFault s.cfg .write (s.dstAddr.toNat + s.q) with
    | true =>
      rw [emit_fault b s hlt hf, emit_fault b (encodeLeftover f p n endOff s) hlt hf]
      rfl
    | false =>
      rw [emit_go b s hlt hf, emit_go b (encodeLeftover f p n endOff s) hlt hf]
      rfl

theorem emitList_encodeLeftover (bs : List Byte) (s : State) :
    emitList bs (encodeLeftover f p n endOff s) = (emitList bs s).map (encodeLeftover f p n endOff) := by
  induction bs generalizing s with
  | nil => rfl
  | cons b bs ih => rw [emitList, emitList, emit_encodeLeftover, Flow.map_andThen ih]

theorem emitHeader_encodeLeftover (w h : Word) (c cs : Byte) (s : State) :
    emitHeader w h c cs (encodeLeftover f p n endOff s) =
      (emitHeader w h c cs s).map (encodeLeftover f p n endOff) := by
  rw [emitHeader, emitHeader, emitList_encodeLeftover]
  exact Flow.map_andThen (fun _ => rfl) _

theorem emitRun_encodeLeftover (count : Nat) (s : State) :
    emitRun count (encodeLeftover f p n endOff s) = (emitRun count s).map (encodeLeftover f p n endOff) := by
  rw [emitRun, emitRun, emitList_encodeLeftover]
  exact Flow.map_andThen (fun _ => rfl) _

theorem emitEndMarker_encodeLeftover (s : State) :
    emitEndMarker (encodeLeftover f p n endOff s) = (emitEndMarker s).map (encodeLeftover f p n endOff) := by
  rw [emitEndMarker, emitEndMarker, emitList_encodeLeftover]
  exact Flow.map_andThen (fun _ => rfl) _

/-- UPDATE and the `prev` write take `px`, so it must be the same in both states. -/
theorem emitPixelChunk_encodeLeftover (i : Instr) (s : State) :
    emitPixelChunk i (encodeLeftover id p n endOff s) = (emitPixelChunk i s).map (encodeLeftover id p n endOff) := by
  rw [emitPixelChunk, emitPixelChunk, emitList_encodeLeftover]
  exact Flow.map_andThen (fun _ => rfl) _

theorem flushRun_encodeLeftover (s : State) :
    flushRun (encodeLeftover f p n endOff s) = (flushRun s).map (encodeLeftover f p n endOff) := by
  by_cases hr : s.run = 0
  · rw [flushRun, flushRun, if_pos hr, if_pos (by exact hr)]
    rfl
  · rw [flushRun, flushRun, if_neg hr, if_neg (by exact hr)]
    exact emitRun_encodeLeftover _ s

/-- The pending run, and then an instruction that commutes with the change. -/
theorem flushThen_encodeLeftover {k : State → Instr} {s : State} (hp : s.phase = .encoding)
    (hexec : ∀ u : State, u.phase = .encoding →
      UpTo (encodeLeftover f p n endOff) (exec (k u) u)
        (exec (k (encodeLeftover f p n endOff u)) (encodeLeftover f p n endOff u))) :
    UpTo (encodeLeftover f p n endOff) (flushThen k s) (flushThen k (encodeLeftover f p n endOff s)) := by
  rw [flushThen, flushThen, flushRun_encodeLeftover]
  cases hf : flushRun s with
  | go u => exact hexec u ((flushRun_go_phase hf).trans hp)
  | stop u => exact UpTo.next _ u

theorem exec_run_encodeLeftover {s : State} (hp : s.phase = .encoding) (count : Nat) :
    UpTo (encodeLeftover f p n endOff) (exec (.run count) s) (exec (.run count) (encodeLeftover f p n endOff s)) := by
  rw [exec_run_encoding hp, exec_run_encoding (s := encodeLeftover f p n endOff s) hp]
  exact UpTo.of_map (emitRun_encodeLeftover count s)

theorem countRepeat_encodeLeftover {s : State} (hp : s.phase = .encoding) :
    UpTo (encodeLeftover f p n endOff) (countRepeat s) (countRepeat (encodeLeftover f p n endOff s)) := by
  by_cases h62 : s.run + 1 = 62
  · rw [countRepeat, countRepeat, if_pos h62, if_pos (by exact h62)]
    exact exec_run_encodeLeftover (s := { s with run := s.run + 1 }) hp 62
  · rw [countRepeat, countRepeat, if_neg h62, if_neg (by exact h62)]
    exact UpTo.next (encodeLeftover f p n endOff) { s with run := s.run + 1 }

/-- From the pixel that has been read on, which is in `px` of both states. -/
theorem encodePixel_encodeLeftover {s : State} (hp : s.phase = .encoding) :
    UpTo (encodeLeftover id p n endOff) (encodePixel s) (encodePixel (encodeLeftover id p n endOff s)) := by
  by_cases hrep : s.px = s.prev
  · rw [encodePixel, encodePixel, if_pos hrep, if_pos (by exact hrep)]
    exact countRepeat_encodeLeftover hp
  · rw [encodePixel_eq_flushThen hrep, encodePixel_eq_flushThen (s := encodeLeftover id p n endOff s) hrep]
    refine flushThen_encodeLeftover hp fun u hu => ?_
    have hchunk : (chosenChunk u).isPixelChunk = true := classify_isPixelChunk ..
    have hsame : chosenChunk (encodeLeftover id p n endOff u) = chosenChunk u := rfl
    rw [hsame, exec_pixelChunk_encoding hchunk hu,
      exec_pixelChunk_encoding (s := encodeLeftover id p n endOff u) hchunk hu]
    exact UpTo.of_map (emitPixelChunk_encodeLeftover _ u)

theorem readPixel_encodeLeftover (s : State) : readPixel (encodeLeftover f p n endOff s) = readPixel s := by
  have hread : ∀ a k, memReadList (encodeLeftover f p n endOff s) a k = memReadList s a k :=
    fun a k => memReadList_congr (s := s) (t := encodeLeftover f p n endOff s) rfl rfl k a
  simp only [readPixel, readPixelAt, hread]
  rfl

/-- A turn of ENCODE; once a pixel has been read `px` is the same in both states. -/
theorem encode_turn_leftover {s : State} (hp : s.phase = .encoding) :
    ∃ g, UpTo (encodeLeftover g p n endOff) (engineTurn s) (engineTurn (encodeLeftover f p n endOff s)) := by
  cases hs : s.stage with
  | start =>
    have hcheck : encodeCheck (encodeLeftover f p n endOff s) = encodeCheck s := rfl
    refine ⟨f, ?_⟩
    rcases encodeStart_cases s hp hs with ⟨h0, he⟩ | ⟨h0, he⟩ <;>
      rcases encodeStart_cases (encodeLeftover f p n endOff s) hp hs with ⟨h0', he'⟩ | ⟨h0', he'⟩
    · rw [he, he']
      exact UpTo.next (encodeLeftover f p n endOff) { freshOperation .encode s with stage := .header }
    · exact absurd (hcheck.trans h0) h0'
    · exact absurd (hcheck.symm.trans h0') h0
    · rw [he, he', hcheck]
      exact UpTo.next (encodeLeftover f p n endOff) (raise (encodeCheck s) s)
  | header =>
    have hturn : ∀ u : State, u.phase = .encoding → u.stage = .header →
        engineTurn u = .next (emitHeader u.width u.height u.channels u.colorspace u).state := fun u hup hus => by
      rw [engineTurn_encoding hup, encodeTransition, hus]
      exact exec_header_encoding hup
    rw [hturn s hp hs, hturn (encodeLeftover f p n endOff s) hp hs]
    exact ⟨f, UpTo.of_map (emitHeader_encodeLeftover s.width s.height s.channels s.colorspace s)⟩
  | body =>
    by_cases hi : s.i < s.pixels
    · rw [engineTurn_encoderStep hp hs hi, engineTurn_encoderStep (s := encodeLeftover f p n endOff s) hp hs hi]
      have hread := readPixel_encodeLeftover (f := f) (p := p) (n := n) (endOff := endOff) s
      cases hr : readPixel s with
      | none =>
        rw [encoderStep_none hr, encoderStep_none (hread.trans hr)]
        exact ⟨f, UpTo.next (encodeLeftover f p n endOff) (raise .busError s)⟩
      | some P =>
        rw [encoderStep_some hr, encoderStep_some (hread.trans hr)]
        exact ⟨id, encodePixel_encodeLeftover (s := { s with px := P, i := s.i + 1 }) hp⟩
    · have hge := Nat.not_lt.1 hi
      rw [engineTurn_finishEncode hp hs hge,
        engineTurn_finishEncode (s := encodeLeftover f p n endOff s) hp hs hge]
      refine ⟨f, flushThen_encodeLeftover (k := fun _ => .endMarker) hp fun u hu => ?_⟩
      rw [exec_endMarker_encoding hu, exec_endMarker_encoding (s := encodeLeftover f p n endOff u) hu]
      exact UpTo.of_map (emitEndMarker_encodeLeftover u)

end

/-! ### DECODE -/

/-- The state with `end` changed by `f` and other values in `px`, the run and the encoder's cursors. -/
def decodeLeftover (f : Nat → Nat) (px : Pixel) (run : BitVec 6) (i q : Nat) (s : State) : State :=
  { s with px := px, run := run, i := i, q := q, endOff := f s.endOff }

section

variable {f : Nat → Nat} {px : Pixel} {run : BitVec 6} {i q : Nat}

theorem memWrite_decodeLeftover (a : Nat) (v : Byte) (s : State) :
    memWrite a v (decodeLeftover f px run i q s) = (memWrite a v s).map (decodeLeftover f px run i q) := by
  cases hf : portFault s.cfg .write a with
  | true =>
    rw [memWrite_stop a v s hf, memWrite_stop a v (decodeLeftover f px run i q s) hf]
    rfl
  | false =>
    rw [memWrite_go a v s hf, memWrite_go a v (decodeLeftover f px run i q s) hf]
    rfl

theorem memWriteList_decodeLeftover (bs : List Byte) (a : Nat) (s : State) :
    memWriteList a bs (decodeLeftover f px run i q s) =
      (memWriteList a bs s).map (decodeLeftover f px run i q) := by
  induction bs generalizing a s with
  | nil => rfl
  | cons b bs ih => rw [memWriteList, memWriteList, memWrite_decodeLeftover, Flow.map_andThen (ih (a + 1))]

theorem writePixel_decodeLeftover (P : Pixel) (s : State) :
    writePixel P (decodeLeftover f px run i q s) = (writePixel P s).map (decodeLeftover f px run i q) :=
  (congrArg (Flow.andThen · _) (memWriteList_decodeLeftover ..)).trans (Flow.map_andThen (fun _ => rfl) _)

theorem writePixels_decodeLeftover (P : Pixel) (k : Nat) (s : State) :
    writePixels P k (decodeLeftover f px run i q s) = (writePixels P k s).map (decodeLeftover f px run i q) := by
  induction k generalizing s with
  | zero => rfl
  | succ k ih => rw [writePixels, writePixels, writePixel_decodeLeftover, Flow.map_andThen ih]

theorem noteAlpha_decodeLeftover (s : State) :
    noteAlpha (decodeLeftover f px run i q s) = decodeLeftover f px run i q (noteAlpha s) := by
  rw [noteAlpha_eq, noteAlpha_eq]
  rfl

theorem commonTail_decodeLeftover (s : State) :
    commonTail (decodeLeftover f px run i q s) = (commonTail s).map (decodeLeftover f px run i q) := by
  by_cases hn : s.pixels < s.n + 1
  · rw [commonTail, commonTail, if_pos hn, if_pos (by exact hn)]
    rfl
  · rw [commonTail, commonTail, if_neg hn, if_neg (by exact hn), noteAlpha_decodeLeftover]
    exact (congrArg (Flow.andThen · _) (writePixel_decodeLeftover s.prev (noteAlpha s))).trans
      (Flow.map_andThen (fun _ => rfl) _)

theorem decodePixel_decodeLeftover (len : Nat) (P : Pixel) (s : State) :
    decodePixel len P (decodeLeftover f px run i q s) = (decodePixel len P s).map (decodeLeftover f px run i q) :=
  commonTail_decodeLeftover { s with prev := P, p := s.p + len }

theorem decodeRun_decodeLeftover (count : Nat) (s : State) :
    decodeRun count (decodeLeftover f px run i q s) = (decodeRun count s).map (decodeLeftover f px run i q) := by
  by_cases hn : s.pixels < s.n + count
  · rw [decodeRun, decodeRun, if_pos hn, if_pos (by exact hn)]
    rfl
  · rw [decodeRun, decodeRun, if_neg hn, if_neg (by exact hn)]
    exact (congrArg (Flow.andThen · _) (writePixels_decodeLeftover s.prev count s)).trans
      (Flow.map_andThen (fun _ => rfl) _)

theorem chunkPixel_decodeLeftover (c : Instr) (s : State) :
    chunkPixel c (decodeLeftover f px run i q s) = chunkPixel c s := by
  cases c <;> rfl

theorem exec_chunk_decodeLeftover {c : Instr} (hc : c.isChunk = true) {s : State} (hp : s.phase = .decoding) :
    UpTo (decodeLeftover f px run i q) (exec c s) (exec c (decodeLeftover f px run i q s)) := by
  rcases isChunk_cases hc with hpc | ⟨count, rfl⟩
  · rw [exec_pixelChunk_decoding hpc hp, exec_pixelChunk_decoding (s := decodeLeftover f px run i q s) hpc hp,
      chunkPixel_decodeLeftover]
    exact UpTo.of_map (decodePixel_decodeLeftover _ _ s)
  · rw [exec_run_decoding hp, exec_run_decoding (s := decodeLeftover f px run i q s) hp]
    exact UpTo.of_map (decodeRun_decodeLeftover count s)

theorem fetchHeader_decodeLeftover (s : State) : fetchHeader (decodeLeftover f px run i q s) = fetchHeader s := by
  have hread : ∀ a k, memReadList (decodeLeftover f px run i q s) a k = memReadList s a k :=
    fun a k => memReadList_congr (s := s) (t := decodeLeftover f px run i q s) rfl rfl k a
  simp only [fetchHeader, hread]
  rfl

/-- The chunk loop reads `end`, so it must be the same in both states. -/
theorem fetchChunk_decodeLeftover (s : State) : fetchChunk (decodeLeftover id px run i q s) = fetchChunk s := by
  have hread : ∀ a k, memReadList (decodeLeftover id px run i q s) a k = memReadList s a k :=
    fun a k => memReadList_congr (s := s) (t := decodeLeftover id px run i q s) rfl rfl k a
  simp only [fetchChunk, hread]
  rfl

theorem fetchEnd_decodeLeftover (s : State) : fetchEnd (decodeLeftover id px run i q s) = fetchEnd s := by
  have hbytes : ∀ a, checkMarkerBytes (decodeLeftover id px run i q s) a endMarkerBytes =
      checkMarkerBytes s a endMarkerBytes := fun a =>
    checkMarkerBytes_congr (s := s) (t := decodeLeftover id px run i q s) rfl rfl endMarkerBytes a
  simp only [fetchEnd, fetchMarker, hbytes]
  rfl

/-- HEADER sets `end`, so from the chunk loop on it is the same in both states. -/
theorem exec_header_decodeLeftover {s : State} (hp : s.phase = .decoding) (hs : s.stage = .header) (w h : Word)
    (c cs : Byte) :
    ∃ t g, exec (.header w h c cs) s = .next t ∧ (t.stage = .body → g = id) ∧
      exec (.header w h c cs) (decodeLeftover f px run i q s) = .next (decodeLeftover g px run i q t) := by
  rw [exec_header_decoding hp, exec_header_decoding (s := decodeLeftover f px run i q s) hp]
  have hstage : ∀ code, (raise code (latchHeader w h c cs s)).stage = .body → f = id := fun code hbody => by
    cases hs.symm.trans hbody
  rcases decodeHeaderFields_cases w h c cs s with ⟨hbad, he⟩ | ⟨hgood, hlt, he⟩ | ⟨hgood, hfits, he⟩
  · obtain ⟨h3, h4⟩ := (goodChannels_not_iff c).1 (by rw [hbad]; rfl)
    rw [he, decodeHeaderFields_badChannels h3 h4]
    exact ⟨_, f, rfl, hstage _, rfl⟩
  · rw [he, decodeHeaderFields_overflow (s := decodeLeftover f px run i q s) cs hgood hlt]
    exact ⟨_, f, rfl, hstage _, rfl⟩
  · rw [he, decodeHeaderFields_fits (s := decodeLeftover f px run i q s) cs hgood hfits]
    exact ⟨_, id, rfl, fun _ => rfl, rfl⟩

theorem decode_start_leftover {s : State} (hp : s.phase = .decoding) (hs : s.stage = .start) :
    ∃ t, t.stage ≠ .body ∧ engineTurn s = .next t ∧
      engineTurn (decodeLeftover f px run i q s) = .next (decodeLeftover f px run i q t) := by
  have hcheck : decodeCheck (decodeLeftover f px run i q s) = decodeCheck s := rfl
  rcases decodeStart_cases s hp hs with ⟨h0, he⟩ | ⟨h0, he⟩ <;>
    rcases decodeStart_cases (decodeLeftover f px run i q s) hp hs with ⟨h0', he'⟩ | ⟨h0', he'⟩
  · exact ⟨_, (by decide : Stage.header ≠ .body), he, he'⟩
  · exact absurd (hcheck.trans h0) h0'
  · exact absurd (hcheck.symm.trans h0') h0
  · rw [hcheck] at he'
    exact ⟨_, by rw [raise_stage, hs]; decide, he, he'⟩

theorem decode_body_leftover {s : State} (hp : s.phase = .decoding) (hs : s.stage = .body) :
    UpTo (decodeLeftover id px run i q) (engineTurn s) (engineTurn (decodeLeftover id px run i q s)) := by
  by_cases hlt : s.p < s.endOff
  · rw [engineTurn_chunk hp hs hlt, engineTurn_chunk (s := decodeLeftover id px run i q s) hp hs hlt,
      fetchChunk_decodeLeftover]
    rcases fetchChunk_cases s hlt with ⟨c, hok, hc, -⟩ | ⟨code, -, herr⟩
    · rw [hok]
      exact exec_chunk_decodeLeftover hc hp
    · rw [herr]
      exact UpTo.next (decodeLeftover id px run i q) (raise code s)
  · have hge := Nat.not_lt.1 hlt
    rw [engineTurn_end hp hs hge, engineTurn_end (s := decodeLeftover id px run i q s) hp hs hge,
      fetchEnd_decodeLeftover]
    rcases fetchEnd_cases s with ⟨hok, -⟩ | ⟨code, -, herr⟩
    · rw [hok, runFetched, runFetched, exec_endMarker_decoding hp,
        exec_endMarker_decoding (s := decodeLeftover id px run i q s) hp]
      exact UpTo.next (decodeLeftover id px run i q) (complete (s.pixels * s.chans) s)
    · rw [herr]
      exact UpTo.next (decodeLeftover id px run i q) (raise code s)

/-- A turn of DECODE, with `end` the same in both states in the chunk loop. -/
theorem decode_turn_leftover {s : State} (hp : s.phase = .decoding) (hf : s.stage = .body → f = id) :
    ∃ t g, engineTurn s = .next t ∧ (t.stage = .body → g = id) ∧
      engineTurn (decodeLeftover f px run i q s) = .next (decodeLeftover g px run i q t) := by
  cases hs : s.stage with
  | start =>
    obtain ⟨t, hstage, ht, ht'⟩ := decode_start_leftover (f := f) (px := px) (run := run) (i := i) (q := q) hp hs
    exact ⟨t, f, ht, fun hbody => absurd hbody hstage, ht'⟩
  | header =>
    rw [engineTurn_header hp hs, engineTurn_header (s := decodeLeftover f px run i q s) hp hs,
      fetchHeader_decodeLeftover]
    rcases fetchHeader_cases s with ⟨w, h, c, cs, hok, -, -⟩ | ⟨code, -, herr⟩
    · rw [hok]
      exact exec_header_decodeLeftover hp hs w h c cs
    · rw [herr]
      exact ⟨raise code s, f, rfl, fun hbody => (by cases hs.symm.trans hbody), rfl⟩
  | body =>
    obtain rfl := hf hs
    obtain ⟨t, ht, ht'⟩ := decode_body_leftover (px := px) (run := run) (i := i) (q := q) hp hs
    exact ⟨t, id, ht, fun _ => rfl, ht'⟩

end

/-! ### The host's view of two runs -/

/-- Two states that an ENCODE, or an idle engine after it, does not tell apart. -/
def EncodeTwins (s s' : State) : Prop :=
  s.phase ≠ .decoding ∧ ∃ f p n endOff, s' = encodeLeftover f p n endOff s

/-- Two states that a DECODE, or an idle engine after it, does not tell apart. -/
def DecodeTwins (s s' : State) : Prop :=
  s.phase ≠ .encoding ∧ ∃ f px run i q, s' = decodeLeftover f px run i q s ∧ (s.stage = .body → f = id)

/-- A turn of the engine begins no operation. -/
theorem engineTurn_phase {s t : State} (hb : s.busy = true) (h : engineTurn s = .next t) :
    t.phase = s.phase ∨ t.phase = .idle := by
  cases engineTurn_status hb h with
  | same hu => exact .inl hu.1
  | raised => exact .inr rfl
  | completed => exact .inr rfl

theorem EncodeTwins.engineTurn {s s' t : State} (h : EncodeTwins s s') (ht : engineTurn s = .next t) :
    ∃ t', Machine.engineTurn s' = .next t' ∧ EncodeTwins t t' := by
  obtain ⟨hphase, f, p, n, endOff, rfl⟩ := h
  cases hp : s.phase with
  | idle =>
    cases (engineTurn_idle hp).symm.trans ht
    exact ⟨_, engineTurn_idle hp, hphase, f, p, n, endOff, rfl⟩
  | encoding =>
    obtain ⟨g, u, hu, hu'⟩ := encode_turn_leftover (f := f) (p := p) (n := n) (endOff := endOff) hp
    cases hu.symm.trans ht
    refine ⟨_, hu', ?_, g, p, n, endOff, rfl⟩
    rcases engineTurn_phase ((busy_eq_true_iff s).2 (by rw [hp]; decide)) ht with he | he <;> rw [he]
    · exact hphase
    · exact nofun
  | decoding => exact absurd hp hphase

theorem DecodeTwins.engineTurn {s s' t : State} (h : DecodeTwins s s') (ht : engineTurn s = .next t) :
    ∃ t', Machine.engineTurn s' = .next t' ∧ DecodeTwins t t' := by
  obtain ⟨hphase, f, px, run, i, q, rfl, hf⟩ := h
  cases hp : s.phase with
  | idle =>
    cases (engineTurn_idle hp).symm.trans ht
    exact ⟨_, engineTurn_idle hp, hphase, f, px, run, i, q, rfl, hf⟩
  | encoding => exact absurd hp hphase
  | decoding =>
    obtain ⟨u, g, hu, hg, hu'⟩ := decode_turn_leftover (px := px) (run := run) (i := i) (q := q) hp hf
    cases hu.symm.trans ht
    refine ⟨_, hu', ?_, g, px, run, i, q, rfl, hg⟩
    rcases engineTurn_phase ((busy_eq_true_iff s).2 (by rw [hp]; decide)) ht with he | he <;> rw [he]
    · exact hphase
    · exact nofun

theorem EncodeTwins.hostAgree {s s' : State} (h : EncodeTwins s s') : hostAgree s s' := by
  obtain ⟨-, f, p, n, endOff, rfl⟩ := h
  exact hostAgree_over (i := encodeLeftover f p n endOff s) rfl

theorem DecodeTwins.hostAgree {s s' : State} (h : DecodeTwins s s') : hostAgree s s' := by
  obtain ⟨-, f, px, run, i, q, rfl, -⟩ := h
  exact hostAgree_over (i := decodeLeftover f px run i q s) rfl

/-- Under a relation that every turn of the engine keeps, the host sees the same after every number of unattended
steps. -/
theorem run_hostAgree {R : State → State → Prop}
    (hturn : ∀ {s s' t : State}, R s s' → engineTurn s = .next t → ∃ t', engineTurn s' = .next t' ∧ R t t')
    (hagree : ∀ {s s' : State}, R s s' → hostAgree s s') (k : Nat) {s s' : State} (h : R s s')
    (hs : s.schedule = []) (hs' : s'.schedule = []) :
    ∃ u u', core.run k s = .next u ∧ core.run k s' = .next u' ∧ hostAgree u u' := by
  induction k generalizing s s' with
  | zero => exact ⟨s, s', run_zero s, run_zero s', hagree h⟩
  | succ k ih =>
    obtain ⟨t, hstep, hmove, ht⟩ := unattended_step hs
    obtain ⟨t', hstep', hmove', ht'⟩ := unattended_step hs'
    obtain ⟨v, hv, hR⟩ := hturn h hmove
    cases hv.symm.trans hmove'
    rw [run_succ_of_step k hstep, run_succ_of_step k hstep']
    exact ih hR ht ht'

theorem startOperation_schedule (m : Mode) (ie : Bool) (s : State) :
    (startOperation m ie s).schedule = s.schedule := by
  cases hb : s.busy with
  | true => rw [startOperation_of_busy hb]
  | false =>
    rw [startOperation_of_idle hb]
    cases m <;> rfl

end Sys2Proof.Machine
end

section
/-! The state left by one operation, settled. -/

namespace Sys2Proof.Machine

open Sys2Proof

/-- Settles O51: START makes fresh what the operation uses; what it leaves commutes with every turn. -/
theorem leftoverStateDoesNotMatter : Obligations.LeftoverStateDoesNotMatter := by
  intro s prev px run i q p n endOff table stage ie rsv c hidle hsched hc s'
  have hb : s.busy = false := (busy_eq_false_iff s).2 hidle
  have hb' : s'.busy = false := (busy_eq_false_iff s').2 hidle
  have hsched' : ∀ m, (startOperation m ie s').schedule = [] := fun m =>
    (startOperation_schedule m ie s').trans hsched
  rcases hc with rfl | rfl
  · have htwins : EncodeTwins (startOperation .encode ie s) (startOperation .encode ie s') := by
      rw [startOperation_of_idle hb, startOperation_of_idle hb']
      exact ⟨nofun, fun _ => px, p, n, endOff, rfl⟩
    exact ⟨_, _, exec_encode_eq_startOperation ie rsv s, exec_encode_eq_startOperation ie rsv s', fun k =>
      run_hostAgree EncodeTwins.engineTurn EncodeTwins.hostAgree k htwins
        ((startOperation_schedule .encode ie s).trans hsched) (hsched' .encode)⟩
  · have htwins : DecodeTwins (startOperation .decode ie s) (startOperation .decode ie s') := by
      rw [startOperation_of_idle hb, startOperation_of_idle hb']
      exact ⟨nofun, fun _ => endOff, px, run, i, q, rfl, nofun⟩
    exact ⟨_, _, exec_decode_eq_startOperation ie rsv s, exec_decode_eq_startOperation ie rsv s', fun k =>
      run_hostAgree DecodeTwins.engineTurn DecodeTwins.hostAgree k htwins
        ((startOperation_schedule .decode ie s).trans hsched) (hsched' .decode)⟩

end Sys2Proof.Machine
end
